-- ==== Sys2Proof/Word.lean ====
section
/-! DEFINITION. The widths of the block's values (00_scope.md rules R10 and R11). -/

namespace Sys2Proof

/-- One byte: a transferred byte, a port register, an entry of the frame buffer (R10). -/
abbrev Byte := BitVec 8

/-- One host-visible register, and one command word (R10, R71). -/
abbrev Word := BitVec 32

end Sys2Proof
end

