-- ==== Sys2Proof/Syntax.lean ====
section
/-! DEFINITION. What a host can present to the block: the commands and register accesses of spec/opcode_table.json
(30_encoding.md), the raw host access that carries them (R117), and the events of the block's agents (20_memory.md R87). -/

namespace Sys2Proof

/-- A line descriptor (00_scope.md R21): port handle, bit position 0 to 7, polarity flag. -/
structure LineDesc where
  /-- the port handle `REG` -/
  reg : BitVec 8
  /-- the bit position `BIT` -/
  bit : BitVec 3
  /-- the polarity flag `INV` -/
  inv : Bool
deriving DecidableEq, Repr, Inhabited

/-- Two descriptors name the same physical line when their REG and BIT are equal, whatever their INV (R21). -/
abbrev LineDesc.samePhysical (a b : LineDesc) : Bool := a.reg == b.reg && a.bit == b.bit

/-- The instruction set: one constructor per row of spec/opcode_table.json. The channel index `k` and the buffer
index `i` are those of the register's address (R104, R113). -/
inductive Instr where
  /-- `START` (40_i2c_conditions.md R130) -/
  | start
  /-- `RSTART` (R131) -/
  | rstart
  /-- `STOP` (R132) -/
  | stop
  /-- `WRBYTE` (41_i2c_bytes.md R150) -/
  | wrbyte (byte : BitVec 8)
  /-- `RDBYTE` (R152); `ack` is DOC's `sendAck` -/
  | rdbyte (ack : Bool)
  /-- `WRFRAME` (42_i2c_frames.md R172) -/
  | wrframe (len : BitVec 9) (addr : BitVec 7) (hold : Bool)
  /-- `RDFRAME` (R175) -/
  | rdframe (len : BitVec 9) (addr : BitVec 7) (hold : Bool)
  /-- `PWM.INIT` (43_pwm_channel.md R190) -/
  | pwmInit (k : Nat) (duty : BitVec 16) (line : LineDesc)
  /-- `PWM.SETDUTY` (R193) -/
  | pwmSetduty (k : Nat) (duty : BitVec 16)
  /-- `PWM.SETLINE` (R195) -/
  | pwmSetline (k : Nat) (line : LineDesc)
  /-- `PWM.START` (44_pwm_worker.md R210) -/
  | pwmStart (k : Nat)
  /-- `PWM.PAUSE` (R212) -/
  | pwmPause (k : Nat)
  /-- `PWM.RESUME` (R213) -/
  | pwmResume (k : Nat)
  /-- `PWM.STOP` (R214) -/
  | pwmStop (k : Nat)
  /-- `RD.I2C_STATUS` (42_i2c_frames.md R178) -/
  | rdI2cStatus
  /-- `RD.I2C_RXDATA` (R179) -/
  | rdI2cRxdata
  /-- `RD.I2C_BUF` (R180) -/
  | rdI2cBuf (i : Nat)
  /-- `WR.I2C_BUF` (R181) -/
  | wrI2cBuf (i : Nat) (v : Word)
  /-- `RD.PWM_STATUS` (44_pwm_worker.md R215) -/
  | rdPwmStatus (k : Nat)
  /-- `RD.PWM_DUTY` (43_pwm_channel.md R197) -/
  | rdPwmDuty (k : Nat)
  /-- `RD.PWM_PERIOD` (R198) -/
  | rdPwmPeriod (k : Nat)
  /-- `RD.PWM_LINE` (R199) -/
  | rdPwmLine (k : Nat)
  /-- `RD.PWM_PERIOD_ARG` (R196) -/
  | rdPwmPeriodArg (k : Nat)
  /-- `WR.PWM_PERIOD_ARG` (R196) -/
  | wrPwmPeriodArg (k : Nat) (v : Word)
deriving DecidableEq, Repr

/-- The direction of a host access (R14, R117). -/
inductive Dir where
  | read
  | write
deriving DecidableEq, Repr, Inhabited

/-- The width of a host access (R75). -/
inductive Width where
  | w8
  | w16
  | w32
deriving DecidableEq, Repr, Inhabited

/-- A host access (R14, R117): direction, host address, width and, for a write, the word written. -/
structure HostAccess where
  dir : Dir
  /-- the host address; the offset of R72 is `addr - BASE` -/
  addr : Nat
  width : Width
  /-- the word written; no meaning on a read -/
  data : Word
deriving DecidableEq, Repr, Inhabited

/-- The next step of one of the block's agents (20_memory.md R87, 60_exceptions.md R257). -/
inductive Event where
  /-- the host performs one access -/
  | host (a : HostAccess)
  /-- the I2C engine takes its next step, one line action (R17) -/
  | engine
  /-- the time base ticks (44_pwm_worker.md R219) -/
  | tick
  /-- the worker of channel `k` takes its tick step of the present tick (R220, R221) -/
  | worker (k : Nat)
  /-- the platform asserts and releases the reset input (70_reset_and_hazards.md R270) -/
  | reset
deriving DecidableEq, Repr, Inhabited

end Sys2Proof
end

