-- ==== Sys2Proof/Config.lean ====
section
/-! DEFINITION. What an implementation fixes (the OPEN parameters of 00_scope.md R10) and the free values of the model. -/

namespace Sys2Proof

/-- The OPEN parameters of R10, fixed for the life of the block (R22). Every statement about the machine holds for
every value of this structure: it is plain data of State, and only `Config.reference` names one value. -/
structure Config where
  /-- `BASE`, the host address of offset 0 (R71) -/
  base : Nat
  /-- `N_PWM`, the number of PWM channels -/
  nPwm : Nat
  /-- `SDA_LINE` (R22) -/
  sda : LineDesc
  /-- `SCL_LINE` (R22) -/
  scl : LineDesc
  /-- `SUPPORTS_OUTPUT`: the descriptors for which the platform's predicate holds (any predicate on the 4096
  descriptors is such a list) -/
  outputLines : List LineDesc
  /-- `TICK_HZ`, ticks of the PWM time base per second (R219) -/
  tickHz : Nat
  /-- `EDGE_DELAY`; no rule of the model depends on it (R10, R290) -/
  edgeDelay : Nat
deriving DecidableEq, Repr

/-- `SUPPORTS_OUTPUT(L)` (R10). -/
def Config.supportsOutput (c : Config) (l : LineDesc) : Bool := c.outputLines.contains l

/-- The configurations the model covers: R22 (two different physical lines, both output-capable), the ranges of R10 and
R71, and a PERIOD_DEFAULT that fits its 32-bit register (R12, R37; log 18). Any other is refused (R22, U15; log 19). -/
def Config.wf (c : Config) : Bool :=
  c.base % 4096 == 0 && decide (1 ≤ c.nPwm) && decide (c.nPwm ≤ 64) && decide (50 ≤ c.tickHz)
    && decide (c.tickHz / 50 < 2 ^ 32) && !c.sda.samePhysical c.scl && c.supportsOutput c.sda && c.supportsOutput c.scl

/-- `FRAME_MAX`, the capacity of the frame buffer in bytes (R10). -/
def Config.frameMax : Nat := 256

/-- What an entry of the frame buffer that nothing has written reads as. DESIGN CHOICE (log 1): the spec calls the
contents at reset UNSPECIFIED (R35, U1). Unsafe: no statement may rest on it. -/
def Config.bufResetByte : Byte := 0

/-- The 32 descriptors of one port: every bit position with either polarity. -/
def Config.portLines (reg : BitVec 8) : List LineDesc :=
  (List.range 8).flatMap fun b => [⟨reg, BitVec.ofNat 3 b, false⟩, ⟨reg, BitVec.ofNat 3 b, true⟩]

/-- The reference configuration of 95_test_vectors.md: one channel, SDA on P0.0, SCL on P0.1, every line of P0 and P2
output-capable. DESIGN CHOICE (log 4): BASE 0 and TICK_HZ 10^6 are the model's. Unsafe for a statement that rests on it. -/
def Config.reference : Config where
  base := 0
  nPwm := 1
  sda := ⟨0, 0, false⟩
  scl := ⟨0, 1, false⟩
  outputLines := Config.portLines 0 ++ Config.portLines 2
  tickHz := 1000000
  edgeDelay := 0

/-- FREE VALUE (log 7): what the n-th PortRead returns once the inputs listed in State are used up (R85, U3). -/
opaque Config.portDraw : Nat → Byte

/-- FREE VALUE (log 6): which agent moves at the n-th free choice, once the agenda in State is used up (R87, U11). -/
opaque Config.freeEvent : Nat → Event

end Sys2Proof
end

