-- ==== Sys2Proof/WellFormed.lean ====
section
/-! DEFINITION. Which instruction terms name a register that exists (20_memory.md R72, 30_encoding.md R113). -/

namespace Sys2Proof

/-- The channel index of a PWM register is below N_PWM (R72). -/
def wfChannel (c : Config) (k : Nat) : Bool := decide (k < c.nPwm)

/-- The index of a frame-buffer entry is below FRAME_MAX (R72). -/
def wfEntry (i : Nat) : Bool := decide (i < Config.frameMax)

/-- An instruction is well formed when the register its address selects exists. Every operand field of a command word
may hold any value of its width: LEN, DUTY and LINE values out of range are rejected by the block, not by the
decoder (R110, R107, R106). -/
def Instr.wf (c : Config) : Instr → Bool
  | .start => true
  | .rstart => true
  | .stop => true
  | .wrbyte _ => true
  | .rdbyte _ => true
  | .wrframe _ _ _ => true
  | .rdframe _ _ _ => true
  | .pwmInit k _ _ => wfChannel c k
  | .pwmSetduty k _ => wfChannel c k
  | .pwmSetline k _ => wfChannel c k
  | .pwmStart k => wfChannel c k
  | .pwmPause k => wfChannel c k
  | .pwmResume k => wfChannel c k
  | .pwmStop k => wfChannel c k
  | .rdI2cStatus => true
  | .rdI2cRxdata => true
  | .rdI2cBuf i => wfEntry i
  | .wrI2cBuf i _ => wfEntry i
  | .rdPwmStatus k => wfChannel c k
  | .rdPwmDuty k => wfChannel c k
  | .rdPwmPeriod k => wfChannel c k
  | .rdPwmLine k => wfChannel c k
  | .rdPwmPeriodArg k => wfChannel c k
  | .wrPwmPeriodArg k _ => wfChannel c k

end Sys2Proof
end

