-- ==== Sys2Proof/Decode.lean ====
section
/-! DEFINITION. Decoding a host access into an instruction, total on every access (30_encoding.md R100 to R113, R117;
20_memory.md R72 to R78), and the encoder written from the same tables. -/

namespace Sys2Proof

/-! ### Operand fields of a command word (R101, R104, R106) -/

/-- `BYTE` = w[15:8] (R101). -/
def fieldByte (w : Word) : BitVec 8 := w.extractLsb' 8 8

/-- `ACK` = w[5] (R101). -/
def fieldAck (w : Word) : Bool := w.getLsbD 5

/-- `HOLD` = w[4] (R101). -/
def fieldHold (w : Word) : Bool := w.getLsbD 4

/-- `ADDR` = w[22:16] (R101). -/
def fieldAddr (w : Word) : BitVec 7 := w.extractLsb' 16 7

/-- `LEN` = w[31:23], unsigned (R101, R110). -/
def fieldLen (w : Word) : BitVec 9 := w.extractLsb' 23 9

/-- `OP` = w[3:0] (R101, R104). -/
def fieldOp (w : Word) : BitVec 4 := w.extractLsb' 0 4

/-- `DUTY` = w[31:16] (R104). -/
def fieldDuty (w : Word) : BitVec 16 := w.extractLsb' 16 16

/-- `LINE` = w[15:4] (R104). -/
def fieldLine (w : Word) : BitVec 12 := w.extractLsb' 4 12

/-- `decode_line`: the descriptor a 12-bit value encodes, REG = e[11:4], INV = e[3], BIT = e[2:0] (R106). -/
def lineOfBits (e : BitVec 12) : LineDesc :=
  { reg := e.extractLsb' 4 8, bit := e.extractLsb' 0 3, inv := e.getLsbD 3 }

/-- The 12-bit encoding of a descriptor, e = (REG << 4) | (INV << 3) | BIT (R106). -/
def lineToBits (l : LineDesc) : BitVec 12 :=
  l.reg.setWidth 12 <<< 4 ||| (BitVec.ofBool l.inv).setWidth 12 <<< 3 ||| l.bit.setWidth 12

/-! ### The opcode tables (R102, R105) -/

/-- The I2C opcodes of R102. -/
inductive I2cOp where
  | start
  | rstart
  | stop
  | wrbyte
  | rdbyte
  | wrframe
  | rdframe
deriving DecidableEq, Repr

/-- The PWM opcodes of R105. -/
inductive PwmOp where
  | init
  | setduty
  | setline
  | start
  | pause
  | resume
  | stop
deriving DecidableEq, Repr

/-- A row of an opcode table: a word w selects the row iff (w AND mask) = pattern (R102). -/
structure Row (α : Type) where
  op : α
  pattern : Word
  mask : Word
deriving DecidableEq, Repr

/-- The table of R102. -/
def i2cTable : List (Row I2cOp) :=
  [ ⟨.start, 0x00000001, 0xFFFFFFFF⟩,
    ⟨.rstart, 0x00000002, 0xFFFFFFFF⟩,
    ⟨.stop, 0x00000003, 0xFFFFFFFF⟩,
    ⟨.wrbyte, 0x00000004, 0xFFFF00FF⟩,
    ⟨.rdbyte, 0x00000005, 0xFFFFFFDF⟩,
    ⟨.wrframe, 0x00000006, 0x0000FFEF⟩,
    ⟨.rdframe, 0x00000007, 0x0000FFEF⟩ ]

/-- The table of R105. -/
def pwmTable : List (Row PwmOp) :=
  [ ⟨.init, 0x00000001, 0x0000000F⟩,
    ⟨.setduty, 0x00000002, 0x0000FFFF⟩,
    ⟨.setline, 0x00000003, 0xFFFF000F⟩,
    ⟨.start, 0x00000004, 0xFFFFFFFF⟩,
    ⟨.pause, 0x00000005, 0xFFFFFFFF⟩,
    ⟨.resume, 0x00000006, 0xFFFFFFFF⟩,
    ⟨.stop, 0x00000007, 0xFFFFFFFF⟩ ]

/-- The decoding procedure of R112: the first row that matches, or none (RESERVED). -/
def decodeRow {α : Type} : List (Row α) → Word → Option α
  | [], _ => none
  | r :: rest, w => if w &&& r.mask = r.pattern then some r.op else decodeRow rest w

/-- The instruction an I2C row stands for, its operands taken from the word (R101). -/
def i2cInstr (w : Word) : I2cOp → Instr
  | .start => .start
  | .rstart => .rstart
  | .stop => .stop
  | .wrbyte => .wrbyte (fieldByte w)
  | .rdbyte => .rdbyte (fieldAck w)
  | .wrframe => .wrframe (fieldLen w) (fieldAddr w) (fieldHold w)
  | .rdframe => .rdframe (fieldLen w) (fieldAddr w) (fieldHold w)

/-- The instruction a PWM row stands for on channel k (R104). -/
def pwmInstr (k : Nat) (w : Word) : PwmOp → Instr
  | .init => .pwmInit k (fieldDuty w) (lineOfBits (fieldLine w))
  | .setduty => .pwmSetduty k (fieldDuty w)
  | .setline => .pwmSetline k (lineOfBits (fieldLine w))
  | .start => .pwmStart k
  | .pause => .pwmPause k
  | .resume => .pwmResume k
  | .stop => .pwmStop k

/-- A word written to I2C_CMD (R102, R112); none is RESERVED. -/
def decodeI2c (w : Word) : Option Instr := (decodeRow i2cTable w).map (i2cInstr w)

/-- A word written to PWM_CMD[k] (R105, R112); none is RESERVED. -/
def decodePwm (k : Nat) (w : Word) : Option Instr := (decodeRow pwmTable w).map (pwmInstr k w)

/-! ### The register map (20_memory.md R72) -/

/-- The registers of R72. -/
inductive Reg where
  | i2cCmd
  | i2cStatus
  | i2cRxdata
  | i2cBuf (i : Nat)
  | pwmCmd (k : Nat)
  | pwmStatus (k : Nat)
  | pwmDuty (k : Nat)
  | pwmPeriod (k : Nat)
  | pwmLine (k : Nat)
  | pwmPeriodArg (k : Nat)
deriving DecidableEq, Repr

/-- The offset of a register in the window (R72). -/
def regOffset : Reg → Nat
  | .i2cCmd => 0x000
  | .i2cStatus => 0x004
  | .i2cRxdata => 0x008
  | .i2cBuf i => 0x100 + 4 * i
  | .pwmCmd k => 0x800 + 0x20 * k
  | .pwmStatus k => 0x804 + 0x20 * k
  | .pwmDuty k => 0x808 + 0x20 * k
  | .pwmPeriod k => 0x80C + 0x20 * k
  | .pwmLine k => 0x810 + 0x20 * k
  | .pwmPeriodArg k => 0x814 + 0x20 * k

/-- The register of bank k at an offset inside the bank; +0x18 and +0x1C are unmapped (R72). -/
def bankReg (k sub : Nat) : Option Reg :=
  if sub = 0x00 then some (.pwmCmd k)
  else if sub = 0x04 then some (.pwmStatus k)
  else if sub = 0x08 then some (.pwmDuty k)
  else if sub = 0x0C then some (.pwmPeriod k)
  else if sub = 0x10 then some (.pwmLine k)
  else if sub = 0x14 then some (.pwmPeriodArg k)
  else none

/-- The register at an offset of the window that is a multiple of 4, with `n` channels; none is unmapped (R72). -/
def regAt (n off : Nat) : Option Reg :=
  if off = 0x000 then some .i2cCmd
  else if off = 0x004 then some .i2cStatus
  else if off = 0x008 then some .i2cRxdata
  else if off < 0x100 then none
  else if off < 0x500 then some (.i2cBuf ((off - 0x100) / 4))
  else if off < 0x800 then none
  else if (off - 0x800) / 0x20 < n then bankReg ((off - 0x800) / 0x20) ((off - 0x800) % 0x20)
  else none

/-- The host address of a register. -/
def regAddr (c : Config) (r : Reg) : Nat := c.base + regOffset r

/-! ### Decoding a host access (R117) -/

/-- What a host access selects: an instruction, a command word rejected by name as reserved (R111), an access that is
no row of the table but has an effect the spec gives (R78), or an access that is refused (R73, R75). -/
inductive Decoded where
  /-- a row of the opcode table -/
  | instr (i : Instr)
  /-- a reserved word written to I2C_CMD (R111) -/
  | reservedI2c
  /-- a reserved word written to PWM_CMD[k] (R111) -/
  | reservedPwm (k : Nat)
  /-- a write to a read-only register: ignored (R78) -/
  | readOnlyWrite
  /-- a read of a command register: returns 0 (R78) -/
  | commandRead
  /-- an unmapped, misaligned or narrow access: refused (R73, R75) -/
  | badAccess (addr : Nat)
  /-- an access outside the window: not the block's (R70, R71) -/
  | outsideWindow (addr : Nat)
deriving DecidableEq, Repr

/-- A 32-bit read of a mapped register (R113, R78). -/
def decodeRead : Reg → Decoded
  | .i2cCmd => .commandRead
  | .i2cStatus => .instr .rdI2cStatus
  | .i2cRxdata => .instr .rdI2cRxdata
  | .i2cBuf i => .instr (.rdI2cBuf i)
  | .pwmCmd _ => .commandRead
  | .pwmStatus k => .instr (.rdPwmStatus k)
  | .pwmDuty k => .instr (.rdPwmDuty k)
  | .pwmPeriod k => .instr (.rdPwmPeriod k)
  | .pwmLine k => .instr (.rdPwmLine k)
  | .pwmPeriodArg k => .instr (.rdPwmPeriodArg k)

/-- A 32-bit write of `w` to a mapped register (R113, R78). -/
def decodeWrite (w : Word) : Reg → Decoded
  | .i2cCmd => match decodeI2c w with
    | some i => .instr i
    | none => .reservedI2c
  | .i2cStatus => .readOnlyWrite
  | .i2cRxdata => .readOnlyWrite
  | .i2cBuf i => .instr (.wrI2cBuf i w)
  | .pwmCmd k => match decodePwm k w with
    | some i => .instr i
    | none => .reservedPwm k
  | .pwmStatus _ => .readOnlyWrite
  | .pwmDuty _ => .readOnlyWrite
  | .pwmPeriod _ => .readOnlyWrite
  | .pwmLine _ => .readOnlyWrite
  | .pwmPeriodArg k => .instr (.wrPwmPeriodArg k w)

/-- The decoder: total on every host access (R117). The offset is `addr - BASE`, a multiple of 4, and the width 32 bits; any
other access to the window is refused (R73, R75), and one outside it is not the block's (R70). -/
def decode (c : Config) (a : HostAccess) : Decoded :=
  if c.base ≤ a.addr ∧ a.addr - c.base < 0x1000 then
    if a.width = .w32 ∧ (a.addr - c.base) % 4 = 0 then
      match regAt c.nPwm (a.addr - c.base) with
      | none => .badAccess a.addr
      | some r => match a.dir with
        | .read => decodeRead r
        | .write => decodeWrite a.data r
    else .badAccess a.addr
  else .outsideWindow a.addr

/-! ### The encoder (R103, R105, R106, R113) -/

/-- The register an instruction's access addresses (R113). -/
def instrReg : Instr → Reg
  | .start => .i2cCmd
  | .rstart => .i2cCmd
  | .stop => .i2cCmd
  | .wrbyte _ => .i2cCmd
  | .rdbyte _ => .i2cCmd
  | .wrframe _ _ _ => .i2cCmd
  | .rdframe _ _ _ => .i2cCmd
  | .pwmInit k _ _ => .pwmCmd k
  | .pwmSetduty k _ => .pwmCmd k
  | .pwmSetline k _ => .pwmCmd k
  | .pwmStart k => .pwmCmd k
  | .pwmPause k => .pwmCmd k
  | .pwmResume k => .pwmCmd k
  | .pwmStop k => .pwmCmd k
  | .rdI2cStatus => .i2cStatus
  | .rdI2cRxdata => .i2cRxdata
  | .rdI2cBuf i => .i2cBuf i
  | .wrI2cBuf i _ => .i2cBuf i
  | .rdPwmStatus k => .pwmStatus k
  | .rdPwmDuty k => .pwmDuty k
  | .rdPwmPeriod k => .pwmPeriod k
  | .rdPwmLine k => .pwmLine k
  | .rdPwmPeriodArg k => .pwmPeriodArg k
  | .wrPwmPeriodArg k _ => .pwmPeriodArg k

/-- The direction of an instruction's access (R113). -/
def instrDir : Instr → Dir
  | .rdI2cStatus => .read
  | .rdI2cRxdata => .read
  | .rdI2cBuf _ => .read
  | .rdPwmStatus _ => .read
  | .rdPwmDuty _ => .read
  | .rdPwmPeriod _ => .read
  | .rdPwmLine _ => .read
  | .rdPwmPeriodArg _ => .read
  | .start => .write
  | .rstart => .write
  | .stop => .write
  | .wrbyte _ => .write
  | .rdbyte _ => .write
  | .wrframe _ _ _ => .write
  | .rdframe _ _ _ => .write
  | .pwmInit _ _ _ => .write
  | .pwmSetduty _ _ => .write
  | .pwmSetline _ _ => .write
  | .pwmStart _ => .write
  | .pwmPause _ => .write
  | .pwmResume _ => .write
  | .pwmStop _ => .write
  | .wrI2cBuf _ _ => .write
  | .wrPwmPeriodArg _ _ => .write

/-- A bit placed at position `n` of a word. -/
def bitAt (n : Nat) (b : Bool) : Word := (BitVec.ofBool b).setWidth 32 <<< n

/-- A frame command word, (LEN << 23) | (ADDR << 16) | (HOLD << 4) | OP (R103). -/
def frameWord (op : Word) (len : BitVec 9) (addr : BitVec 7) (hold : Bool) : Word :=
  len.setWidth 32 <<< 23 ||| addr.setWidth 32 <<< 16 ||| bitAt 4 hold ||| op

/-- The word of an instruction: the bit pattern of R103 and R105 for a command, the word written for a write access, and
0 for a read, which carries no word. -/
def instrWord : Instr → Word
  | .start => 0x00000001
  | .rstart => 0x00000002
  | .stop => 0x00000003
  | .wrbyte b => b.setWidth 32 <<< 8 ||| 0x4
  | .rdbyte a => bitAt 5 a ||| 0x5
  | .wrframe len addr hold => frameWord 0x6 len addr hold
  | .rdframe len addr hold => frameWord 0x7 len addr hold
  | .pwmInit _ d l => d.setWidth 32 <<< 16 ||| (lineToBits l).setWidth 32 <<< 4 ||| 0x1
  | .pwmSetduty _ d => d.setWidth 32 <<< 16 ||| 0x2
  | .pwmSetline _ l => (lineToBits l).setWidth 32 <<< 4 ||| 0x3
  | .pwmStart _ => 0x00000004
  | .pwmPause _ => 0x00000005
  | .pwmResume _ => 0x00000006
  | .pwmStop _ => 0x00000007
  | .rdI2cStatus => 0
  | .rdI2cRxdata => 0
  | .rdI2cBuf _ => 0
  | .wrI2cBuf _ v => v
  | .rdPwmStatus _ => 0
  | .rdPwmDuty _ => 0
  | .rdPwmPeriod _ => 0
  | .rdPwmLine _ => 0
  | .rdPwmPeriodArg _ => 0
  | .wrPwmPeriodArg _ v => v

/-- The host access that presents an instruction. -/
def encode (c : Config) (i : Instr) : HostAccess :=
  { dir := instrDir i, addr := regAddr c (instrReg i), width := .w32, data := instrWord i }

/-! ### Byte order, and the words of the opcode table -/

/-- The bytes of a word as a byte-numbering host stores them: the byte at offset +0 is bits [7:0] (R76). -/
def bytesOfWord (w : Word) : List Byte :=
  [w.extractLsb' 0 8, w.extractLsb' 8 8, w.extractLsb' 16 8, w.extractLsb' 24 8]

/-- The word that four stored bytes make, the first the least significant (R76); missing bytes are 0. -/
def wordOfBytes (b : List Byte) : Word :=
  (b.getD 3 0).setWidth 32 <<< 24 ||| (b.getD 2 0).setWidth 32 <<< 16
    ||| (b.getD 1 0).setWidth 32 <<< 8 ||| (b.getD 0 0).setWidth 32

/-- DESIGN CHOICE (log 15). A word of opcode_table.json says neither which register it is written to nor, for an access
row, the direction: both are the host access's own (R100, R117), and START's word is also a PWM.INIT word. This is
the access a table word stands for: a row of at most 16 bits is an access at the offset w[11:0], a write of 0 if
w[12] is set and else a read; a word with no operand bits that a row matches whole (mask 0xFFFFFFFF) is that row's;
any other word goes to I2C_CMD if a row of R102 matches it, else to PWM_CMD[0] if a row of R105 does. -/
def tableAccess (c : Config) (nbits w : Nat) : HostAccess :=
  let word := wordOfBytes (bytesOfWord (BitVec.ofNat 32 w))
  if nbits ≤ 16 then
    { dir := if w / 4096 % 2 = 1 then .write else .read, addr := c.base + w % 4096, width := .w32, data := 0 }
  else if 4 ≤ w ∧ w ≤ 7 then
    { dir := .write, addr := regAddr c (.pwmCmd 0), width := .w32, data := word }
  else if (decodeI2c word).isNone && (decodePwm 0 word).isSome then
    { dir := .write, addr := regAddr c (.pwmCmd 0), width := .w32, data := word }
  else
    { dir := .write, addr := regAddr c .i2cCmd, width := .w32, data := word }

/-- The instruction the decoder reads from a word of the opcode table, under the reference configuration (log 15). -/
def decodeTableWord (nbits w : Nat) : Option Instr :=
  match decode Config.reference (tableAccess Config.reference nbits w) with
  | .instr i => some i
  | .reservedI2c => none
  | .reservedPwm _ => none
  | .readOnlyWrite => none
  | .commandRead => none
  | .badAccess _ => none
  | .outsideWindow _ => none

end Sys2Proof
end

