-- ==== Sys2Proof/Machine/Operands.lean ====
section
/-! DEFINITION. The operand formats and the arithmetic on them (30_encoding.md R106 to R110, 44_pwm_worker.md R216,
00_scope.md R10, R20). -/

namespace Sys2Proof.Machine

open Sys2Proof

/-- The range rule of the duty cycle: a Q2.14 value d is in range iff 0 <= sext_16(d) <= 16384 (R107, R194). -/
def dutyInRange (d : BitVec 16) : Bool := decide (0 ≤ d.toInt ∧ d.toInt ≤ 16384)

/-- `on_ticks(P, d)` = floor(P * d / 16384) (R216). -/
def onTicks (p : Word) (d : BitVec 16) : Word := BitVec.ofNat 32 (p.toNat * d.toNat / 16384)

/-- `PERIOD_DEFAULT` = max(1, floor(0.02 * TICK_HZ)) (R10); it fits 32 bits in every configuration that `Config.wf`
holds of (R12; log 18). -/
def periodDefault (tickHz : Nat) : Word := BitVec.ofNat 32 (max 1 (tickHz / 50))

/-- A frame's address byte, (ADDR << 1) | RW (R109). -/
def addrByte (a : BitVec 7) (rw : Bool) : Byte := a.setWidth 8 <<< 1 ||| (BitVec.ofBool rw).setWidth 8

/-- The length check of WRFRAME: LEN <= FRAME_MAX (R110, R174). -/
def writeLenOk (len : BitVec 9) : Bool := decide (len.toNat ≤ Config.frameMax)

/-- The length check of RDFRAME: 1 <= LEN <= FRAME_MAX (R110, R174). -/
def readLenOk (len : BitVec 9) : Bool := decide (1 ≤ len.toNat ∧ len.toNat ≤ Config.frameMax)

/-- A port byte with bit `i` replaced by `v` (R20). -/
def putBit (b : Byte) (i : BitVec 3) (v : Bool) : Byte :=
  if v then b ||| (1#8 <<< i.toNat) else b &&& ~~~(1#8 <<< i.toNat)

/-- The logical level a port byte shows on a line, b[L.BIT] XOR L.INV (R20). -/
def lineLevel (l : LineDesc) (b : Byte) : Bool := b.getLsbD l.bit.toNat ^^ l.inv

/-- The byte a LineWrite stores: b with bit L.BIT replaced by v XOR L.INV (R20). -/
def lineStore (l : LineDesc) (b : Byte) (v : Bool) : Byte := putBit b l.bit (v ^^ l.inv)

/-- One shift of readByte's accumulator, x <- (x << 1) | s (41_i2c_bytes.md R152). -/
def shiftIn (x : Byte) (s : Bool) : Byte := x <<< 1 ||| (BitVec.ofBool s).setWidth 8

end Sys2Proof.Machine
end

