-- ==== Sys2Proof/Machine/State.lean ====
section
/-! DEFINITION. The state of the block (10_state.md), as plain data; the reasons a step can stop; the state after
reset (R45). -/

namespace Sys2Proof.Machine

open Sys2Proof

/-! ### The I2C engine -/

/-- The two I2C lines (00_scope.md R22). -/
inductive Wire where
  | sda
  | scl
deriving DecidableEq, Repr

/-- A line action the I2C engine is to perform (R24): `W(wire, level)`, or `R(SDA)`, the only read there is (R82). -/
inductive BusAction where
  | drive (wire : Wire) (level : Bool)
  | sample
deriving DecidableEq, Repr

/-- Where the pseudocode of the command in force stands, with its locals: which procedure runs, the loop index `j` of a
frame, writeByte's sample `r` and readByte's accumulator `x` (R31). A sample or accumulator is given its value by the
procedure before anything reads it; its value before that is log 20's. -/
inductive Stage where
  /-- `START` (R130) -/
  | start
  /-- `RSTART` (R131) -/
  | rstart
  /-- `STOP` (R132) -/
  | stop
  /-- `WRBYTE`'s writeByte (R150) -/
  | sendByte (r : Bool)
  /-- `RDBYTE`'s readByte (R152) -/
  | recvByte (x : Byte)
  /-- a frame's start_seq (R172, R175) -/
  | frameStart
  /-- a frame's address byte -/
  | frameAddr (r : Bool)
  /-- WRFRAME's data byte j -/
  | frameSend (j : Nat) (r : Bool)
  /-- RDFRAME's data byte j -/
  | frameRecv (j : Nat) (x : Byte)
  /-- end_frame (R171) -/
  | frameEnd
  /-- abort_frame (R170) -/
  | frameAbort
deriving DecidableEq, Repr

/-- `POS` (R31): the stage, and the line actions of its procedure still to be performed. An empty list is the start of
the procedure: its actions are computed with the step that performs the first of them (00_scope.md R17). -/
structure Pos where
  stage : Stage
  todo : List BusAction
deriving DecidableEq, Repr

/-- The codes of `I2C_STATUS.ERR` (60_exceptions.md R241): 0 to 4; 5 to 7 are never written. -/
inductive I2cErr where
  | ok
  | reserved
  | busy
  | badLength
  | bufBusy
deriving DecidableEq, Repr

/-- The I2C engine's registers (10_state.md R31 to R36). -/
structure I2c where
  /-- `I2C_STATUS.BUSY` -/
  busy : Bool
  /-- `I2C_STATUS.ACK` -/
  ack : Bool
  /-- `I2C_STATUS.RESULT` -/
  result : Bool
  /-- `I2C_STATUS.ERR` -/
  err : I2cErr
  /-- `I2C_STATUS.XCNT` -/
  xcnt : BitVec 9
  /-- `I2C_RXDATA.RXBYTE` -/
  rxbyte : Byte
  /-- `CUR`, the command word in execution -/
  cur : Word
  /-- `POS` -/
  pos : Pos
deriving DecidableEq, Repr

/-! ### The PWM channels -/

/-- `PWM_STATUS.STATE` (R38). -/
inductive WorkerState where
  | idle
  | running
  | paused
  | stopped
deriving DecidableEq, Repr

/-- The codes of `PWM_STATUS.ERR` (60_exceptions.md R242): 0 to 7. -/
inductive PwmErr where
  | ok
  | reserved
  | duty
  | line
  | period
  | state
  | notConstructed
  | owned
deriving DecidableEq, Repr

/-- One PWM channel: its register bank (R37, R38) and its worker's hidden state (R40, R41). -/
structure Channel where
  /-- `STATE` -/
  state : WorkerState
  /-- `STOP_PEND` -/
  stopPend : Bool
  /-- `CFG_VALID` -/
  cfgValid : Bool
  /-- `OUT` -/
  out : Bool
  /-- `ERR` -/
  err : PwmErr
  /-- `DUTY`, Q2.14 -/
  duty : BitVec 16
  /-- `PERIOD`, in ticks -/
  period : Word
  /-- `LINE` -/
  line : LineDesc
  /-- `PWM_PERIOD_ARG` -/
  periodArg : Word
  /-- `S_LINE`, the line the worker drives -/
  sLine : LineDesc
  /-- `S_P`, the worker's period in ticks -/
  sP : Word
  /-- `S_ON`, the worker's on-phase in ticks -/
  sOn : Word
  /-- `CNT`, the worker's tick counter -/
  cnt : Word
deriving DecidableEq, Repr

/-- A worker exists while STATE is Running or Paused (R220, R257). -/
abbrev Channel.active (c : Channel) : Bool := c.state == .running || c.state == .paused

/-! ### What leaves the block on the port interface -/

/-- The agents that perform line actions (R81). -/
inductive Agent where
  | engine
  | worker (k : Nat)
deriving DecidableEq, Repr

/-- One line action performed (R20, R24): a LineRead, or a LineWrite with the byte its PortRead drew and the byte its
PortWrite stored. -/
structure LineAction where
  agent : Agent
  line : LineDesc
  dir : Dir
  /-- the logical level written or read -/
  level : Bool
  /-- what the PortRead returned -/
  drawn : Byte
  /-- what the PortWrite stored; none for a LineRead -/
  stored : Option Byte
deriving DecidableEq, Repr

/-! ### The frame buffer as memory -/

/-- The frame buffer's bytes by index, as a list of cells in canonical form (`Memory.wf`). -/
abbrev Memory := List Host.Cell

/-- The canonical form: indices strictly rising, and no cell equal to what an unlisted index reads as. -/
def Memory.wf : Memory → Bool
  | [] => true
  | [c] => c.2 != Config.bufResetByte
  | c :: d :: rest => c.2 != Config.bufResetByte && decide (c.1 < d.1) && Memory.wf (d :: rest)

/-! ### Faults -/

/-- The faults of a host access. -/
inductive Fault where
  /-- `BadAccess(addr)` of R73, R75 and R248: an access at an unmapped or misaligned offset of the window, or of a width other
  than 32 bits. Recorded in `State.faults` by the access, which has no other effect; the machine goes on, and no step ends
  in this fault. A host program (Machine/Program.lean) that makes such an access ends in it. Safe (log 10). -/
  | badAccess (addr : Nat)
  /-- A host access outside the 4096-byte window, an address the block does not have (R70, R71). Raised by the host access;
  the run stops. Safe: nothing of the block is reached (log 10). -/
  | outsideWindow (addr : Nat)
deriving DecidableEq, Repr

/-! ### The state -/

/-- The state of the block, its configuration and its inputs (INVENTORY.md lists each field with its rule). -/
structure State where
  /-- the OPEN parameters (R10), fixed for the life of the block -/
  cfg : Config
  /-- the I2C engine -/
  i2c : I2c
  /-- `I2C_BUF` (R35) -/
  buf : Memory
  /-- the PWM channels, index k from 0 to N_PWM - 1 (R37) -/
  chans : List Channel
  /-- the tick number, from reset (R219) -/
  tickNo : Nat
  /-- the channels whose tick step of the present tick is still to come (R221) -/
  due : List Nat
  /-- the value the most recent host read returned (log 9) -/
  rdata : Word
  /-- the faults signalled to the host, newest first (R73; log 10) -/
  faults : List Fault
  /-- the line actions performed, newest first (R24; log 8) -/
  trace : List LineAction
  /-- the agents' steps to come, an input (R87; log 6) -/
  agenda : List Event
  /-- the values of the PortReads to come, an input (R85; log 7) -/
  portIn : List Byte
  /-- how many free values have been taken (logs 6 and 7) -/
  freeCount : Nat
deriving DecidableEq, Repr

/-- Why a step has no meaning. -/
inductive Refusal where
  /-- An instruction without a meaning; raised by exec's arms only (none is left). Safe. -/
  | notModelled (mnemonic : String)
  /-- A configuration outside the model, raised by step (R22, U15; log 19). Safe. -/
  | badConfiguration
deriving DecidableEq, Repr

/-! ### Reset (R45, R270) -/

/-- The I2C engine after reset (R45). CUR and POS are unspecified there; the values here are DESIGN CHOICE (log 2). -/
def I2c.reset : I2c where
  busy := false
  ack := false
  result := false
  err := .ok
  xcnt := 0
  rxbyte := 0
  cur := 0
  pos := { stage := .start, todo := [] }

/-- A PWM channel after reset (R45). S_LINE, S_P and S_ON are unspecified there; the values here are DESIGN CHOICE
(log 3). -/
def Channel.reset (tickHz : Nat) : Channel where
  state := .idle
  stopPend := false
  cfgValid := false
  out := false
  err := .ok
  duty := 0
  period := periodDefault tickHz
  line := ⟨0, 0, false⟩
  periodArg := periodDefault tickHz
  sLine := ⟨0, 0, false⟩
  sP := 0
  sOn := 0
  cnt := 0

/-- The block after reset, for any configuration (R45). I2C_BUF is UNSPECIFIED there (log 1). -/
def State.resetWith (c : Config) : State where
  cfg := c
  i2c := I2c.reset
  buf := []
  chans := List.replicate c.nPwm (Channel.reset c.tickHz)
  tickNo := 0
  due := []
  rdata := 0
  faults := []
  trace := []
  agenda := []
  portIn := []
  freeCount := 0

/-- The machine right after reset, under the reference configuration (log 4). -/
def State.reset : State := State.resetWith Config.reference

end Sys2Proof.Machine
end

