-- ==== Sys2Proof/Machine/Ops.lean ====
section
/-! DEFINITION. The named operations over the frame buffer, the ports, the channels and the engine, and the one operation
that takes a rejection (the block's only exception; it has no return, 60_exceptions.md R240, R252). -/

namespace Sys2Proof.Machine

open Sys2Proof

/-! ### The frame buffer -/

/-- The byte at index `a`; an index nothing has written reads as `Config.bufResetByte` (log 1). -/
def Memory.read : Memory → Nat → Byte
  | [], _ => Config.bufResetByte
  | c :: rest, a => if c.1 = a then c.2 else Memory.read rest a

/-- The cell (a, b) before `rest`, left out when it equals what an unlisted index reads as. -/
def Memory.cons (a : Nat) (b : Byte) (rest : Memory) : Memory :=
  if b = Config.bufResetByte then rest else (a, b) :: rest

/-- The buffer with byte `b` at index `a`, in canonical form. -/
def Memory.write : Memory → Nat → Byte → Memory
  | [], a, b => Memory.cons a b []
  | c :: rest, a, b =>
    if a < c.1 then Memory.cons a b (c :: rest)
    else if a = c.1 then Memory.cons a b rest
    else c :: Memory.write rest a b

/-! ### The port (00_scope.md R15, R20; 20_memory.md R83 to R85) -/

/-- What the next PortRead returns: the next input, or a free value when none is listed (R85; log 7). -/
def portValue (s : State) : Byte :=
  match s.portIn with
  | b :: _ => b
  | [] => Config.portDraw s.freeCount

/-- The state after a PortRead: the input is used, or the free value is. -/
def portNext (s : State) : State :=
  match s.portIn with
  | _ :: rest => { s with portIn := rest }
  | [] => { s with freeCount := s.freeCount + 1 }

/-- `LineWrite(L, v)` by an agent: one atomic read-modify-write of the port register (R20, R83). -/
def lineWrite (who : Agent) (l : LineDesc) (v : Bool) (s : State) : State :=
  let b := portValue s
  let s' := portNext s
  { s' with trace := ⟨who, l, .write, v, b, some (lineStore l b v)⟩ :: s'.trace }

/-- The level `LineRead(L)` returns (R20, R84). -/
def lineReadValue (l : LineDesc) (s : State) : Bool := lineLevel l (portValue s)

/-- The state after `LineRead(L)` by an agent (R20, R84). -/
def lineReadNext (who : Agent) (l : LineDesc) (s : State) : State :=
  let b := portValue s
  let s' := portNext s
  { s' with trace := ⟨who, l, .read, lineLevel l b, b, none⟩ :: s'.trace }

/-! ### Taking a rejection (00_scope.md R16, 60_exceptions.md R240) -/

/-- A rejection: the bank addressed and its code (R241, R242). -/
inductive Rejection where
  | i2c (code : I2cErr)
  | pwm (k : Nat) (code : PwmErr)
deriving DecidableEq, Repr

/-- `raise Reject(code)`: the ERR field of the bank addressed takes the code; nothing else changes (R16, R240). -/
def raiseReject (r : Rejection) (s : State) : State :=
  match r with
  | .i2c e => { s with i2c := { s.i2c with err := e } }
  | .pwm k e => { s with chans := s.chans.modify k fun c => { c with err := e } }

/-! ### Host accesses -/

/-- A host read returns `v` (R14, R78). -/
def answer (v : Word) (s : State) : State := { s with rdata := v }

/-- A fault is signalled to the host: it is recorded, and nothing else changes (R73, R75, R248; log 10). -/
def signalFault (f : Fault) (s : State) : State := { s with faults := f :: s.faults }

/-- The outcome of an access to a register of channel `k`: `f` of the channel, or BadAccess signalled where the register
does not exist (R72, R73). -/
def onChannel (k : Nat) (r : Reg) (s : State) (f : Channel → State) :
    Host.Outcome State Fault Refusal :=
  match s.chans[k]? with
  | some c => .next (f c)
  | none => .next (signalFault (.badAccess (regAddr s.cfg r)) s)

/-- Channel `k` replaced. -/
def setChannel (k : Nat) (c : Channel) (s : State) : State := { s with chans := s.chans.set k c }

/-- The outcome of an access to entry `i` of the frame buffer, or BadAccess signalled where there is
none (R72, R73). -/
def onEntry (i : Nat) (s : State) (t : State) : Host.Outcome State Fault Refusal :=
  if i < Config.frameMax then .next t else .next (signalFault (.badAccess (regAddr s.cfg (.i2cBuf i))) s)

/-! ### Presenting an I2C command (10_state.md R36, 60_exceptions.md R243) -/

/-- The acceptance step of R36: CUR, BUSY, ERR and POS. -/
def acceptI2c (w : Word) (st : Stage) (s : State) : State :=
  { s with i2c := { s.i2c with cur := w, busy := true, err := .ok, pos := ⟨st, []⟩ } }

/-- The acceptance step of a frame: R36 with RESULT <- 0 and XCNT <- 0 (R172, R175). -/
def acceptFrame (w : Word) (s : State) : State :=
  let t := acceptI2c w .frameStart s
  { t with i2c := { t.i2c with result := false, xcnt := 0 } }

/-- The checks of a write to I2C_CMD of a word that is not reserved: busy (2), then length (3), then acceptance (R243). -/
def presentI2c (lenOk : Bool) (s accepted : State) : State :=
  if s.i2c.busy then raiseReject (.i2c .busy) s
  else if !lenOk then raiseReject (.i2c .badLength) s
  else accepted

/-- A reserved word written to I2C_CMD: busy (2), then reserved (1) (R111, R243). -/
def rejectReservedI2c (s : State) : State :=
  if s.i2c.busy then raiseReject (.i2c .busy) s else raiseReject (.i2c .reserved) s

/-- A reserved word written to PWM_CMD[k] (R111, R243). -/
def rejectReservedPwm (k : Nat) (s : State) : State := raiseReject (.pwm k .reserved) s

/-! ### Line ownership (44_pwm_worker.md R218) -/

/-- Some channel other than `k` is Running or Paused and drives the physical line of `l`; `j` numbers the list. -/
def drivenByOther (k : Nat) (l : LineDesc) : Nat → List Channel → Bool
  | _, [] => false
  | j, c :: rest => (decide (j ≠ k) && c.active && c.sLine.samePhysical l) || drivenByOther k l (j + 1) rest

/-- `owned_elsewhere(k, L)` (R218). -/
def ownedElsewhere (k : Nat) (l : LineDesc) (s : State) : Bool :=
  drivenByOther k l 0 s.chans || l.samePhysical s.cfg.sda || l.samePhysical s.cfg.scl

end Sys2Proof.Machine
end

