-- ==== Sys2Proof/Machine/Flags.lean ====
section
/-! DEFINITION. The status words: every flag and field at its bits (10_state.md R33, R38; codes 60_exceptions.md R241,
R242). The block has no condition codes (R43). -/

namespace Sys2Proof.Machine

open Sys2Proof

/-- The codes of R241. -/
def i2cErrCode : I2cErr → BitVec 3
  | .ok => 0
  | .reserved => 1
  | .busy => 2
  | .badLength => 3
  | .bufBusy => 4

/-- The codes of R242. -/
def pwmErrCode : PwmErr → BitVec 3
  | .ok => 0
  | .reserved => 1
  | .duty => 2
  | .line => 3
  | .period => 4
  | .state => 5
  | .notConstructed => 6
  | .owned => 7

/-- The values of STATE (R38). -/
def stateCode : WorkerState → BitVec 2
  | .idle => 0
  | .running => 1
  | .paused => 2
  | .stopped => 3

/-- `I2C_STATUS`: BUSY 0, ACK 1, RESULT 2, ERR 10:8, XCNT 24:16, every other bit 0 (R33). -/
def i2cStatus (e : I2c) : Word :=
  bitAt 0 e.busy ||| bitAt 1 e.ack ||| bitAt 2 e.result ||| (i2cErrCode e.err).setWidth 32 <<< 8
    ||| e.xcnt.setWidth 32 <<< 16

/-- `I2C_RXDATA`: RXBYTE 7:0, every other bit 0 (R34). -/
def i2cRxdata (e : I2c) : Word := e.rxbyte.setWidth 32

/-- `PWM_STATUS`: STATE 1:0, STOP_PEND 2, CFG_VALID 3, OUT 4, the views RUNNING 5 and PAUSED 6, ERR 10:8, every other
bit 0 (R38). -/
def pwmStatus (c : Channel) : Word :=
  (stateCode c.state).setWidth 32 ||| bitAt 2 c.stopPend ||| bitAt 3 c.cfgValid ||| bitAt 4 c.out
    ||| bitAt 5 (c.state == .running) ||| bitAt 6 (c.state == .paused) ||| (pwmErrCode c.err).setWidth 32 <<< 8

/-- `PWM_DUTY`: DUTY 15:0 (R37). -/
def pwmDuty (c : Channel) : Word := c.duty.setWidth 32

/-- `PWM_LINE`: the encoded descriptor 11:0 (R37, R106). -/
def pwmLine (c : Channel) : Word := (lineToBits c.line).setWidth 32

end Sys2Proof.Machine
end

