-- ==== Sys2Proof/Machine/I2cAccess.lean ====
section
/-! DEFINITION. The host accesses to the I2C result registers and the frame buffer (42_i2c_frames.md R178 to R181). -/

namespace Sys2Proof.Machine

open Sys2Proof

/-- `RD.I2C_STATUS` (R178). -/
def execRdI2cStatus (s : State) : Host.Outcome State Fault Refusal := .next (answer (i2cStatus s.i2c) s)

/-- `RD.I2C_RXDATA` (R179). -/
def execRdI2cRxdata (s : State) : Host.Outcome State Fault Refusal := .next (answer (i2cRxdata s.i2c) s)

/-- `RD.I2C_BUF` (R180): while BUSY = 1 the read returns 0 and is rejected with code 4 (R79; log 11). -/
def execRdI2cBuf (i : Nat) (s : State) : Host.Outcome State Fault Refusal :=
  onEntry i s
    (if s.i2c.busy then answer 0 (raiseReject (.i2c .bufBusy) s)
     else answer ((Memory.read s.buf i).setWidth 32) s)

/-- `WR.I2C_BUF` (R181): bits [7:0] are stored; while BUSY = 1 the write is rejected with code 4 (R79). -/
def execWrI2cBuf (i : Nat) (v : Word) (s : State) : Host.Outcome State Fault Refusal :=
  onEntry i s
    (if s.i2c.busy then raiseReject (.i2c .bufBusy) s
     else { s with buf := Memory.write s.buf i (v.setWidth 8) })

end Sys2Proof.Machine
end

