-- ==== Sys2Proof/Machine/I2cCommand.lean ====
section
/-! DEFINITION. The meanings of the seven I2C commands as host steps: the checks of 60_exceptions.md R243 and the
acceptance step of 10_state.md R36. The line actions of an accepted command are the engine's (Machine/Engine.lean). -/

namespace Sys2Proof.Machine

open Sys2Proof

/-- `START` presented (40_i2c_conditions.md R130). -/
def execStart (s : State) : Host.Outcome State Fault Refusal :=
  .next (presentI2c true s (acceptI2c (instrWord .start) .start s))

/-- `RSTART` presented (R131). -/
def execRstart (s : State) : Host.Outcome State Fault Refusal :=
  .next (presentI2c true s (acceptI2c (instrWord .rstart) .rstart s))

/-- `STOP` presented (R132). -/
def execStop (s : State) : Host.Outcome State Fault Refusal :=
  .next (presentI2c true s (acceptI2c (instrWord .stop) .stop s))

/-- `WRBYTE` presented (41_i2c_bytes.md R150). -/
def execWrbyte (b : BitVec 8) (s : State) : Host.Outcome State Fault Refusal :=
  .next (presentI2c true s (acceptI2c (instrWord (.wrbyte b)) (.sendByte false) s))

/-- `RDBYTE` presented (R152). -/
def execRdbyte (a : Bool) (s : State) : Host.Outcome State Fault Refusal :=
  .next (presentI2c true s (acceptI2c (instrWord (.rdbyte a)) (.recvByte 0) s))

/-- `WRFRAME` presented (42_i2c_frames.md R172, R174). -/
def execWrframe (len : BitVec 9) (addr : BitVec 7) (hold : Bool) (s : State) :
    Host.Outcome State Fault Refusal :=
  .next (presentI2c (writeLenOk len) s (acceptFrame (instrWord (.wrframe len addr hold)) s))

/-- `RDFRAME` presented (R175, R174). -/
def execRdframe (len : BitVec 9) (addr : BitVec 7) (hold : Bool) (s : State) :
    Host.Outcome State Fault Refusal :=
  .next (presentI2c (readLenOk len) s (acceptFrame (instrWord (.rdframe len addr hold)) s))

end Sys2Proof.Machine
end

