-- ==== Sys2Proof/Machine/PwmConfig.lean ====
section
/-! DEFINITION. The configuration of a PWM channel: INIT, SETDUTY, SETLINE and the accesses to its registers
(43_pwm_channel.md). The order of the checks is 60_exceptions.md R243; a reserved word is the decoder's. -/

namespace Sys2Proof.Machine

open Sys2Proof

/-- `PWM.INIT` (R190): line (3), duty (2), period (4). -/
def execPwmInit (k : Nat) (d : BitVec 16) (l : LineDesc) (s : State) : Host.Outcome State Fault Refusal :=
  onChannel k (.pwmCmd k) s fun c =>
    if !s.cfg.supportsOutput l then raiseReject (.pwm k .line) s
    else if !dutyInRange d then raiseReject (.pwm k .duty) s
    else if c.periodArg = 0 then raiseReject (.pwm k .period) s
    else setChannel k { c with line := l, duty := d, period := c.periodArg, cfgValid := true, err := .ok } s

/-- `PWM.SETDUTY` (R193): construction (6), duty (2). -/
def execPwmSetduty (k : Nat) (d : BitVec 16) (s : State) : Host.Outcome State Fault Refusal :=
  onChannel k (.pwmCmd k) s fun c =>
    if !c.cfgValid then raiseReject (.pwm k .notConstructed) s
    else if !dutyInRange d then raiseReject (.pwm k .duty) s
    else setChannel k { c with duty := d, err := .ok } s

/-- `PWM.SETLINE` (R195): construction (6), line (3). -/
def execPwmSetline (k : Nat) (l : LineDesc) (s : State) : Host.Outcome State Fault Refusal :=
  onChannel k (.pwmCmd k) s fun c =>
    if !c.cfgValid then raiseReject (.pwm k .notConstructed) s
    else if !s.cfg.supportsOutput l then raiseReject (.pwm k .line) s
    else setChannel k { c with line := l, err := .ok } s

/-- `RD.PWM_DUTY` (R197). -/
def execRdPwmDuty (k : Nat) (s : State) : Host.Outcome State Fault Refusal :=
  onChannel k (.pwmDuty k) s fun c => answer (pwmDuty c) s

/-- `RD.PWM_PERIOD` (R198). -/
def execRdPwmPeriod (k : Nat) (s : State) : Host.Outcome State Fault Refusal :=
  onChannel k (.pwmPeriod k) s fun c => answer c.period s

/-- `RD.PWM_LINE` (R199). -/
def execRdPwmLine (k : Nat) (s : State) : Host.Outcome State Fault Refusal :=
  onChannel k (.pwmLine k) s fun c => answer (pwmLine c) s

/-- `RD.PWM_PERIOD_ARG` (R196). -/
def execRdPwmPeriodArg (k : Nat) (s : State) : Host.Outcome State Fault Refusal :=
  onChannel k (.pwmPeriodArg k) s fun c => answer c.periodArg s

/-- `WR.PWM_PERIOD_ARG` (R196): any value, in every worker state, setting no ERR. -/
def execWrPwmPeriodArg (k : Nat) (v : Word) (s : State) : Host.Outcome State Fault Refusal :=
  onChannel k (.pwmPeriodArg k) s fun c => setChannel k { c with periodArg := v } s

end Sys2Proof.Machine
end

