-- ==== Sys2Proof/Machine/PwmWorker.lean ====
section
/-! DEFINITION. The PWM worker: START, PAUSE, RESUME, STOP, the status read, and the worker's tick step
(44_pwm_worker.md). -/

namespace Sys2Proof.Machine

open Sys2Proof

/-- `PWM.START` (R210): construction (6), state (5), ownership (7); then the snapshot of R211. -/
def execPwmStart (k : Nat) (s : State) : Host.Outcome State Fault Refusal :=
  onChannel k (.pwmCmd k) s fun c =>
    if !c.cfgValid then raiseReject (.pwm k .notConstructed) s
    else if c.active then raiseReject (.pwm k .state) s
    else if ownedElsewhere k c.line s then raiseReject (.pwm k .owned) s
    else setChannel k
      { c with sLine := c.line, sP := c.period, sOn := onTicks c.period c.duty, cnt := 0,
               state := .running, err := .ok } s

/-- `PWM.PAUSE` (R212): only from Running with no stop pending, else state (5). -/
def execPwmPause (k : Nat) (s : State) : Host.Outcome State Fault Refusal :=
  onChannel k (.pwmCmd k) s fun c =>
    if c.state ≠ .running ∨ c.stopPend then raiseReject (.pwm k .state) s
    else setChannel k { c with state := .paused, err := .ok } s

/-- `PWM.RESUME` (R213): only from Paused with no stop pending, else state (5). -/
def execPwmResume (k : Nat) (s : State) : Host.Outcome State Fault Refusal :=
  onChannel k (.pwmCmd k) s fun c =>
    if c.state ≠ .paused ∨ c.stopPend then raiseReject (.pwm k .state) s
    else setChannel k { c with state := .running, err := .ok } s

/-- `PWM.STOP` (R214): only from Running or Paused with no stop pending, else state (5). -/
def execPwmStop (k : Nat) (s : State) : Host.Outcome State Fault Refusal :=
  onChannel k (.pwmCmd k) s fun c =>
    if !c.active ∨ c.stopPend then raiseReject (.pwm k .state) s
    else setChannel k { c with stopPend := true, err := .ok } s

/-- `RD.PWM_STATUS` (R215). -/
def execRdPwmStatus (k : Nat) (s : State) : Host.Outcome State Fault Refusal :=
  onChannel k (.pwmStatus k) s fun c => answer (pwmStatus c) s

/-! ### The tick step (R220) -/

/-- CNT <- (CNT + 1) mod S_P (R220). -/
def nextCnt (c : Channel) : Word := BitVec.ofNat 32 ((c.cnt.toNat + 1) % c.sP.toNat)

/-- `stop_now(k)` (R220). -/
def stopNow (k : Nat) (c : Channel) (s : State) : State :=
  lineWrite (.worker k) c.sLine false
    (setChannel k { c with out := false, state := .stopped, stopPend := false, cnt := 0 } s)

/-- A phase begins: LineWrite(S_LINE, v), OUT <- v, and the counter advances (R220). -/
def beginPhase (k : Nat) (c : Channel) (v : Bool) (s : State) : State :=
  lineWrite (.worker k) c.sLine v (setChannel k { c with out := v, cnt := nextCnt c } s)

/-- A tick inside a phase: the counter advances (R220). -/
def countTick (k : Nat) (c : Channel) (s : State) : State := setChannel k { c with cnt := nextCnt c } s

/-- `tick(k)` for a channel whose registers are `c` (R220). -/
def tickChannel (k : Nat) (c : Channel) (s : State) : State :=
  if !c.active then s
  else if c.cnt = 0 then
    if c.stopPend then stopNow k c s
    else if c.state = .paused then s
    else beginPhase k c (decide (0 < c.sOn.toNat)) s
  else if c.cnt = c.sOn then
    if c.stopPend then stopNow k c s else beginPhase k c false s
  else countTick k c s

/-- `tick(k)` (R220): the tick step of channel k. -/
def tickStep (k : Nat) (s : State) : State :=
  match s.chans[k]? with
  | some c => tickChannel k c s
  | none => s

/-- The time base ticks (R219): every channel's tick step becomes due. It does not tick while a step of the present
tick is still to come (R221; log 12). -/
def timeTick (s : State) : State :=
  match s.due with
  | [] => { s with tickNo := s.tickNo + 1, due := List.range s.cfg.nPwm }
  | _ :: _ => s

/-- The worker of channel k takes its tick step of the present tick, once (R221). -/
def workerStep (k : Nat) (s : State) : State :=
  if s.due.contains k then tickStep k { s with due := s.due.erase k } else s

end Sys2Proof.Machine
end

