-- ==== Sys2Proof/Machine/Dispatch.lean ====
section
/-! DEFINITION. The instruction dispatch: one arm per row of spec/opcode_table.json. -/

namespace Sys2Proof.Machine

open Sys2Proof

def exec (i : Instr) (s : State) : Host.Outcome State Fault Refusal :=
  match i with
  | .start => Sys2Proof.Machine.execStart s
  | .rstart => Sys2Proof.Machine.execRstart s
  | .stop => Sys2Proof.Machine.execStop s
  | .wrbyte b => Sys2Proof.Machine.execWrbyte b s
  | .rdbyte a => Sys2Proof.Machine.execRdbyte a s
  | .wrframe len addr hold => Sys2Proof.Machine.execWrframe len addr hold s
  | .rdframe len addr hold => Sys2Proof.Machine.execRdframe len addr hold s
  | .pwmInit k d l => Sys2Proof.Machine.execPwmInit k d l s
  | .pwmSetduty k d => Sys2Proof.Machine.execPwmSetduty k d s
  | .pwmSetline k l => Sys2Proof.Machine.execPwmSetline k l s
  | .pwmStart k => Sys2Proof.Machine.execPwmStart k s
  | .pwmPause k => Sys2Proof.Machine.execPwmPause k s
  | .pwmResume k => Sys2Proof.Machine.execPwmResume k s
  | .pwmStop k => Sys2Proof.Machine.execPwmStop k s
  | .rdI2cStatus => Sys2Proof.Machine.execRdI2cStatus s
  | .rdI2cRxdata => Sys2Proof.Machine.execRdI2cRxdata s
  | .rdI2cBuf j => Sys2Proof.Machine.execRdI2cBuf j s
  | .wrI2cBuf j v => Sys2Proof.Machine.execWrI2cBuf j v s
  | .rdPwmStatus k => Sys2Proof.Machine.execRdPwmStatus k s
  | .rdPwmDuty k => Sys2Proof.Machine.execRdPwmDuty k s
  | .rdPwmPeriod k => Sys2Proof.Machine.execRdPwmPeriod k s
  | .rdPwmLine k => Sys2Proof.Machine.execRdPwmLine k s
  | .rdPwmPeriodArg k => Sys2Proof.Machine.execRdPwmPeriodArg k s
  | .wrPwmPeriodArg k v => Sys2Proof.Machine.execWrPwmPeriodArg k v s

end Sys2Proof.Machine
end

