-- ==== Sys2Proof/Machine/Engine.lean ====
section
/-! DEFINITION. The I2C engine: the line sequences of 40_i2c_conditions.md and 41_i2c_bytes.md, the frames of
42_i2c_frames.md, and the engine's atomic step, one line action (00_scope.md R17, 10_state.md R31, R36). -/

namespace Sys2Proof.Machine

open Sys2Proof

/-! ### The procedures' line actions -/

/-- `start_seq`: W(SDA,0) W(SCL,0) (R130). -/
def startSeq : List BusAction := [.drive .sda false, .drive .scl false]

/-- `rstart_seq`: W(SCL,1), then start_seq (R131). -/
def rstartSeq : List BusAction := .drive .scl true :: startSeq

/-- `stop_seq`: W(SDA,0) W(SCL,1) W(SDA,1) (R132). -/
def stopSeq : List BusAction := [.drive .sda false, .drive .scl true, .drive .sda true]

/-- The bits of a byte, i = 7 down to 0 (R77). -/
def msbFirst (v : Byte) : List Bool := [7, 6, 5, 4, 3, 2, 1, 0].map fun i => v.getLsbD i

/-- writeByte's three actions for one data bit: W(SDA,b) W(SCL,1) W(SCL,0) (R150). -/
def sendBitSeq (b : Bool) : List BusAction := [.drive .sda b, .drive .scl true, .drive .scl false]

/-- `writeByte(v)`: 30 line actions (R150). -/
def writeByteSeq (v : Byte) : List BusAction :=
  .drive .sda true :: (msbFirst v).flatMap sendBitSeq
    ++ [.drive .sda true, .drive .scl true, .sample, .drive .scl false, .drive .sda true]

/-- readByte's three actions for one data bit: W(SCL,1) R(SDA) W(SCL,0) (R152). -/
def recvBitSeq : List BusAction := [.drive .scl true, .sample, .drive .scl false]

/-- `readByte(sendAck)`: 29 line actions; the acknowledge write is W(SDA,0) for an acknowledge (R152). -/
def readByteSeq (sendAck : Bool) : List BusAction :=
  .drive .sda true :: (List.replicate 8 recvBitSeq).flatten
    ++ [.drive .sda (!sendAck), .drive .scl true, .drive .scl false, .drive .sda true]

/-! ### The command in force -/

/-- The command in CUR is RDFRAME (R102). -/
def curIsRead (s : State) : Bool := fieldOp s.i2c.cur == 0x7

/-- LEN of the frame in CUR (R110). -/
def curLen (s : State) : Nat := (fieldLen s.i2c.cur).toNat

/-- The line actions of the procedure of a stage, its operands read from CUR and I2C_BUF (R130 to R175). -/
def stageActions (s : State) : Stage → List BusAction
  | .start => startSeq
  | .rstart => rstartSeq
  | .stop => stopSeq
  | .sendByte _ => writeByteSeq (fieldByte s.i2c.cur)
  | .recvByte _ => readByteSeq (fieldAck s.i2c.cur)
  | .frameStart => startSeq
  | .frameAddr _ => writeByteSeq (addrByte (fieldAddr s.i2c.cur) (curIsRead s))
  | .frameSend j _ => writeByteSeq (Memory.read s.buf j)
  | .frameRecv j _ => readByteSeq (decide (j + 1 < curLen s))
  | .frameEnd => if fieldHold s.i2c.cur then rstartSeq else stopSeq
  | .frameAbort => stopSeq

/-- The line actions still to come of the procedure in force: `todo`, or the whole procedure at its start. -/
def pendingActions (s : State) : List BusAction :=
  match s.i2c.pos.todo with
  | [] => stageActions s s.i2c.pos.stage
  | a :: rest => a :: rest

/-- A sample taken: writeByte's `r`, or one shift of readByte's `x` (R150, R152). -/
def stageSample (b : Bool) : Stage → Stage
  | .start => .start
  | .rstart => .rstart
  | .stop => .stop
  | .sendByte _ => .sendByte b
  | .recvByte x => .recvByte (shiftIn x b)
  | .frameStart => .frameStart
  | .frameAddr _ => .frameAddr b
  | .frameSend j _ => .frameSend j b
  | .frameRecv j x => .frameRecv j (shiftIn x b)
  | .frameEnd => .frameEnd
  | .frameAbort => .frameAbort

/-- The line of a wire (R22). -/
def wireLine (c : Config) : Wire → LineDesc
  | .sda => c.sda
  | .scl => c.scl

/-- One line action of the engine (R81, R82). -/
def performAction (a : BusAction) (s : State) : State :=
  match a with
  | .drive w v => lineWrite .engine (wireLine s.cfg w) v s
  | .sample =>
    let b := lineReadValue s.cfg.sda s
    let t := lineReadNext .engine s.cfg.sda s
    { t with i2c := { t.i2c with pos := { t.i2c.pos with stage := stageSample b t.i2c.pos.stage } } }

/-- The pseudocode goes on with the procedure of stage `st`. -/
def enterStage (st : Stage) (s : State) : State := { s with i2c := { s.i2c with pos := ⟨st, []⟩ } }

/-- The command ends: BUSY <- 0 (R36). -/
def endCommand (s : State) : State := { s with i2c := { s.i2c with busy := false } }

/-- writeByte's result: ACK <- (r = 0) (R150). -/
def setAck (r : Bool) (s : State) : State := { s with i2c := { s.i2c with ack := !r } }

/-- readByte's result: I2C_RXDATA[7:0] <- x (R152). -/
def setRxbyte (x : Byte) (s : State) : State := { s with i2c := { s.i2c with rxbyte := x } }

/-- XCNT <- n (R172, R175). -/
def setXcnt (n : Nat) (s : State) : State := { s with i2c := { s.i2c with xcnt := BitVec.ofNat 9 n } }

/-- I2C_BUF[j] <- b (R175). -/
def setEntry (j : Nat) (b : Byte) (s : State) : State := { s with buf := Memory.write s.buf j b }

/-- The stage of data byte j of the frame in CUR, or end_frame when j = LEN (R172, R175). -/
def byteStage (s : State) (j : Nat) : Stage :=
  if j < curLen s then if curIsRead s then .frameRecv j 0 else .frameSend j false else .frameEnd

/-- What the step of a procedure's last line action also does: the status updates the pseudocode puts after it, and
which procedure comes next (R130 to R132, R150, R152, R170 to R175). -/
def finishStage (s : State) : State :=
  match s.i2c.pos.stage with
  | .start => endCommand s
  | .rstart => endCommand s
  | .stop => endCommand s
  | .sendByte r => endCommand (setAck r s)
  | .recvByte x => endCommand (setRxbyte x s)
  | .frameStart => enterStage (.frameAddr false) s
  | .frameAddr r => enterStage (if r then .frameAbort else byteStage s 0) (setAck r s)
  | .frameSend j r =>
    if r then enterStage .frameAbort (setAck r s)
    else enterStage (byteStage s (j + 1)) (setXcnt (j + 1) (setAck r s))
  | .frameRecv j x => enterStage (byteStage s (j + 1)) (setXcnt (j + 1) (setEntry j x (setRxbyte x s)))
  | .frameEnd => endCommand { s with i2c := { s.i2c with result := true } }
  | .frameAbort => endCommand s

/-- The line actions still to come of the procedure in force. -/
def setTodo (l : List BusAction) (s : State) : State :=
  { s with i2c := { s.i2c with pos := { s.i2c.pos with todo := l } } }

/-- The engine's step (R17, R31, R36): one line action, with what follows it up to the next; an idle engine takes no
step (R257). -/
def engineStep (s : State) : State :=
  if s.i2c.busy then
    match pendingActions s with
    | [] => s
    | [a] => finishStage (setTodo [] (performAction a s))
    | a :: b :: rest => setTodo (b :: rest) (performAction a s)
  else s

end Sys2Proof.Machine
end

