-- ==== Sys2Proof/Machine/Agents.lean ====
section
/-! DEFINITION. The agents of the block and their interleaving (20_memory.md R87, 60_exceptions.md R257): the host's
access, the engine's step, the time base and the workers, and the reset input. -/

namespace Sys2Proof.Machine

open Sys2Proof

/-- One host access (R14, R117): an instruction runs; a reserved command word is rejected (R111); a write to a read-only
register is ignored and a read of a command register returns 0 (R78); an access the block refuses records BadAccess and
has no other effect (R73, R75, R248); an access outside the window is not the block's (R70; log 10). -/
def hostAccess (a : HostAccess) (s : State) : Host.Outcome State Fault Refusal :=
  match decode s.cfg a with
  | .instr i => exec i s
  | .reservedI2c => .next (rejectReservedI2c s)
  | .reservedPwm k => .next (rejectReservedPwm k s)
  | .readOnlyWrite => .next s
  | .commandRead => .next (answer 0 s)
  | .badAccess addr => .next (signalFault (.badAccess addr) s)
  | .outsideWindow addr => .fault (.outsideWindow addr)

/-- The reset input asserted and released (70_reset_and_hazards.md R270 to R272): the block's state takes its reset
values with no line action. What lies outside the block stays: the configuration, the inputs to come, the line actions
performed, the faults signalled and the value the host last read (log 14). -/
def resetBlock (s : State) : State :=
  { State.resetWith s.cfg with
    rdata := s.rdata, faults := s.faults, trace := s.trace, agenda := s.agenda, portIn := s.portIn, freeCount := s.freeCount }

/-- The step of one agent. An agent that has no step to take (an idle engine, a worker that is not due, a time base that
waits) leaves the state as it is (log 13). -/
def runEvent (e : Event) (s : State) : Host.Outcome State Fault Refusal :=
  match e with
  | .host a => hostAccess a s
  | .engine => .next (engineStep s)
  | .tick => .next (timeTick s)
  | .worker k => .next (workerStep k s)
  | .reset => .next (resetBlock s)

/-- Which agent moves next: the first entry of the agenda, or a free value when none is listed (R87, U11; log 6). -/
def nextEvent (s : State) : Event :=
  match s.agenda with
  | e :: _ => e
  | [] => Config.freeEvent s.freeCount

/-- The state once that choice is taken from the agenda, or from the free values. -/
def takeEvent (s : State) : State :=
  match s.agenda with
  | _ :: rest => { s with agenda := rest }
  | [] => { s with freeCount := s.freeCount + 1 }

/-- One step of the machine: the next agent moves; a configuration outside the model is refused (R22; log 19). -/
def machineStep (s : State) : Host.Outcome State Fault Refusal :=
  if s.cfg.wf then runEvent (nextEvent s) (takeEvent s) else .refused .badConfiguration

end Sys2Proof.Machine
end

