-- ==== Sys2Proof/Machine/Step.lean ====
section
/-! DEFINITION. The step of the machine, and how an instruction is placed where the step takes its next one. -/

namespace Sys2Proof.Machine

open Sys2Proof

/-- One atomic step of one agent (20_memory.md R87). -/
def step (s : State) : Host.Outcome State Fault Refusal := machineStep s

/-- The block fetches nothing (00_scope.md R3): its next instruction is the host access at the head of the agenda. The
access a word of the opcode table stands for (log 15, log 16) is put there. -/
def State.withFetchWord (s : State) (nbits w : Nat) : State :=
  { s with agenda := .host (tableAccess s.cfg nbits w) :: s.agenda }

end Sys2Proof.Machine
end

