-- ==== Sys2Proof/Safety.lean ====
section
/-! DEFINITION. The terms claims about the machine are stated in: runs of one agent, the shape of a trace, and the
invariants of the block. -/

namespace Sys2Proof.Machine

open Sys2Proof

/-! ### Runs of one agent -/

/-- `n` consecutive steps of the I2C engine. -/
def engineRun : Nat → State → State
  | 0, s => s
  | n + 1, s => engineRun n (engineStep s)

/-- `n` consecutive tick steps of channel k's worker. -/
def tickRun (k : Nat) : Nat → State → State
  | 0, s => s
  | n + 1, s => tickRun k n (tickStep k s)

/-! ### Traces -/

/-- A line action without its port bytes: who performed it, on which line, written or read, at which logical level. -/
structure Shape where
  agent : Agent
  line : LineDesc
  dir : Dir
  level : Bool
deriving DecidableEq, Repr

/-- The shape of a line action. -/
def LineAction.shape (a : LineAction) : Shape := ⟨a.agent, a.line, a.dir, a.level⟩

/-- The shapes of the actions performed so far, oldest first. -/
def shapes (s : State) : List Shape := (s.trace.map LineAction.shape).reverse

/-- `W(wire, v)` by the engine (R24). -/
def wShape (c : Config) (w : Wire) (v : Bool) : Shape := ⟨.engine, wireLine c w, .write, v⟩

/-- `R(SDA)=v` by the engine (R24). -/
def rShape (c : Config) (v : Bool) : Shape := ⟨.engine, c.sda, .read, v⟩

/-- The trace of start_seq (R130). -/
def startTrace (c : Config) : List Shape := [wShape c .sda false, wShape c .scl false]

/-- The trace of rstart_seq (R131). -/
def rstartTrace (c : Config) : List Shape :=
  [wShape c .scl true, wShape c .sda false, wShape c .scl false]

/-- The trace of stop_seq (R132). -/
def stopTrace (c : Config) : List Shape := [wShape c .sda false, wShape c .scl true, wShape c .sda true]

/-- The trace of writeByte(v) with the sample r (R150): the eight data bits written out, bit 7 first. -/
def writeByteTrace (c : Config) (v : Byte) (r : Bool) : List Shape :=
  let bit (b : Bool) := [wShape c .sda b, wShape c .scl true, wShape c .scl false]
  [wShape c .sda true] ++ bit (v.getLsbD 7) ++ bit (v.getLsbD 6) ++ bit (v.getLsbD 5) ++ bit (v.getLsbD 4)
    ++ bit (v.getLsbD 3) ++ bit (v.getLsbD 2) ++ bit (v.getLsbD 1) ++ bit (v.getLsbD 0)
    ++ [wShape c .sda true, wShape c .scl true, rShape c r, wShape c .scl false, wShape c .sda true]

/-- The trace of readByte(sendAck) whose samples are the bits of x, bit 7 first (R152). -/
def readByteTrace (c : Config) (x : Byte) (sendAck : Bool) : List Shape :=
  let bit (b : Bool) := [wShape c .scl true, rShape c b, wShape c .scl false]
  [wShape c .sda true] ++ bit (x.getLsbD 7) ++ bit (x.getLsbD 6) ++ bit (x.getLsbD 5) ++ bit (x.getLsbD 4)
    ++ bit (x.getLsbD 3) ++ bit (x.getLsbD 2) ++ bit (x.getLsbD 1) ++ bit (x.getLsbD 0)
    ++ [wShape c .sda (!sendAck), wShape c .scl true, wShape c .scl false, wShape c .sda true]

/-- The trace of end_frame(h) (R171). -/
def endTrace (c : Config) (hold : Bool) : List Shape := if hold then rstartTrace c else stopTrace c

/-- The traces of writeByte for bytes that are all acknowledged (R172). -/
def ackedBytesTrace (c : Config) (bytes : List Byte) : List Shape := bytes.flatMap fun v => writeByteTrace c v false

/-- The traces of RDFRAME's readBytes: every byte acknowledged but the last (R175, R176). -/
def readBytesTrace (c : Config) : List Byte → List Shape
  | [] => []
  | [x] => readByteTrace c x false
  | x :: y :: rest => readByteTrace c x true ++ readBytesTrace c (y :: rest)

/-- The bytes a WRFRAME of LEN bytes sends: the address byte and I2C_BUF[0] to I2C_BUF[LEN-1] (R172). -/
def writeFrameBytes (s : State) (len : BitVec 9) (addr : BitVec 7) : List Byte :=
  addrByte addr false :: (List.range len.toNat).map (Memory.read s.buf)

/-- The level an agent last wrote to a line, from a trace held newest first. -/
def lastWritten (who : Agent) (l : LineDesc) : List LineAction → Option Bool
  | [] => none
  | a :: rest => if a.agent = who ∧ a.line = l ∧ a.dir = .write then some a.level else lastWritten who l rest

/-- The engine's steps change the engine's state, the frame buffer, the trace and the inputs only: what they leave. -/
def sameOutsideEngine (s t : State) : Prop :=
  t.cfg = s.cfg ∧ t.chans = s.chans ∧ t.tickNo = s.tickNo ∧ t.due = s.due ∧ t.rdata = s.rdata ∧
    t.faults = s.faults ∧ t.agenda = s.agenda

/-! ### Reset -/

/-- The values R45 gives after reset: every field of I2C_STATUS and I2C_RXDATA 0; N_PWM channels, each with PWM_STATUS, DUTY,
LINE and CNT 0 and PERIOD and PWM_PERIOD_ARG at PERIOD_DEFAULT. (It leaves I2C_BUF, CUR, POS and the snapshots open.) -/
def resetValues (c : Config) (s : State) : Prop :=
  i2cStatus s.i2c = 0 ∧ i2cRxdata s.i2c = 0 ∧ s.chans.length = c.nPwm ∧
  ∀ k < c.nPwm, ∃ ch, s.chans[k]? = some ch ∧ pwmStatus ch = 0 ∧ ch.duty = 0 ∧ pwmLine ch = 0 ∧ ch.cnt = 0 ∧
    ch.period.toNat = max 1 (c.tickHz / 50) ∧ ch.periodArg.toNat = max 1 (c.tickHz / 50)

/-! ### Invariants -/

/-- The frame buffer is in canonical form and lists only entries that exist (R35). -/
def memoryInv (s : State) : Prop := Memory.wf s.buf = true ∧ ∀ c ∈ s.buf, c.1 < Config.frameMax

/-- R200 and R37 for one channel: DUTY in range, PERIOD at least 1, and a constructed channel's LINE output-capable. -/
def channelInv (c : Config) (ch : Channel) : Prop :=
  ch.duty.toNat ≤ 0x4000 ∧ 1 ≤ ch.period.toNat ∧ (ch.cfgValid = true → c.supportsOutput ch.line = true)

/-- R40, R41 and R217 for one channel: while a worker exists, 1 <= S_P, S_ON <= S_P, CNT < S_P and the line it drives is
output-capable; a stop is pending only while a worker exists; and inside an iteration OUT is the comparator's
output (R222). -/
def workerInv (c : Config) (ch : Channel) : Prop :=
  (ch.stopPend = true → ch.active = true) ∧
  (ch.active = true →
    1 ≤ ch.sP.toNat ∧ ch.sOn.toNat ≤ ch.sP.toNat ∧ ch.cnt.toNat < ch.sP.toNat ∧
    c.supportsOutput ch.sLine = true ∧
    (ch.cnt.toNat ≠ 0 → ch.out = decide (ch.cnt.toNat ≤ ch.sOn.toNat)))

/-- There are N_PWM channels, and each keeps R200 (R37). -/
def channelsInv (s : State) : Prop := s.chans.length = s.cfg.nPwm ∧ ∀ ch ∈ s.chans, channelInv s.cfg ch

/-- Every channel keeps R40, R41, R217 and the comparator's output. -/
def workersInv (s : State) : Prop := ∀ ch ∈ s.chans, workerInv s.cfg ch

/-- R218: no two workers drive one physical line, and none drives SDA or SCL. -/
def ownershipInv (s : State) : Prop :=
  (∀ (j k : Nat) (cj ck : Channel), s.chans[j]? = some cj → s.chans[k]? = some ck → j ≠ k →
    cj.active = true → ck.active = true → cj.sLine.samePhysical ck.sLine = false) ∧
  (∀ ch ∈ s.chans, ch.active = true →
    ch.sLine.samePhysical s.cfg.sda = false ∧ ch.sLine.samePhysical s.cfg.scl = false)

/-- The tick steps due are those of channels that exist, each once (R221). -/
def dueInv (s : State) : Prop := s.due.Nodup ∧ ∀ k ∈ s.due, k < s.cfg.nPwm

/-- What CUR and the frame registers hold while the pseudocode stands at a stage (R130 to R175). -/
def stageInv (s : State) : Stage → Prop
  | .start => s.i2c.cur = 0x00000001
  | .rstart => s.i2c.cur = 0x00000002
  | .stop => s.i2c.cur = 0x00000003
  | .sendByte _ => fieldOp s.i2c.cur = 4
  | .recvByte _ => fieldOp s.i2c.cur = 5
  | .frameStart => s.i2c.xcnt = 0
  | .frameAddr _ => s.i2c.xcnt = 0
  | .frameSend j _ => fieldOp s.i2c.cur = 6 ∧ j < curLen s ∧ s.i2c.xcnt.toNat = j
  | .frameRecv j _ => fieldOp s.i2c.cur = 7 ∧ j < curLen s ∧ s.i2c.xcnt.toNat = j ∧ s.i2c.ack = true
  | .frameEnd => s.i2c.ack = true ∧ s.i2c.xcnt.toNat = curLen s
  | .frameAbort => s.i2c.ack = false

/-- A stage of a frame command. -/
def Stage.ofFrame : Stage → Bool
  | .start => false
  | .rstart => false
  | .stop => false
  | .sendByte _ => false
  | .recvByte _ => false
  | .frameStart => true
  | .frameAddr _ => true
  | .frameSend _ _ => true
  | .frameRecv _ _ => true
  | .frameEnd => true
  | .frameAbort => true

/-- While BUSY = 1, POS is a point of the command in CUR: its stage fits the word, the line actions still to come end
the stage's own sequence, and inside a frame RESULT is 0 and LEN is legal (R31, R33, R174). XCNT is at most 256 always. -/
def engineInv (s : State) : Prop :=
  s.i2c.xcnt.toNat ≤ Config.frameMax ∧
  (s.i2c.busy = true →
    stageInv s s.i2c.pos.stage ∧ s.i2c.pos.todo <:+ stageActions s s.i2c.pos.stage ∧
    (s.i2c.pos.stage.ofFrame = true →
      s.i2c.result = false ∧ (fieldOp s.i2c.cur = 6 ∨ fieldOp s.i2c.cur = 7) ∧ curLen s ≤ Config.frameMax))

/-- The block's invariant. -/
def blockInv (s : State) : Prop :=
  memoryInv s ∧ channelsInv s ∧ workersInv s ∧ ownershipInv s ∧ dueInv s ∧ engineInv s

/-- A line action as the port contract allows it: the engine writes SDA or SCL and reads SDA only (R81, R82); a worker
only writes; a write stores the drawn byte with one bit replaced, a read takes its level from the drawn byte (R20). -/
def actionOk (c : Config) (a : LineAction) : Prop :=
  (a.agent = .engine → a.line = c.sda ∨ a.line = c.scl) ∧
  (a.dir = .read → a.agent = .engine ∧ a.line = c.sda ∧ a.level = lineLevel a.line a.drawn ∧ a.stored = none) ∧
  (a.dir = .write → ∃ b, a.stored = some b ∧ lineLevel a.line b = a.level ∧
    ∀ i < 8, i ≠ a.line.bit.toNat → b.getLsbD i = a.drawn.getLsbD i)

end Sys2Proof.Machine
end

