-- ==== Sys2Proof/Certificates/Slice0/Obligations.lean ====
section
/-! DEFINITION. The statements for the provers. Each formalises rules of spec/ for every state and every configuration,
unless its docstring says that it states a choice of the model. -/

open Sys2Proof Sys2Proof.Machine Host

/-! ### Encoding -/

/-- Decoding the encoding of a well-formed instruction gives it back, with every operand (R102, R105, R106, R113). -/
def Obligations.DecodeOfEncodeIsTheInstruction : Prop :=
  ∀ (c : Config) (i : Instr), c.wf = true → i.wf c = true → decode c (encode c i) = .instr i

/-- An access that decodes to an instruction is that instruction's encoding; only a read's word, which carries nothing,
is dropped. The instruction is well formed. -/
def Obligations.EncodeOfDecodeIsTheAccess : Prop :=
  ∀ (c : Config) (a : HostAccess) (i : Instr), decode c a = .instr i →
    i.wf c = true ∧
    encode c i = { a with data := match a.dir with | .read => 0 | .write => a.data }

/-- At most one row of either table matches a word, and decoding finds a row exactly when one matches (R102, R112). -/
def Obligations.AtMostOneCommandMatchesAWord : Prop :=
  ∀ (w : Word),
    (∀ r ∈ i2cTable, ∀ r' ∈ i2cTable, w &&& r.mask = r.pattern → w &&& r'.mask = r'.pattern → r = r') ∧
    (∀ r ∈ pwmTable, ∀ r' ∈ pwmTable, w &&& r.mask = r.pattern → w &&& r'.mask = r'.pattern → r = r') ∧
    (∀ r ∈ i2cTable, w &&& r.mask = r.pattern → decodeRow i2cTable w = some r.op) ∧
    (∀ r ∈ pwmTable, w &&& r.mask = r.pattern → decodeRow pwmTable w = some r.op) ∧
    ((∀ r ∈ i2cTable, w &&& r.mask ≠ r.pattern) → decodeI2c w = none) ∧
    ((∀ r ∈ pwmTable, w &&& r.mask ≠ r.pattern) → ∀ k, decodePwm k w = none)

/-- Words written out from the spec's bit patterns decode to the commands they stand for; BASE = 0 in the last two is the
model's choice (log 4). -/
def Obligations.WordsOfTheSpecDecode : Prop :=
  decodeI2c 0b00000000000000000000000000000001 = some .start ∧
  decodeI2c 0b00000000000000001010010100000100 = some (.wrbyte 0xA5) ∧
  decodeI2c 0b00000000000000000000000000100101 = some (.rdbyte true) ∧
  decodeI2c 0b00000001010100000000000000000110 = some (.wrframe 2 0x50 false) ∧
  decodeI2c 0b00000000110100000000000000010111 = some (.rdframe 1 0x50 true) ∧
  decodePwm 3 0b00100000000000000000000010110001 = some (.pwmInit 3 0x2000 ⟨0, 3, true⟩) ∧
  decodePwm 3 0b00000000000000000000000000000111 = some (.pwmStop 3) ∧
  decode Config.reference ⟨.read, 0x004, .w32, 0⟩ = .instr .rdI2cStatus ∧
  decode Config.reference ⟨.write, 0x10C, .w32, 0x1234ABCD⟩ = .instr (.wrI2cBuf 3 0x1234ABCD)

/-- Every 12-bit value is a line descriptor {REG = e[11:4], INV = e[3], BIT = e[2:0]}, and encoding gives it back (R106). -/
def Obligations.LineDescriptorEncodingIsExact : Prop :=
  (∀ e : BitVec 12,
    (lineOfBits e).reg = e.extractLsb 11 4 ∧ (lineOfBits e).inv = e.getLsbD 3 ∧
    (lineOfBits e).bit = e.extractLsb 2 0 ∧ lineToBits (lineOfBits e) = e) ∧
  ∀ l : LineDesc, lineOfBits (lineToBits l) = l

/-- The byte at offset +0 of a register is bits [7:0]: storing a word's bytes and reading them back gives the word (R76). -/
def Obligations.RegisterBytesAreLittleEndian : Prop :=
  ∀ w : Word, wordOfBytes (bytesOfWord w) = w ∧ (bytesOfWord w).head? = some (w.setWidth 8)

/-! ### The step and the host access -/

/-- When the next agent is the host and its access decodes to an instruction, the step is that instruction, run on the
state with the access taken from the agenda. The agenda is the model's form of the free interleaving (log 6). -/
def Obligations.StepRunsTheDecodedInstruction : Prop :=
  ∀ (s : State) (a : HostAccess) (rest : List Event) (i : Instr), s.cfg.wf = true →
    s.agenda = .host a :: rest → decode s.cfg a = .instr i → step s = exec i { s with agenda := rest }

/-- A host access of another width than 32 bits, or at an offset that is not a multiple of 4, or at an unmapped offset of
the window, is refused: the fault BadAccess(addr) is recorded, no state of the block changes, and the machine goes on (R73,
R75; the offsets are R72's). -/
def Obligations.UnmappedOrMisalignedAccessIsRefused : Prop :=
  ∀ (s : State) (a : HostAccess) (rest : List Event) (off : Nat), s.cfg.wf = true →
    s.agenda = .host a :: rest → a.addr = s.cfg.base + off → off < 0x1000 →
    (a.width ≠ .w32 ∨ off % 4 ≠ 0 ∨ (0x00C ≤ off ∧ off < 0x100) ∨ (0x500 ≤ off ∧ off < 0x800) ∨
      (0x800 ≤ off ∧ s.cfg.nPwm ≤ (off - 0x800) / 0x20) ∨
      (0x800 ≤ off ∧ 0x18 ≤ (off - 0x800) % 0x20)) →
    step s = .next { s with agenda := rest, faults := .badAccess a.addr :: s.faults }

/-- A write to a read-only register is ignored and sets no error; a read of a command register returns 0 (R78). -/
def Obligations.ReadOnlyWritesAndCommandReads : Prop :=
  ∀ (s : State) (w : Word) (k : Nat), s.cfg.wf = true → k < s.cfg.nPwm →
    (∀ r ∈ [Reg.i2cStatus, .i2cRxdata, .pwmStatus k, .pwmDuty k, .pwmPeriod k, .pwmLine k],
      hostAccess ⟨.write, regAddr s.cfg r, .w32, w⟩ s = .next s) ∧
    (∀ r ∈ [Reg.i2cCmd, .pwmCmd k],
      hostAccess ⟨.read, regAddr s.cfg r, .w32, w⟩ s = .next { s with rdata := 0 })

/-- A command word that matches no row is rejected with code 1, and nothing but ERR changes; on a busy I2C engine the
code is 2 (R111, R243). OP 0x0 and 0x8 to 0xF match no row. -/
def Obligations.ReservedWordsAreRejected : Prop :=
  ∀ (s : State) (w : Word) (k : Nat), s.cfg.wf = true → k < s.cfg.nPwm → s.chans.length = s.cfg.nPwm →
    ((fieldOp w = 0 ∨ 8 ≤ (fieldOp w).toNat) →
      (∀ r ∈ i2cTable, w &&& r.mask ≠ r.pattern) ∧ (∀ r ∈ pwmTable, w &&& r.mask ≠ r.pattern)) ∧
    ((∀ r ∈ i2cTable, w &&& r.mask ≠ r.pattern) →
      hostAccess ⟨.write, regAddr s.cfg .i2cCmd, .w32, w⟩ s =
        .next { s with i2c := { s.i2c with err := if s.i2c.busy then .busy else .reserved } }) ∧
    ((∀ r ∈ pwmTable, w &&& r.mask ≠ r.pattern) →
      ∃ c, s.chans[k]? = some c ∧
        hostAccess ⟨.write, regAddr s.cfg (.pwmCmd k), .w32, w⟩ s =
          .next { s with chans := s.chans.set k { c with err := .reserved } })

/-- The model's choices of log 10: an instruction term that names a register that does not exist, which no access decodes to,
records BadAccess of that register's address and changes nothing else; an access outside the window is not the block's,
and stops the run. -/
def Obligations.MissingRegistersAreRefused : Prop :=
  (∀ (s : State) (k i : Nat) (d : BitVec 16) (l : LineDesc) (v : Word),
    s.chans.length ≤ k → Config.frameMax ≤ i →
    (∀ x ∈ [Instr.pwmInit k d l, .pwmSetduty k d, .pwmSetline k l, .pwmStart k, .pwmPause k, .pwmResume k, .pwmStop k,
        .rdPwmStatus k, .rdPwmDuty k, .rdPwmPeriod k, .rdPwmLine k, .rdPwmPeriodArg k, .wrPwmPeriodArg k v,
        .rdI2cBuf i, .wrI2cBuf i v],
      exec x s = .next { s with faults := .badAccess (regAddr s.cfg (instrReg x)) :: s.faults })) ∧
  ∀ (s : State) (a : HostAccess) (rest : List Event), s.cfg.wf = true → s.agenda = .host a :: rest →
    a.addr < s.cfg.base ∨ s.cfg.base + 0x1000 ≤ a.addr → step s = .fault (.outsideWindow a.addr)

/-! ### I2C commands: the host step -/

/-- Acceptance (R36, R243): on an idle engine each of the seven commands, a frame with a legal LEN, latches its word into
CUR, sets BUSY, clears ERR and puts POS at the start of its pseudocode; a frame also clears RESULT and XCNT. Nothing
else changes, and no line action takes place. POS's sample and accumulator before their first use are log 20's. -/
def Obligations.AcceptedI2cCommandsStartTheEngine : Prop :=
  ∀ (s : State) (b : Byte) (a h : Bool) (len : BitVec 9) (addr : BitVec 7), s.i2c.busy = false →
    let started (w : Word) (st : Stage) : State :=
      { s with i2c := { s.i2c with cur := w, busy := true, err := .ok, pos := ⟨st, []⟩ } }
    let frame (w : Word) : State :=
      { s with i2c := { s.i2c with
          cur := w, busy := true, err := .ok, result := false, xcnt := 0, pos := ⟨.frameStart, []⟩ } }
    exec .start s = .next (started 0x00000001 .start) ∧
    exec .rstart s = .next (started 0x00000002 .rstart) ∧
    exec .stop s = .next (started 0x00000003 .stop) ∧
    exec (.wrbyte b) s = .next (started (BitVec.ofNat 32 (b.toNat * 2 ^ 8 + 4)) (.sendByte false)) ∧
    exec (.rdbyte a) s = .next (started (if a then 0x00000025 else 0x00000005) (.recvByte 0)) ∧
    (len.toNat ≤ 256 → exec (.wrframe len addr h) s =
      .next (frame (BitVec.ofNat 32 (len.toNat * 2 ^ 23 + addr.toNat * 2 ^ 16 + h.toNat * 2 ^ 4 + 6)))) ∧
    (1 ≤ len.toNat → len.toNat ≤ 256 → exec (.rdframe len addr h) s =
      .next (frame (BitVec.ofNat 32 (len.toNat * 2 ^ 23 + addr.toNat * 2 ^ 16 + h.toNat * 2 ^ 4 + 7))))

/-- While BUSY = 1 every I2C command, of any length, is rejected with code 2: ERR alone changes (R241, R243). -/
def Obligations.BusyEngineRejectsEveryCommand : Prop :=
  ∀ (s : State) (b : Byte) (a h : Bool) (len : BitVec 9) (addr : BitVec 7), s.i2c.busy = true →
    ∀ x ∈ [Instr.start, .rstart, .stop, .wrbyte b, .rdbyte a, .wrframe len addr h, .rdframe len addr h],
      exec x s = .next { s with i2c := { s.i2c with err := .busy } }

/-- Length check (R174): a WRFRAME word with LEN > FRAME_MAX, or an RDFRAME word with LEN = 0 or LEN > FRAME_MAX, is
rejected with code 3; no line action takes place, and only ERR changes. (On an idle engine: busy comes first, R243.) -/
def Obligations.BadFrameLengthIsRejected : Prop :=
  ∀ (s : State) (len : BitVec 9) (addr : BitVec 7) (h : Bool), s.i2c.busy = false →
    (256 < len.toNat →
      exec (.wrframe len addr h) s = .next { s with i2c := { s.i2c with err := .badLength } }) ∧
    (len = 0 ∨ 256 < len.toNat →
      exec (.rdframe len addr h) s = .next { s with i2c := { s.i2c with err := .badLength } })

/-- A rejected I2C write or buffer access does not disturb the command in flight: after each command, reserved word, buffer
write and buffer read that a busy engine rejects, the engine's next step is the one it would have taken, and ERR (with a
read's 0) is all that differs (R241). -/
def Obligations.RejectionLeavesTheEngineOnItsWay : Prop :=
  ∀ (s : State) (b : Byte) (a h : Bool) (len : BitVec 9) (addr : BitVec 7) (i : Nat) (v : Word), s.i2c.busy = true →
    i < 256 →
    let u := engineStep s
    (∀ x ∈ [Instr.start, .rstart, .stop, .wrbyte b, .rdbyte a, .wrframe len addr h, .rdframe len addr h],
      ∃ t, exec x s = .next t ∧ engineStep t = { u with i2c := { u.i2c with err := .busy } }) ∧
    engineStep (rejectReservedI2c s) = { u with i2c := { u.i2c with err := .busy } } ∧
    (∃ t, exec (.wrI2cBuf i v) s = .next t ∧ engineStep t = { u with i2c := { u.i2c with err := .bufBusy } }) ∧
    (∃ t, exec (.rdI2cBuf i) s = .next t ∧
      engineStep t = { u with i2c := { u.i2c with err := .bufBusy }, rdata := 0 })

/-! ### I2C commands: the line actions -/

/-- START, RSTART and STOP from an idle engine (R130 to R134): accepted, then exactly 2, 3 and 3 line actions, BUSY 1
until the last and 0 with it. ACK, RESULT, XCNT, RXBYTE and the frame buffer keep their values, and whatever the peer
drives changes nothing. -/
def Obligations.ConditionCommandsPerformTheirTraces : Prop :=
  ∀ (s : State), s.i2c.busy = false →
    ∀ p ∈ [(Instr.start, 2, startTrace s.cfg), (Instr.rstart, 3, rstartTrace s.cfg), (Instr.stop, 3, stopTrace s.cfg)],
      ∃ t, exec p.1 s = .next t ∧ t.trace = s.trace ∧
        (∀ m < p.2.1, (engineRun m t).i2c.busy = true) ∧
        (let u := engineRun p.2.1 t
         shapes u = shapes s ++ p.2.2 ∧ u.i2c.busy = false ∧ u.i2c.err = .ok ∧ u.i2c.ack = s.i2c.ack ∧
         u.i2c.result = s.i2c.result ∧ u.i2c.xcnt = s.i2c.xcnt ∧ u.i2c.rxbyte = s.i2c.rxbyte ∧ u.buf = s.buf ∧
         sameOutsideEngine s u)

/-- The levels last written to SDA and SCL by the end of start_seq, rstart_seq and stop_seq, and of the commands START,
RSTART and STOP, whatever the state before (R133). -/
def Obligations.LevelsAfterEachCondition : Prop :=
  (∀ (s : State), s.i2c.busy = false → s.cfg.wf = true →
    ∀ p ∈ [(Instr.start, 2, false), (Instr.rstart, 3, false), (Instr.stop, 3, true)],
      ∃ t, exec p.1 s = .next t ∧
        lastWritten .engine s.cfg.sda (engineRun p.2.1 t).trace = some p.2.2 ∧
        lastWritten .engine s.cfg.scl (engineRun p.2.1 t).trace = some p.2.2) ∧
  (∀ (s : State), s.i2c.busy = true → s.cfg.wf = true → s.i2c.pos.todo = [] →
    ∀ p ∈ [(startSeq, false), (rstartSeq, false), (stopSeq, true)],
      stageActions s s.i2c.pos.stage = p.1 →
        lastWritten .engine s.cfg.sda (engineRun p.1.length s).trace = some p.2 ∧
        lastWritten .engine s.cfg.scl (engineRun p.1.length s).trace = some p.2)

/-- WRBYTE from an idle engine (R150): accepted, then exactly the 30 line actions of writeByte(BYTE) with one sample r of
SDA, BUSY 1 until the last. ACK keeps its value until the last action and is then 1 iff r = 0. The sample is what the
28th PortRead returns. RESULT, XCNT, RXBYTE and the frame buffer keep their values. -/
def Obligations.WrbyteShiftsTheByteOut : Prop :=
  ∀ (s : State) (v : Byte), s.i2c.busy = false →
    ∃ t r, exec (.wrbyte v) s = .next t ∧ t.trace = s.trace ∧
      (∀ m < 30, (engineRun m t).i2c.busy = true ∧ (engineRun m t).i2c.ack = s.i2c.ack) ∧
      (let u := engineRun 30 t
       shapes u = shapes s ++ writeByteTrace s.cfg v r ∧ u.i2c.busy = false ∧ u.i2c.ack = !r ∧ u.i2c.err = .ok ∧
       u.i2c.result = s.i2c.result ∧ u.i2c.xcnt = s.i2c.xcnt ∧ u.i2c.rxbyte = s.i2c.rxbyte ∧ u.buf = s.buf ∧
       (∀ b, s.portIn[27]? = some b → r = lineLevel s.cfg.sda b) ∧
       sameOutsideEngine s u)

/-- RDBYTE from an idle engine (R152): accepted, then exactly the 29 line actions of readByte(ACK), BUSY 1 until the last.
RXBYTE keeps its value until the last action and is then the byte the eight samples make, the first sample bit 7. ACK,
RESULT, XCNT and the frame buffer keep their values. -/
def Obligations.RdbyteShiftsAByteIn : Prop :=
  ∀ (s : State) (a : Bool), s.i2c.busy = false →
    ∃ t x, exec (.rdbyte a) s = .next t ∧ t.trace = s.trace ∧
      (∀ m < 29, (engineRun m t).i2c.busy = true ∧ (engineRun m t).i2c.rxbyte = s.i2c.rxbyte) ∧
      (let u := engineRun 29 t
       shapes u = shapes s ++ readByteTrace s.cfg x a ∧ u.i2c.busy = false ∧ u.i2c.rxbyte = x ∧ u.i2c.err = .ok ∧
       u.i2c.ack = s.i2c.ack ∧ u.i2c.result = s.i2c.result ∧ u.i2c.xcnt = s.i2c.xcnt ∧ u.buf = s.buf ∧
       (∀ j < 8, ∀ b, s.portIn[2 + 3 * j]? = some b → x.getLsbD (7 - j) = lineLevel s.cfg.sda b) ∧
       sameOutsideEngine s u)

/-- Counting properties of writeByte (R151), of the sequence the engine performs: SCL is written 1 exactly 9 times and 0
exactly 9 times, SDA is written 11 times and read once, and the SDA write just before the (8-i)-th W(SCL,1) writes
v[i], which stays until the W(SCL,0) that follows. -/
def Obligations.WriteByteCounts : Prop :=
  ∀ v : Byte,
    (writeByteSeq v).count (.drive .scl true) = 9 ∧ (writeByteSeq v).count (.drive .scl false) = 9 ∧
    (writeByteSeq v).count (.drive .sda true) + (writeByteSeq v).count (.drive .sda false) = 11 ∧
    (writeByteSeq v).count .sample = 1 ∧ (writeByteSeq v).length = 30 ∧
    ∀ i < 8,
      (writeByteSeq v)[1 + 3 * (7 - i)]? = some (.drive .sda (v.getLsbD i)) ∧
      (writeByteSeq v)[2 + 3 * (7 - i)]? = some (.drive .scl true) ∧
      (writeByteSeq v)[3 + 3 * (7 - i)]? = some (.drive .scl false) ∧
      ((writeByteSeq v).take (3 + 3 * (7 - i))).count (.drive .scl true) = 8 - i

/-- Counting properties of readByte (R153): SCL is written 1 exactly 9 times and 0 exactly 9 times; SDA is sampled exactly
8 times, each sample between a W(SCL,1) and the following W(SCL,0); the k-th sample is bit 8-k of the result. -/
def Obligations.ReadByteCounts : Prop :=
  ∀ a : Bool,
    (readByteSeq a).count (.drive .scl true) = 9 ∧ (readByteSeq a).count (.drive .scl false) = 9 ∧
    (readByteSeq a).count .sample = 8 ∧ (readByteSeq a).length = 29 ∧
    (∀ n, (readByteSeq a)[n]? = some .sample →
      1 ≤ n ∧ (readByteSeq a)[n - 1]? = some (.drive .scl true) ∧ (readByteSeq a)[n + 1]? = some (.drive .scl false)) ∧
    ∀ (x : Byte) (s1 s2 s3 s4 s5 s6 s7 s8 : Bool) (k : Nat), 1 ≤ k → k ≤ 8 →
      ([s1, s2, s3, s4, s5, s6, s7, s8].foldl shiftIn x).getLsbD (8 - k) =
        [s1, s2, s3, s4, s5, s6, s7, s8].getD (k - 1) false

/-- WRFRAME from an idle engine (R172, R170, R171, R173): accepted; then start_seq, the address byte with its RW bit 0, the
data bytes in order, each with its sample. Either every byte is acknowledged, end_frame(HOLD) follows, and RESULT = 1,
ACK = 1, XCNT = LEN; or byte m is the first not acknowledged (0 the address, j+1 data byte j), stop_seq follows at once,
and RESULT = 0, ACK = 0, XCNT = the data bytes acknowledged. BUSY is 1 until the last action. The frame buffer, RXBYTE
and ERR = 0 keep. -/
def Obligations.WrframeSendsTheFrame : Prop :=
  ∀ (s : State) (len : BitVec 9) (addr : BitVec 7) (h : Bool), s.i2c.busy = false → len.toNat ≤ 256 →
    ∃ t, exec (.wrframe len addr h) s = .next t ∧ t.trace = s.trace ∧
      ∃ n, (∀ m < n, (engineRun m t).i2c.busy = true ∧ (engineRun m t).i2c.result = false) ∧
        (let u := engineRun n t
         let bytes := writeFrameBytes s len addr
         u.i2c.busy = false ∧ u.i2c.err = .ok ∧ u.i2c.rxbyte = s.i2c.rxbyte ∧ u.buf = s.buf ∧ sameOutsideEngine s u ∧
         ((n = 2 + 30 * (len.toNat + 1) + 3 ∧
            shapes u = shapes s ++ startTrace s.cfg ++ ackedBytesTrace s.cfg bytes ++ endTrace s.cfg h ∧
            u.i2c.result = true ∧ u.i2c.ack = true ∧ u.i2c.xcnt = len) ∨
          (∃ m v, m ≤ len.toNat ∧ bytes[m]? = some v ∧ n = 2 + 30 * (m + 1) + 3 ∧
            shapes u = shapes s ++ startTrace s.cfg ++ ackedBytesTrace s.cfg (bytes.take m)
              ++ writeByteTrace s.cfg v true ++ stopTrace s.cfg ∧
            u.i2c.result = false ∧ u.i2c.ack = false ∧ u.i2c.xcnt.toNat = m - 1)))

/-- RDFRAME from an idle engine (R175, R170, R171, R176): accepted; then start_seq and the address byte with its RW bit 1.
Either it is acknowledged, LEN bytes are read, every one acknowledged but the last, and stored in order in
I2C_BUF[0..LEN-1], end_frame(HOLD) follows, and RESULT = 1, XCNT = LEN, RXBYTE = the last byte; or it is not, stop_seq
follows, RESULT = 0, ACK = 0, XCNT = 0, and the buffer and RXBYTE keep. Entries at LEN and above keep. -/
def Obligations.RdframeReadsTheFrame : Prop :=
  ∀ (s : State) (len : BitVec 9) (addr : BitVec 7) (h : Bool),
    Memory.wf s.buf = true → s.i2c.busy = false → 1 ≤ len.toNat → len.toNat ≤ 256 →
    ∃ t, exec (.rdframe len addr h) s = .next t ∧ t.trace = s.trace ∧
      ∃ n, (∀ m < n, (engineRun m t).i2c.busy = true ∧ (engineRun m t).i2c.result = false) ∧
        (let u := engineRun n t
         u.i2c.busy = false ∧ u.i2c.err = .ok ∧ sameOutsideEngine s u ∧
         ((∃ xs : List Byte, xs.length = len.toNat ∧ n = 35 + 29 * len.toNat ∧
            shapes u = shapes s ++ startTrace s.cfg ++ writeByteTrace s.cfg (addrByte addr true) false
              ++ readBytesTrace s.cfg xs ++ endTrace s.cfg h ∧
            u.i2c.result = true ∧ u.i2c.ack = true ∧ u.i2c.xcnt = len ∧ some u.i2c.rxbyte = xs.getLast? ∧
            ∀ i, Memory.read u.buf i = if h : i < xs.length then xs[i] else Memory.read s.buf i) ∨
          (n = 35 ∧
            shapes u = shapes s ++ startTrace s.cfg ++ writeByteTrace s.cfg (addrByte addr true) true
              ++ stopTrace s.cfg ∧
            u.i2c.result = false ∧ u.i2c.ack = false ∧ u.i2c.xcnt = 0 ∧ u.i2c.rxbyte = s.i2c.rxbyte ∧
            u.buf = s.buf)))

/-- Termination (R183, R285): after acceptance the engine completes every command within the number of line actions its
operands fix as a bound: at most 7715 for WRFRAME and 7459 for RDFRAME. -/
def Obligations.EveryAcceptedCommandCompletes : Prop :=
  ∀ (s t : State) (i : Instr), s.i2c.busy = false → exec i s = .next t → t.i2c.busy = true →
    ∃ n, (engineRun n t).i2c.busy = false ∧ n ≤ 7715 ∧
      (∀ len addr h, i = .rdframe len addr h → n ≤ 7459) ∧
      (∀ b, i = .wrbyte b → n = 30) ∧ (∀ a, i = .rdbyte a → n = 29)

/-- While the engine is busy, one step takes exactly one line action; idle, it takes none (R17, R257). -/
def Obligations.EngineStepIsOneLineAction : Prop :=
  ∀ s : State,
    (s.i2c.busy = true → ∃ a, (engineStep s).trace = a :: s.trace ∧ a.agent = .engine) ∧
    (s.i2c.busy = false → engineStep s = s)

/-! ### The frame buffer and the I2C result registers -/

/-- Frame-buffer access while busy (R79): rejected; a write stores nothing, a read returns 0, and ERR <- 4 in both cases.
While BUSY = 0 an access never changes ERR. -/
def Obligations.FrameBufferIsTheEnginesWhileBusy : Prop :=
  ∀ (s : State) (i : Nat) (v : Word), i < 256 →
    (s.i2c.busy = true →
      exec (.wrI2cBuf i v) s = .next { s with i2c := { s.i2c with err := .bufBusy } } ∧
      exec (.rdI2cBuf i) s = .next { s with i2c := { s.i2c with err := .bufBusy }, rdata := 0 }) ∧
    (s.i2c.busy = false →
      (∃ t, exec (.wrI2cBuf i v) s = .next t ∧ t.i2c = s.i2c) ∧ (∃ t, exec (.rdI2cBuf i) s = .next t ∧ t.i2c = s.i2c))

/-- WR.I2C_BUF and RD.I2C_BUF on an idle engine (R180, R181): the write sets the entry to v[7:0] and leaves every other
entry and everything else; the read returns the entry with zero bits above and changes nothing. -/
def Obligations.FrameBufferReadAfterWrite : Prop :=
  ∀ (s : State) (i : Nat) (v : Word), Memory.wf s.buf = true → s.i2c.busy = false → i < 256 →
    exec (.rdI2cBuf i) s = .next { s with rdata := (Memory.read s.buf i).setWidth 32 } ∧
    ∃ m, exec (.wrI2cBuf i v) s = .next { s with buf := m } ∧
      ∀ j, Memory.read m j = if j = i then v.extractLsb' 0 8 else Memory.read s.buf j

/-- RD.I2C_STATUS and RD.I2C_RXDATA (R178, R179): the word's fields are those of R33 and R34, reserved bits 0, and nothing
but the value returned changes. -/
def Obligations.I2cResultReads : Prop :=
  ∀ s : State,
    (∃ w, exec .rdI2cStatus s = .next { s with rdata := w } ∧
      w.getLsbD 0 = s.i2c.busy ∧ w.getLsbD 1 = s.i2c.ack ∧ w.getLsbD 2 = s.i2c.result ∧
      w.extractLsb' 3 5 = 0 ∧
      (w.extractLsb' 8 3).toNat =
        (match s.i2c.err with | .ok => 0 | .reserved => 1 | .busy => 2 | .badLength => 3 | .bufBusy => 4) ∧
      w.extractLsb' 11 5 = 0 ∧ w.extractLsb' 16 9 = s.i2c.xcnt ∧ w.extractLsb' 25 7 = 0) ∧
    (∃ w, exec .rdI2cRxdata s = .next { s with rdata := w } ∧
      w.extractLsb' 0 8 = s.i2c.rxbyte ∧ w.extractLsb' 8 24 = 0)

/-! ### PWM channels: configuration -/

/-- PWM.INIT with an output-capable line, a duty in [0x0000, 0x4000] and a period staged that is not 0 (R190): the line,
the duty and the staged period are taken, CFG_VALID is set, ERR is cleared, in every worker state; nothing else
changes. -/
def Obligations.InitConstructsTheChannel : Prop :=
  ∀ (s : State) (k : Nat) (c : Channel) (d : BitVec 16) (l : LineDesc), s.chans[k]? = some c →
    s.cfg.supportsOutput l = true → d.toNat ≤ 0x4000 → c.periodArg ≠ 0 →
    exec (.pwmInit k d l) s = .next { s with
      chans := s.chans.set k { c with line := l, duty := d, period := c.periodArg, cfgValid := true, err := .ok } }

/-- PWM.SETDUTY on a constructed channel with a duty in [0x0000, 0x4000], and PWM.SETLINE with an output-capable line
(R193, R195): the one register changes, ERR is cleared, nothing else changes. -/
def Obligations.MutatorsChangeOneRegister : Prop :=
  ∀ (s : State) (k : Nat) (c : Channel) (d : BitVec 16) (l : LineDesc), s.chans[k]? = some c → c.cfgValid = true →
    (d.toNat ≤ 0x4000 →
      exec (.pwmSetduty k d) s = .next { s with chans := s.chans.set k { c with duty := d, err := .ok } }) ∧
    (s.cfg.supportsOutput l = true →
      exec (.pwmSetline k l) s = .next { s with chans := s.chans.set k { c with line := l, err := .ok } })

/-- The rejections of INIT, SETDUTY, SETLINE and START in the order of R243: not constructed (6), state (5), ownership (7),
line (3), duty (2), period (4); each changes ERR alone. -/
def Obligations.PwmRejectionsInOrder : Prop :=
  ∀ (s : State) (k : Nat) (c : Channel) (d : BitVec 16) (l : LineDesc), s.chans[k]? = some c →
    let rejected (e : PwmErr) : Outcome State Fault Refusal :=
      .next { s with chans := s.chans.set k { c with err := e } }
    (s.cfg.supportsOutput l = false → exec (.pwmInit k d l) s = rejected .line) ∧
    (s.cfg.supportsOutput l = true → 0x4000 < d.toNat → exec (.pwmInit k d l) s = rejected .duty) ∧
    (s.cfg.supportsOutput l = true → d.toNat ≤ 0x4000 → c.periodArg = 0 →
      exec (.pwmInit k d l) s = rejected .period) ∧
    (c.cfgValid = false → exec (.pwmSetduty k d) s = rejected .notConstructed ∧
      exec (.pwmSetline k l) s = rejected .notConstructed ∧ exec (.pwmStart k) s = rejected .notConstructed) ∧
    (c.cfgValid = true → 0x4000 < d.toNat → exec (.pwmSetduty k d) s = rejected .duty) ∧
    (c.cfgValid = true → s.cfg.supportsOutput l = false → exec (.pwmSetline k l) s = rejected .line) ∧
    (c.cfgValid = true → c.state = .running ∨ c.state = .paused → exec (.pwmStart k) s = rejected .state) ∧
    (c.cfgValid = true → c.state = .idle ∨ c.state = .stopped → ownedElsewhere k c.line s = true →
      exec (.pwmStart k) s = rejected .owned)

/-- The duty range rule (R107, R194): in range iff 0 <= sext_16(d) <= 16384, that is d in [0x0000, 0x4000]. -/
def Obligations.DutyRangeIsZeroToOne : Prop :=
  ∀ d : BitVec 16,
    (dutyInRange d = true ↔ 0 ≤ d.toInt ∧ d.toInt ≤ 16384) ∧ (dutyInRange d = true ↔ d.toNat ≤ 0x4000)

/-- The accesses to PWM_PERIOD_ARG (R196) and the reads of PWM_DUTY, PWM_PERIOD and PWM_LINE (R197 to R199): the write
stores any value in every worker state and changes nothing else; a read returns the register with zero bits above and
changes nothing. -/
def Obligations.PwmRegisterAccesses : Prop :=
  ∀ (s : State) (k : Nat) (c : Channel) (v : Word), s.chans[k]? = some c →
    exec (.wrPwmPeriodArg k v) s = .next { s with chans := s.chans.set k { c with periodArg := v } } ∧
    exec (.rdPwmPeriodArg k) s = .next { s with rdata := c.periodArg } ∧
    exec (.rdPwmPeriod k) s = .next { s with rdata := c.period } ∧
    exec (.rdPwmDuty k) s = .next { s with rdata := BitVec.ofNat 32 c.duty.toNat } ∧
    exec (.rdPwmLine k) s = .next { s with
      rdata := BitVec.ofNat 32 (c.line.reg.toNat * 2 ^ 4 + c.line.inv.toNat * 2 ^ 3 + c.line.bit.toNat) }

/-- RD.PWM_STATUS (R215, R38): the word's fields, RUNNING iff STATE = Running, PAUSED iff STATE = Paused, reserved bits 0;
nothing but the value returned changes. -/
def Obligations.PwmStatusRead : Prop :=
  ∀ (s : State) (k : Nat) (c : Channel), s.chans[k]? = some c →
    ∃ w, exec (.rdPwmStatus k) s = .next { s with rdata := w } ∧
      (w.extractLsb' 0 2).toNat =
        (match c.state with
          | .idle => 0 | .running => 1 | .paused => 2 | .stopped => 3) ∧
      w.getLsbD 2 = c.stopPend ∧ w.getLsbD 3 = c.cfgValid ∧ w.getLsbD 4 = c.out ∧
      (w.getLsbD 5 = true ↔ c.state = .running) ∧ (w.getLsbD 6 = true ↔ c.state = .paused) ∧ w.getLsbD 7 = false ∧
      (w.extractLsb' 8 3).toNat =
        (match c.err with
          | .ok => 0 | .reserved => 1 | .duty => 2 | .line => 3 | .period => 4 | .state => 5
          | .notConstructed => 6 | .owned => 7) ∧
      w.extractLsb' 11 21 = 0

/-- The snapshot rule (R192, R211): a step changes S_LINE, S_P or S_ON of a channel only if it is the host writing PWM.START
to that channel, or a reset. -/
def Obligations.OnlyStartTakesASnapshot : Prop :=
  ∀ (s s' : State) (k : Nat) (c c' : Channel), step s = .next s' → s.chans[k]? = some c → s'.chans[k]? = some c' →
    nextEvent s ≠ .reset → (∀ a, nextEvent s = .host a → decode s.cfg a ≠ .instr (.pwmStart k)) →
    c'.sLine = c.sLine ∧ c'.sP = c.sP ∧ c'.sOn = c.sOn

/-! ### PWM channels: the worker's commands -/

/-- PWM.START on a constructed channel that is Idle or Stopped and whose line no one else owns (R210, R211): the snapshot is
taken, CNT is 0, STATE is Running; OUT and everything else keep, and no line action takes place. -/
def Obligations.StartSnapshotsAndRuns : Prop :=
  ∀ (s : State) (k : Nat) (c : Channel), s.chans[k]? = some c → c.cfgValid = true →
    c.state = .idle ∨ c.state = .stopped → ownedElsewhere k c.line s = false →
    exec (.pwmStart k) s = .next { s with
      chans := s.chans.set k { c with
        sLine := c.line, sP := c.period, sOn := BitVec.ofNat 32 (c.period.toNat * c.duty.toNat / 16384),
        cnt := 0, state := .running, err := .ok } }

/-- The command/state table (R217). PAUSE, RESUME and STOP complete, or are rejected with 5, exactly as its rows say, and
change nothing but STATE, STOP_PEND and ERR; START's rows are for a constructed channel whose line is free. -/
def Obligations.CommandStateTable : Prop :=
  ∀ (s : State) (k : Nat) (c : Channel), s.chans[k]? = some c →
    let rejected : Outcome State Fault Refusal := .next { s with chans := s.chans.set k { c with err := .state } }
    let moved (st : WorkerState) (stop : Bool) : Outcome State Fault Refusal :=
      .next { s with chans := s.chans.set k { c with state := st, stopPend := stop, err := .ok } }
    (c.cfgValid = true → ownedElsewhere k c.line s = false → c.stopPend = false →
      (c.state = .idle ∨ c.state = .stopped →
        ∃ t c', exec (.pwmStart k) s = .next t ∧ t.chans[k]? = some c' ∧ c'.state = .running) ∧
      (c.state = .running ∨ c.state = .paused → exec (.pwmStart k) s = rejected)) ∧
    (c.cfgValid = true → ownedElsewhere k c.line s = false → c.stopPend = true →
      c.state = .running ∨ c.state = .paused → exec (.pwmStart k) s = rejected) ∧
    (c.state = .running → c.stopPend = false → exec (.pwmPause k) s = moved .paused false) ∧
    (c.state ≠ .running ∨ c.stopPend = true → exec (.pwmPause k) s = rejected) ∧
    (c.state = .paused → c.stopPend = false → exec (.pwmResume k) s = moved .running false) ∧
    (c.state ≠ .paused ∨ c.stopPend = true → exec (.pwmResume k) s = rejected) ∧
    (c.state = .running ∨ c.state = .paused → c.stopPend = false → exec (.pwmStop k) s = moved c.state true) ∧
    (c.state = .idle ∨ c.state = .stopped ∨ c.stopPend = true → exec (.pwmStop k) s = rejected)

/-- Exclusive line ownership (R218): owned_elsewhere(k, L) holds iff another Running or Paused channel's S_LINE has L's REG
and BIT, or L is the physical line of SDA or SCL. -/
def Obligations.OwnedElsewhereMeansAnotherOwner : Prop :=
  ∀ (s : State) (k : Nat) (l : LineDesc),
    ownedElsewhere k l s = true ↔
      (∃ j c, j ≠ k ∧ s.chans[j]? = some c ∧ (c.state = .running ∨ c.state = .paused) ∧
        c.sLine.reg = l.reg ∧ c.sLine.bit = l.bit) ∨
      (l.reg = s.cfg.sda.reg ∧ l.bit = s.cfg.sda.bit) ∨ (l.reg = s.cfg.scl.reg ∧ l.bit = s.cfg.scl.bit)

/-! ### PWM channels: the tick step -/

/-- On- and off-time (R216): on_ticks(P, d) = floor(P * d / 16384), with P * d < 2^46; off_ticks = P - on_ticks; on_ticks is
at most P, 0 iff P * d < 16384, in particular for d = 0, and P iff d = 16384. The spec's three examples. -/
def Obligations.OnTicksIsTheFloor : Prop :=
  (∀ (p : Word) (d : BitVec 16), 1 ≤ p.toNat → d.toNat ≤ 16384 →
    p.toNat * d.toNat < 2 ^ 46 ∧ (onTicks p d).toNat = p.toNat * d.toNat / 16384 ∧
    (p - onTicks p d).toNat = p.toNat - (onTicks p d).toNat ∧ (onTicks p d).toNat ≤ p.toNat ∧
    ((onTicks p d).toNat = 0 ↔ p.toNat * d.toNat < 16384) ∧ (d = 0 → (onTicks p d).toNat = 0) ∧
    ((onTicks p d).toNat = p.toNat ↔ d.toNat = 16384)) ∧
  onTicks 20000 0x2000 = 10000 ∧ 20000 - onTicks 20000 0x2000 = 10000 ∧
  onTicks 3 0x2000 = 1 ∧ 3 - onTicks 3 0x2000 = 2 ∧ onTicks 1 0x3FFF = 0 ∧ 1 - onTicks 1 0x3FFF = 1

/-- The comparator (R222): from the first tick step after a START, with neither pause nor stop, tick step n finds
CNT = n mod S_P, and after it OUT and the last level written to the line are both (n mod S_P) < S_ON. -/
def Obligations.WorkerIsADutyCycleComparator : Prop :=
  ∀ (s : State) (k : Nat) (c : Channel), s.chans[k]? = some c → c.state = .running → c.stopPend = false → c.cnt = 0 →
    1 ≤ c.sP.toNat → c.sOn.toNat ≤ c.sP.toNat →
    ∀ n, ∃ c' c'',
      (tickRun k n s).chans[k]? = some c' ∧ c'.cnt.toNat = n % c.sP.toNat ∧
      (tickRun k (n + 1) s).chans[k]? = some c'' ∧ c''.out = decide (n % c.sP.toNat < c.sOn.toNat) ∧
      lastWritten (.worker k) c.sLine (tickRun k (n + 1) s).trace = some (decide (n % c.sP.toNat < c.sOn.toNat)) ∧
      c''.state = .running ∧ c''.sP = c.sP ∧ c''.sOn = c.sOn ∧ c''.sLine = c.sLine

/-- Edge cases (R223): a worker with S_ON = 0 never writes its line high, whether or not a stop is pending; one with
S_ON = S_P never writes it low until a stop is pending. -/
def Obligations.DutyZeroNeverHighDutyOneNeverLow : Prop :=
  ∀ (s : State) (k : Nat) (c : Channel), s.chans[k]? = some c → workerInv s.cfg c →
    ∀ a, (tickStep k s).trace = a :: s.trace →
      (c.sOn.toNat = 0 → a.level = false) ∧ (c.stopPend = false → c.sOn = c.sP → a.level = true)

/-- A tick step performs at most one line action, a LineWrite of S_LINE, and changes no other channel (R220). -/
def Obligations.TickStepTouchesItsChannelOnly : Prop :=
  ∀ (s : State) (k : Nat),
    ((tickStep k s).trace = s.trace ∨ ∃ c a, s.chans[k]? = some c ∧ (tickStep k s).trace = a :: s.trace ∧
      a.agent = .worker k ∧ a.line = c.sLine ∧ a.dir = .write) ∧
    (∀ j, j ≠ k → (tickStep k s).chans[j]? = s.chans[j]?) ∧
    (tickStep k s).cfg = s.cfg ∧ (tickStep k s).i2c = s.i2c ∧ (tickStep k s).buf = s.buf ∧
    (tickStep k s).tickNo = s.tickNo ∧ (tickStep k s).due = s.due ∧ (tickStep k s).rdata = s.rdata ∧
    (tickStep k s).faults = s.faults ∧ (tickStep k s).agenda = s.agenda

/-- Stop latency (R226): a pending stop is carried out at the first tick step that finds CNT = 0, or CNT = S_ON with
0 < S_ON < S_P; that takes at most S_P tick steps, one if CNT = 0. Until then the worker runs on; after it the last
value written to the line is 0, STATE = Stopped, STOP_PEND = 0 and CNT = 0. -/
def Obligations.StopTakesAtMostOnePeriod : Prop :=
  ∀ (s : State) (k : Nat) (c : Channel), s.chans[k]? = some c → workerInv s.cfg c → c.stopPend = true →
    ∃ n < c.sP.toNat,
      (∀ m < n, ∃ c', (tickRun k m s).chans[k]? = some c' ∧ c'.stopPend = true ∧ c'.cnt.toNat = c.cnt.toNat + m ∧
        c'.cnt ≠ 0 ∧ c'.cnt ≠ c.sOn) ∧
      (∃ c', (tickRun k n s).chans[k]? = some c' ∧ c'.stopPend = true ∧
        (c'.cnt = 0 ∨ (c'.cnt = c.sOn ∧ 0 < c.sOn.toNat ∧ c.sOn.toNat < c.sP.toNat))) ∧
      (c.cnt = 0 → n = 0) ∧
      (∃ c', (tickRun k (n + 1) s).chans[k]? = some c' ∧ c'.state = .stopped ∧ c'.stopPend = false ∧ c'.out = false ∧
        c'.cnt = 0 ∧ lastWritten (.worker k) c.sLine (tickRun k (n + 1) s).trace = some false)

/-- Pause latency and the frozen level (R224): a paused worker takes S_P - CNT more tick steps to reach CNT = 0 (none if
CNT = 0), and from then on no tick step changes anything. Paused with CNT > 0, it freezes at OUT = 1 iff S_ON = S_P. -/
def Obligations.PauseFreezesAtTheBoundary : Prop :=
  ∀ (s : State) (k : Nat) (c : Channel), s.chans[k]? = some c → workerInv s.cfg c → c.state = .paused →
    c.stopPend = false →
    let n := (c.sP.toNat - c.cnt.toNat) % c.sP.toNat
    (∀ m, tickRun k (n + m) s = tickRun k n s) ∧
    ∃ c', (tickRun k n s).chans[k]? = some c' ∧ c'.cnt = 0 ∧ c'.state = .paused ∧
      (c.cnt.toNat ≠ 0 → c'.out = decide (c.sOn = c.sP))

/-- Resume latency (R225): a RESUME accepted while the worker is frozen at CNT = 0 lets the next tick step begin a new
iteration with the write of R220: the line is written S_ON > 0, OUT follows, and CNT advances. -/
def Obligations.ResumeBeginsANewIteration : Prop :=
  ∀ (s : State) (k : Nat) (c : Channel), s.chans[k]? = some c → c.state = .paused → c.stopPend = false → c.cnt = 0 →
    1 ≤ c.sP.toNat →
    ∃ t c', exec (.pwmResume k) s = .next t ∧ (tickStep k t).chans[k]? = some c' ∧ c'.state = .running ∧
      c'.out = decide (0 < c.sOn.toNat) ∧ c'.cnt.toNat = 1 % c.sP.toNat ∧
      lastWritten (.worker k) c.sLine (tickStep k t).trace = some (decide (0 < c.sOn.toNat))

/-- Stopped is terminal for the worker (R227): an Idle or Stopped channel's tick step changes nothing, and a step leaves
Stopped only if it is the host writing PWM.START to that channel, or a reset. -/
def Obligations.StoppedIsTerminal : Prop :=
  (∀ (s : State) (k : Nat) (c : Channel), s.chans[k]? = some c → c.state = .idle ∨ c.state = .stopped →
    tickStep k s = s) ∧
  (∀ (s s' : State) (k : Nat) (c c' : Channel), step s = .next s' → s.chans[k]? = some c → s'.chans[k]? = some c' →
    c.state = .stopped → c'.state ≠ .stopped →
    nextEvent s = .reset ∨ ∃ a, nextEvent s = .host a ∧ decode s.cfg a = .instr (.pwmStart k))

/-- Tick scheduling (R221, R219): a tick advances the tick number, makes every channel's step due and changes nothing else,
only when none is due; a worker takes its step of a tick at most once, and a worker that is not due changes nothing. That
the time base waits for the steps due is the model's reading (log 12). -/
def Obligations.OneTickStepPerTick : Prop :=
  ∀ s : State,
    (s.due = [] → ∃ d, timeTick s = { s with tickNo := s.tickNo + 1, due := d } ∧ d.Nodup ∧
      ∀ k, k ∈ d ↔ k < s.cfg.nPwm) ∧
    (s.due ≠ [] → timeTick s = s) ∧
    (∀ k, (k ∈ s.due → workerStep k s = tickStep k { s with due := s.due.erase k }) ∧
      (k ∉ s.due → workerStep k s = s)) ∧
    (dueInv s → ∀ k, k ∉ (workerStep k s).due ∧ workerStep k (workerStep k s) = workerStep k s)

/-! ### The port -/

/-- Line primitives (R20): what a LineWrite of v stores reads back as v on that line and keeps every other bit drawn. -/
def Obligations.LineWriteChangesOneBit : Prop :=
  ∀ (l : LineDesc) (b : Byte) (v : Bool),
    lineLevel l (lineStore l b v) = v ∧
    ∀ i < 8, i ≠ l.bit.toNat → (lineStore l b v).getLsbD i = b.getLsbD i

/-- Port discipline (R81, R82, R83): a step performs at most one line action; the engine acts on SDA and SCL only and alone
reads, and only SDA; a worker writes the line of its snapshot; each write stores the drawn byte with one bit replaced. -/
def Obligations.EachStepPerformsAtMostOneLineAction : Prop :=
  ∀ s s' : State, step s = .next s' →
    s'.trace = s.trace ∨ ∃ a, s'.trace = a :: s.trace ∧ actionOk s.cfg a ∧
      (a.agent = .engine → nextEvent s = .engine) ∧
      (∀ k, a.agent = .worker k → nextEvent s = .worker k ∧ ∃ c, s.chans[k]? = some c ∧ a.line = c.sLine)

/-! ### Reset -/

/-- The values the spec gives for reset (R45), for every configuration: the status and data registers of the engine and of
every channel, the period and its staging register at PERIOD_DEFAULT, and CNT. -/
def Obligations.ResetValues : Prop :=
  ∀ c : Config, c.wf = true → resetValues c (State.resetWith c)

/-- Reset during operation (R270, R272): every register takes its value of R45, and the tick number is 0 again (R219); no
further action of a command in flight takes place, BUSY 0; every worker ends at once, its line not driven low; STATE Idle,
CFG_VALID 0, a pending stop forgotten. The configuration stays. -/
def Obligations.ResetAbandonsWorkInFlight : Prop :=
  ∀ (s : State) (rest : List Event), s.cfg.wf = true → s.agenda = .reset :: rest →
    ∃ t, step s = .next t ∧ t.cfg = s.cfg ∧ resetValues s.cfg t ∧ t.tickNo = 0 ∧ t.due = [] ∧
      t.trace = s.trace ∧ t.i2c.busy = false ∧ (∀ n, (engineRun n t).trace = s.trace) ∧ (∀ k, tickStep k t = t) ∧
      ∀ ch ∈ t.chans, ch.state = .idle ∧ ch.cfgValid = false ∧ ch.stopPend = false

/-- The block right after reset satisfies its invariant, under every configuration the model covers. -/
def Obligations.ResetSatisfiesTheInvariant : Prop :=
  ∀ c : Config, c.wf = true → blockInv (State.resetWith c)

/-! ### Invariants every step keeps -/

/-- The frame buffer keeps its canonical form, which is the model's (log 1), and lists only the 256 entries that exist, given
that the engine's position fits the command in CUR. -/
def Obligations.StepKeepsTheFrameBufferCanonical : Prop :=
  ∀ s s' : State, memoryInv s → engineInv s → step s = .next s' → memoryInv s'

/-- The channel invariant (R200): DUTY in [0x0000, 0x4000], PERIOD at least 1, and a constructed channel's LINE
output-capable, after reset under every configuration and at every step; and there are N_PWM channels. -/
def Obligations.ChannelInvariantHoldsAtEveryStep : Prop :=
  (∀ c : Config, c.wf = true → channelsInv (State.resetWith c)) ∧
  ∀ s s' : State, channelsInv s → step s = .next s' → channelsInv s'

/-- The worker's invariant (R40, R41, R217, R222): S_ON <= S_P, CNT < S_P, a stop pending only on a live worker, and OUT the
comparator's output inside an iteration. -/
def Obligations.StepKeepsTheWorkerInvariant : Prop :=
  ∀ s s' : State, channelsInv s → workersInv s → step s = .next s' → workersInv s'

/-- Only one worker may exist per physical line at any time, and none on SDA or SCL (R218). -/
def Obligations.StepKeepsLineOwnershipExclusive : Prop :=
  ∀ s s' : State, ownershipInv s → step s = .next s' → ownershipInv s'

/-- While BUSY = 1, POS stays a point of the command in CUR, RESULT stays 0 inside a frame, and XCNT never exceeds 256
(R31, R33). -/
def Obligations.StepKeepsTheEngineOnItsCommand : Prop :=
  ∀ s s' : State, engineInv s → step s = .next s' → engineInv s'

/-- Every step keeps the block's whole invariant. -/
def Obligations.StepKeepsTheBlockInvariant : Prop :=
  ∀ s s' : State, blockInv s → step s = .next s' → blockInv s'

/-! ### Rules of the whole machine -/

/-- The configuration is fixed for the life of the block (R22). -/
def Obligations.ConfigurationNeverChanges : Prop :=
  ∀ s s' : State, step s = .next s' → s'.cfg = s.cfg

/-- BUSY goes from 1 to 0 only by the engine's own step or a reset, and from 0 to 1 only by a host access (R36, R43);
CFG_VALID goes from 1 to 0 only by a reset (R191). -/
def Obligations.OnlyTheEngineOrResetEndsACommand : Prop :=
  ∀ s s' : State, step s = .next s' →
    (s.i2c.busy = true → s'.i2c.busy = false → nextEvent s = .engine ∨ nextEvent s = .reset) ∧
    (s.i2c.busy = false → s'.i2c.busy = true → ∃ a, nextEvent s = .host a) ∧
    (∀ (k : Nat) (c c' : Channel), s.chans[k]? = some c → s'.chans[k]? = some c' → c.cfgValid = true →
      c'.cfgValid = false → nextEvent s = .reset)
end

