-- ==== Sys2Proof/Laws/Decode.lean ====
section
/-! SUPPORT. The operand fields of the encoded words, and the opcode tables read by opcode. -/

namespace Sys2Proof

/-! ### Fields of an encoded word -/

@[simp] theorem lineToBits_reg (l : LineDesc) : (lineToBits l).extractLsb' 4 8 = l.reg := by
  ext j hj; simp only [lineToBits]; interval_cases j <;> simp

@[simp] theorem lineToBits_bit (l : LineDesc) : (lineToBits l).extractLsb' 0 3 = l.bit := by
  ext j hj; simp only [lineToBits]; interval_cases j <;> simp

@[simp] theorem lineToBits_inv (l : LineDesc) : (lineToBits l).getLsbD 3 = l.inv := by
  simp [lineToBits]

@[simp] theorem fieldByte_wrbyte (b : BitVec 8) : fieldByte (instrWord (.wrbyte b)) = b := by
  ext j hj; simp only [fieldByte, instrWord]; interval_cases j <;> simp

@[simp] theorem fieldAck_rdbyte (a : Bool) : fieldAck (instrWord (.rdbyte a)) = a := by
  simp [fieldAck, instrWord, bitAt]

section Frame
variable (len : BitVec 9) (addr : BitVec 7) (h : Bool)

@[simp] theorem fieldLen_wrframe : fieldLen (instrWord (.wrframe len addr h)) = len := by
  ext j hj; simp only [fieldLen, instrWord, frameWord, bitAt]; interval_cases j <;> simp

@[simp] theorem fieldAddr_wrframe : fieldAddr (instrWord (.wrframe len addr h)) = addr := by
  ext j hj; simp only [fieldAddr, instrWord, frameWord, bitAt]; interval_cases j <;> simp

@[simp] theorem fieldHold_wrframe : fieldHold (instrWord (.wrframe len addr h)) = h := by
  simp [fieldHold, instrWord, frameWord, bitAt]

@[simp] theorem fieldLen_rdframe : fieldLen (instrWord (.rdframe len addr h)) = len := by
  ext j hj; simp only [fieldLen, instrWord, frameWord, bitAt]; interval_cases j <;> simp

@[simp] theorem fieldAddr_rdframe : fieldAddr (instrWord (.rdframe len addr h)) = addr := by
  ext j hj; simp only [fieldAddr, instrWord, frameWord, bitAt]; interval_cases j <;> simp

@[simp] theorem fieldHold_rdframe : fieldHold (instrWord (.rdframe len addr h)) = h := by
  simp [fieldHold, instrWord, frameWord, bitAt]

@[simp] theorem fieldOp_wrframe : fieldOp (instrWord (.wrframe len addr h)) = 6 := by
  ext j hj; simp only [fieldOp, instrWord, frameWord, bitAt]; interval_cases j <;> simp

@[simp] theorem fieldOp_rdframe : fieldOp (instrWord (.rdframe len addr h)) = 7 := by
  ext j hj; simp only [fieldOp, instrWord, frameWord, bitAt]; interval_cases j <;> simp

end Frame

@[simp] theorem fieldOp_wrbyte (b : BitVec 8) : fieldOp (instrWord (.wrbyte b)) = 4 := by
  ext j hj; simp only [fieldOp, instrWord]; interval_cases j <;> simp

@[simp] theorem fieldOp_rdbyte (a : Bool) : fieldOp (instrWord (.rdbyte a)) = 5 := by
  cases a <;> rfl

@[simp] theorem fieldDuty_pwmInit (k : Nat) (d : BitVec 16) (l : LineDesc) :
    fieldDuty (instrWord (.pwmInit k d l)) = d := by
  ext j hj; simp only [fieldDuty, instrWord]; interval_cases j <;> simp

@[simp] theorem fieldLine_pwmInit (k : Nat) (d : BitVec 16) (l : LineDesc) :
    fieldLine (instrWord (.pwmInit k d l)) = lineToBits l := by
  ext j hj; simp only [fieldLine, instrWord]; interval_cases j <;> simp

@[simp] theorem fieldDuty_pwmSetduty (k : Nat) (d : BitVec 16) : fieldDuty (instrWord (.pwmSetduty k d)) = d := by
  ext j hj; simp only [fieldDuty, instrWord]; interval_cases j <;> simp

@[simp] theorem fieldLine_pwmSetline (k : Nat) (l : LineDesc) :
    fieldLine (instrWord (.pwmSetline k l)) = lineToBits l := by
  ext j hj; simp only [fieldLine, instrWord]; interval_cases j <;> simp

@[simp] theorem fieldOp_pwmInit (k : Nat) (d : BitVec 16) (l : LineDesc) : fieldOp (instrWord (.pwmInit k d l)) = 1 := by
  ext j hj; simp only [fieldOp, instrWord]; interval_cases j <;> simp

@[simp] theorem fieldOp_pwmSetduty (k : Nat) (d : BitVec 16) : fieldOp (instrWord (.pwmSetduty k d)) = 2 := by
  ext j hj; simp only [fieldOp, instrWord]; interval_cases j <;> simp

@[simp] theorem fieldOp_pwmSetline (k : Nat) (l : LineDesc) : fieldOp (instrWord (.pwmSetline k l)) = 3 := by
  ext j hj; simp only [fieldOp, instrWord]; interval_cases j <;> simp

/-! ### The tables by opcode -/

/-- A word that a mask with bits [3:0] set takes to a pattern has the pattern's opcode (R102). -/
theorem fieldOp_of_match {w mask pattern : Word} (h : w &&& mask = pattern) (hm : mask.extractLsb' 0 4 = 0xF) :
    fieldOp w = pattern.extractLsb' 0 4 := by
  subst h
  ext j hj
  have hj' : mask.getLsbD j = true := by
    have := congrArg (fun v => v.getLsbD j) hm
    interval_cases j <;> simpa using this
  simp [fieldOp, hj']

/-- What the I2C table says of a word, by its opcode: the one row with that opcode, or none (R102). -/
theorem decodeRow_i2c (w : Word) : decodeRow i2cTable w =
    if w = 1 then some .start else if w = 2 then some .rstart else if w = 3 then some .stop
    else if w &&& 0xFFFF00FF = 4 then some .wrbyte else if w &&& 0xFFFFFFDF = 5 then some .rdbyte
    else if w &&& 0x0000FFEF = 6 then some .wrframe else if w &&& 0x0000FFEF = 7 then some .rdframe
    else none := by
  have full : w &&& 0xFFFFFFFF#32 = w := by
    ext j hj; interval_cases j <;> simp
  simp only [i2cTable, decodeRow, BitVec.ofNat_eq_ofNat] at *
  rw [full]

/-- What the PWM table says of a word, by its opcode (R105). -/
theorem decodeRow_pwm (w : Word) : decodeRow pwmTable w =
    if w &&& 0x0000000F = 1 then some .init else if w &&& 0x0000FFFF = 2 then some .setduty
    else if w &&& 0xFFFF000F = 3 then some .setline else if w = 4 then some .start else if w = 5 then some .pause
    else if w = 6 then some .resume else if w = 7 then some .stop else none := by
  have full : w &&& 0xFFFFFFFF#32 = w := by
    ext j hj; interval_cases j <;> simp
  simp only [pwmTable, decodeRow, BitVec.ofNat_eq_ofNat] at *
  rw [full]

end Sys2Proof
end

