-- ==== Sys2Proof/Laws/State.lean ====
section
/-! SUPPORT. What each update of the state leaves and what it writes: one lemma per field per update, so that no proof
unfolds a record update. -/

namespace Sys2Proof.Machine

open Sys2Proof

/-! `portNext s` -/

@[simp] theorem portNext_cfg (s : State) : (portNext s).cfg = s.cfg := by unfold portNext; split <;> rfl
@[simp] theorem portNext_i2c (s : State) : (portNext s).i2c = s.i2c := by unfold portNext; split <;> rfl
@[simp] theorem portNext_buf (s : State) : (portNext s).buf = s.buf := by unfold portNext; split <;> rfl
@[simp] theorem portNext_chans (s : State) : (portNext s).chans = s.chans := by unfold portNext; split <;> rfl
@[simp] theorem portNext_tickNo (s : State) : (portNext s).tickNo = s.tickNo := by unfold portNext; split <;> rfl
@[simp] theorem portNext_due (s : State) : (portNext s).due = s.due := by unfold portNext; split <;> rfl
@[simp] theorem portNext_rdata (s : State) : (portNext s).rdata = s.rdata := by unfold portNext; split <;> rfl
@[simp] theorem portNext_faults (s : State) : (portNext s).faults = s.faults := by unfold portNext; split <;> rfl
@[simp] theorem portNext_trace (s : State) : (portNext s).trace = s.trace := by unfold portNext; split <;> rfl
@[simp] theorem portNext_agenda (s : State) : (portNext s).agenda = s.agenda := by unfold portNext; split <;> rfl

/-! `lineWrite who l v s` -/

@[simp] theorem lineWrite_cfg (who : Agent) (l : LineDesc) (v : Bool) (s : State) :
    (lineWrite who l v s).cfg = s.cfg := by simp [lineWrite]
@[simp] theorem lineWrite_i2c (who : Agent) (l : LineDesc) (v : Bool) (s : State) :
    (lineWrite who l v s).i2c = s.i2c := by simp [lineWrite]
@[simp] theorem lineWrite_buf (who : Agent) (l : LineDesc) (v : Bool) (s : State) :
    (lineWrite who l v s).buf = s.buf := by simp [lineWrite]
@[simp] theorem lineWrite_chans (who : Agent) (l : LineDesc) (v : Bool) (s : State) :
    (lineWrite who l v s).chans = s.chans := by simp [lineWrite]
@[simp] theorem lineWrite_tickNo (who : Agent) (l : LineDesc) (v : Bool) (s : State) :
    (lineWrite who l v s).tickNo = s.tickNo := by simp [lineWrite]
@[simp] theorem lineWrite_due (who : Agent) (l : LineDesc) (v : Bool) (s : State) :
    (lineWrite who l v s).due = s.due := by simp [lineWrite]
@[simp] theorem lineWrite_rdata (who : Agent) (l : LineDesc) (v : Bool) (s : State) :
    (lineWrite who l v s).rdata = s.rdata := by simp [lineWrite]
@[simp] theorem lineWrite_faults (who : Agent) (l : LineDesc) (v : Bool) (s : State) :
    (lineWrite who l v s).faults = s.faults := by simp [lineWrite]
@[simp] theorem lineWrite_agenda (who : Agent) (l : LineDesc) (v : Bool) (s : State) :
    (lineWrite who l v s).agenda = s.agenda := by simp [lineWrite]
@[simp] theorem lineWrite_trace (who : Agent) (l : LineDesc) (v : Bool) (s : State) :
    (lineWrite who l v s).trace = ⟨who, l, .write, v, portValue s, some (lineStore l (portValue s) v)⟩ :: s.trace := by simp [lineWrite]
@[simp] theorem lineWrite_portIn (who : Agent) (l : LineDesc) (v : Bool) (s : State) :
    (lineWrite who l v s).portIn = (portNext s).portIn := rfl

/-! `lineReadNext who l s` -/

@[simp] theorem lineReadNext_cfg (who : Agent) (l : LineDesc) (s : State) :
    (lineReadNext who l s).cfg = s.cfg := by simp [lineReadNext]
@[simp] theorem lineReadNext_i2c (who : Agent) (l : LineDesc) (s : State) :
    (lineReadNext who l s).i2c = s.i2c := by simp [lineReadNext]
@[simp] theorem lineReadNext_buf (who : Agent) (l : LineDesc) (s : State) :
    (lineReadNext who l s).buf = s.buf := by simp [lineReadNext]
@[simp] theorem lineReadNext_chans (who : Agent) (l : LineDesc) (s : State) :
    (lineReadNext who l s).chans = s.chans := by simp [lineReadNext]
@[simp] theorem lineReadNext_tickNo (who : Agent) (l : LineDesc) (s : State) :
    (lineReadNext who l s).tickNo = s.tickNo := by simp [lineReadNext]
@[simp] theorem lineReadNext_due (who : Agent) (l : LineDesc) (s : State) :
    (lineReadNext who l s).due = s.due := by simp [lineReadNext]
@[simp] theorem lineReadNext_rdata (who : Agent) (l : LineDesc) (s : State) :
    (lineReadNext who l s).rdata = s.rdata := by simp [lineReadNext]
@[simp] theorem lineReadNext_faults (who : Agent) (l : LineDesc) (s : State) :
    (lineReadNext who l s).faults = s.faults := by simp [lineReadNext]
@[simp] theorem lineReadNext_agenda (who : Agent) (l : LineDesc) (s : State) :
    (lineReadNext who l s).agenda = s.agenda := by simp [lineReadNext]
@[simp] theorem lineReadNext_trace (who : Agent) (l : LineDesc) (s : State) :
    (lineReadNext who l s).trace = ⟨who, l, .read, lineReadValue l s, portValue s, none⟩ :: s.trace := by simp [lineReadNext, lineReadValue]
@[simp] theorem lineReadNext_portIn (who : Agent) (l : LineDesc) (s : State) :
    (lineReadNext who l s).portIn = (portNext s).portIn := rfl

/-! `raiseReject (.i2c e) s` -/

@[simp] theorem raiseReject_i2c_cfg (e : I2cErr) (s : State) : (raiseReject (.i2c e) s).cfg = s.cfg := rfl
@[simp] theorem raiseReject_i2c_i2c (e : I2cErr) (s : State) :
    (raiseReject (.i2c e) s).i2c = { s.i2c with err := e } := rfl
@[simp] theorem raiseReject_i2c_buf (e : I2cErr) (s : State) : (raiseReject (.i2c e) s).buf = s.buf := rfl
@[simp] theorem raiseReject_i2c_chans (e : I2cErr) (s : State) : (raiseReject (.i2c e) s).chans = s.chans := rfl
@[simp] theorem raiseReject_i2c_tickNo (e : I2cErr) (s : State) : (raiseReject (.i2c e) s).tickNo = s.tickNo := rfl
@[simp] theorem raiseReject_i2c_due (e : I2cErr) (s : State) : (raiseReject (.i2c e) s).due = s.due := rfl
@[simp] theorem raiseReject_i2c_rdata (e : I2cErr) (s : State) : (raiseReject (.i2c e) s).rdata = s.rdata := rfl
@[simp] theorem raiseReject_i2c_faults (e : I2cErr) (s : State) : (raiseReject (.i2c e) s).faults = s.faults := rfl
@[simp] theorem raiseReject_i2c_trace (e : I2cErr) (s : State) : (raiseReject (.i2c e) s).trace = s.trace := rfl
@[simp] theorem raiseReject_i2c_agenda (e : I2cErr) (s : State) : (raiseReject (.i2c e) s).agenda = s.agenda := rfl
@[simp] theorem raiseReject_i2c_portIn (e : I2cErr) (s : State) : (raiseReject (.i2c e) s).portIn = s.portIn := rfl
@[simp] theorem raiseReject_i2c_freeCount (e : I2cErr) (s : State) :
    (raiseReject (.i2c e) s).freeCount = s.freeCount := rfl

/-! `raiseReject (.pwm k e) s` -/

@[simp] theorem raiseReject_pwm_cfg (k : Nat) (e : PwmErr) (s : State) : (raiseReject (.pwm k e) s).cfg = s.cfg := rfl
@[simp] theorem raiseReject_pwm_i2c (k : Nat) (e : PwmErr) (s : State) : (raiseReject (.pwm k e) s).i2c = s.i2c := rfl
@[simp] theorem raiseReject_pwm_buf (k : Nat) (e : PwmErr) (s : State) : (raiseReject (.pwm k e) s).buf = s.buf := rfl
@[simp] theorem raiseReject_pwm_chans (k : Nat) (e : PwmErr) (s : State) :
    (raiseReject (.pwm k e) s).chans = s.chans.modify k fun c => { c with err := e } := rfl
@[simp] theorem raiseReject_pwm_tickNo (k : Nat) (e : PwmErr) (s : State) :
    (raiseReject (.pwm k e) s).tickNo = s.tickNo := rfl
@[simp] theorem raiseReject_pwm_due (k : Nat) (e : PwmErr) (s : State) : (raiseReject (.pwm k e) s).due = s.due := rfl
@[simp] theorem raiseReject_pwm_rdata (k : Nat) (e : PwmErr) (s : State) :
    (raiseReject (.pwm k e) s).rdata = s.rdata := rfl
@[simp] theorem raiseReject_pwm_faults (k : Nat) (e : PwmErr) (s : State) :
    (raiseReject (.pwm k e) s).faults = s.faults := rfl
@[simp] theorem raiseReject_pwm_trace (k : Nat) (e : PwmErr) (s : State) :
    (raiseReject (.pwm k e) s).trace = s.trace := rfl
@[simp] theorem raiseReject_pwm_agenda (k : Nat) (e : PwmErr) (s : State) :
    (raiseReject (.pwm k e) s).agenda = s.agenda := rfl
@[simp] theorem raiseReject_pwm_portIn (k : Nat) (e : PwmErr) (s : State) :
    (raiseReject (.pwm k e) s).portIn = s.portIn := rfl
@[simp] theorem raiseReject_pwm_freeCount (k : Nat) (e : PwmErr) (s : State) :
    (raiseReject (.pwm k e) s).freeCount = s.freeCount := rfl

/-! `answer v s` -/

@[simp] theorem answer_cfg (v : Word) (s : State) : (answer v s).cfg = s.cfg := rfl
@[simp] theorem answer_i2c (v : Word) (s : State) : (answer v s).i2c = s.i2c := rfl
@[simp] theorem answer_buf (v : Word) (s : State) : (answer v s).buf = s.buf := rfl
@[simp] theorem answer_chans (v : Word) (s : State) : (answer v s).chans = s.chans := rfl
@[simp] theorem answer_tickNo (v : Word) (s : State) : (answer v s).tickNo = s.tickNo := rfl
@[simp] theorem answer_due (v : Word) (s : State) : (answer v s).due = s.due := rfl
@[simp] theorem answer_rdata (v : Word) (s : State) : (answer v s).rdata = v := rfl
@[simp] theorem answer_faults (v : Word) (s : State) : (answer v s).faults = s.faults := rfl
@[simp] theorem answer_trace (v : Word) (s : State) : (answer v s).trace = s.trace := rfl
@[simp] theorem answer_agenda (v : Word) (s : State) : (answer v s).agenda = s.agenda := rfl
@[simp] theorem answer_portIn (v : Word) (s : State) : (answer v s).portIn = s.portIn := rfl
@[simp] theorem answer_freeCount (v : Word) (s : State) : (answer v s).freeCount = s.freeCount := rfl

/-! `signalFault f s` -/

@[simp] theorem signalFault_cfg (f : Fault) (s : State) : (signalFault f s).cfg = s.cfg := rfl
@[simp] theorem signalFault_i2c (f : Fault) (s : State) : (signalFault f s).i2c = s.i2c := rfl
@[simp] theorem signalFault_buf (f : Fault) (s : State) : (signalFault f s).buf = s.buf := rfl
@[simp] theorem signalFault_chans (f : Fault) (s : State) : (signalFault f s).chans = s.chans := rfl
@[simp] theorem signalFault_tickNo (f : Fault) (s : State) : (signalFault f s).tickNo = s.tickNo := rfl
@[simp] theorem signalFault_due (f : Fault) (s : State) : (signalFault f s).due = s.due := rfl
@[simp] theorem signalFault_rdata (f : Fault) (s : State) : (signalFault f s).rdata = s.rdata := rfl
@[simp] theorem signalFault_trace (f : Fault) (s : State) : (signalFault f s).trace = s.trace := rfl
@[simp] theorem signalFault_agenda (f : Fault) (s : State) : (signalFault f s).agenda = s.agenda := rfl
@[simp] theorem signalFault_portIn (f : Fault) (s : State) : (signalFault f s).portIn = s.portIn := rfl
@[simp] theorem signalFault_freeCount (f : Fault) (s : State) : (signalFault f s).freeCount = s.freeCount := rfl
@[simp] theorem signalFault_faults (f : Fault) (s : State) : (signalFault f s).faults = f :: s.faults := rfl

/-! `setChannel k c s` -/

@[simp] theorem setChannel_cfg (k : Nat) (c : Channel) (s : State) : (setChannel k c s).cfg = s.cfg := rfl
@[simp] theorem setChannel_i2c (k : Nat) (c : Channel) (s : State) : (setChannel k c s).i2c = s.i2c := rfl
@[simp] theorem setChannel_buf (k : Nat) (c : Channel) (s : State) : (setChannel k c s).buf = s.buf := rfl
@[simp] theorem setChannel_chans (k : Nat) (c : Channel) (s : State) :
    (setChannel k c s).chans = s.chans.set k c := rfl
@[simp] theorem setChannel_tickNo (k : Nat) (c : Channel) (s : State) : (setChannel k c s).tickNo = s.tickNo := rfl
@[simp] theorem setChannel_due (k : Nat) (c : Channel) (s : State) : (setChannel k c s).due = s.due := rfl
@[simp] theorem setChannel_rdata (k : Nat) (c : Channel) (s : State) : (setChannel k c s).rdata = s.rdata := rfl
@[simp] theorem setChannel_faults (k : Nat) (c : Channel) (s : State) : (setChannel k c s).faults = s.faults := rfl
@[simp] theorem setChannel_trace (k : Nat) (c : Channel) (s : State) : (setChannel k c s).trace = s.trace := rfl
@[simp] theorem setChannel_agenda (k : Nat) (c : Channel) (s : State) : (setChannel k c s).agenda = s.agenda := rfl
@[simp] theorem setChannel_portIn (k : Nat) (c : Channel) (s : State) : (setChannel k c s).portIn = s.portIn := rfl
@[simp] theorem setChannel_freeCount (k : Nat) (c : Channel) (s : State) :
    (setChannel k c s).freeCount = s.freeCount := rfl

/-! `acceptI2c w st s` -/

@[simp] theorem acceptI2c_cfg (w : Word) (st : Stage) (s : State) : (acceptI2c w st s).cfg = s.cfg := rfl
@[simp] theorem acceptI2c_i2c (w : Word) (st : Stage) (s : State) :
    (acceptI2c w st s).i2c = { s.i2c with cur := w, busy := true, err := .ok, pos := ⟨st, []⟩ } := rfl
@[simp] theorem acceptI2c_buf (w : Word) (st : Stage) (s : State) : (acceptI2c w st s).buf = s.buf := rfl
@[simp] theorem acceptI2c_chans (w : Word) (st : Stage) (s : State) : (acceptI2c w st s).chans = s.chans := rfl
@[simp] theorem acceptI2c_tickNo (w : Word) (st : Stage) (s : State) : (acceptI2c w st s).tickNo = s.tickNo := rfl
@[simp] theorem acceptI2c_due (w : Word) (st : Stage) (s : State) : (acceptI2c w st s).due = s.due := rfl
@[simp] theorem acceptI2c_rdata (w : Word) (st : Stage) (s : State) : (acceptI2c w st s).rdata = s.rdata := rfl
@[simp] theorem acceptI2c_faults (w : Word) (st : Stage) (s : State) : (acceptI2c w st s).faults = s.faults := rfl
@[simp] theorem acceptI2c_trace (w : Word) (st : Stage) (s : State) : (acceptI2c w st s).trace = s.trace := rfl
@[simp] theorem acceptI2c_agenda (w : Word) (st : Stage) (s : State) : (acceptI2c w st s).agenda = s.agenda := rfl
@[simp] theorem acceptI2c_portIn (w : Word) (st : Stage) (s : State) : (acceptI2c w st s).portIn = s.portIn := rfl
@[simp] theorem acceptI2c_freeCount (w : Word) (st : Stage) (s : State) :
    (acceptI2c w st s).freeCount = s.freeCount := rfl

/-! `acceptFrame w s` -/

@[simp] theorem acceptFrame_cfg (w : Word) (s : State) : (acceptFrame w s).cfg = s.cfg := rfl
@[simp] theorem acceptFrame_i2c (w : Word) (s : State) :
    (acceptFrame w s).i2c = { s.i2c with cur := w, busy := true, err := .ok, result := false, xcnt := 0, pos := ⟨.frameStart, []⟩ } := rfl
@[simp] theorem acceptFrame_buf (w : Word) (s : State) : (acceptFrame w s).buf = s.buf := rfl
@[simp] theorem acceptFrame_chans (w : Word) (s : State) : (acceptFrame w s).chans = s.chans := rfl
@[simp] theorem acceptFrame_tickNo (w : Word) (s : State) : (acceptFrame w s).tickNo = s.tickNo := rfl
@[simp] theorem acceptFrame_due (w : Word) (s : State) : (acceptFrame w s).due = s.due := rfl
@[simp] theorem acceptFrame_rdata (w : Word) (s : State) : (acceptFrame w s).rdata = s.rdata := rfl
@[simp] theorem acceptFrame_faults (w : Word) (s : State) : (acceptFrame w s).faults = s.faults := rfl
@[simp] theorem acceptFrame_trace (w : Word) (s : State) : (acceptFrame w s).trace = s.trace := rfl
@[simp] theorem acceptFrame_agenda (w : Word) (s : State) : (acceptFrame w s).agenda = s.agenda := rfl
@[simp] theorem acceptFrame_portIn (w : Word) (s : State) : (acceptFrame w s).portIn = s.portIn := rfl
@[simp] theorem acceptFrame_freeCount (w : Word) (s : State) : (acceptFrame w s).freeCount = s.freeCount := rfl

/-! `enterStage st s` -/

@[simp] theorem enterStage_cfg (st : Stage) (s : State) : (enterStage st s).cfg = s.cfg := rfl
@[simp] theorem enterStage_i2c (st : Stage) (s : State) :
    (enterStage st s).i2c = { s.i2c with pos := ⟨st, []⟩ } := rfl
@[simp] theorem enterStage_buf (st : Stage) (s : State) : (enterStage st s).buf = s.buf := rfl
@[simp] theorem enterStage_chans (st : Stage) (s : State) : (enterStage st s).chans = s.chans := rfl
@[simp] theorem enterStage_tickNo (st : Stage) (s : State) : (enterStage st s).tickNo = s.tickNo := rfl
@[simp] theorem enterStage_due (st : Stage) (s : State) : (enterStage st s).due = s.due := rfl
@[simp] theorem enterStage_rdata (st : Stage) (s : State) : (enterStage st s).rdata = s.rdata := rfl
@[simp] theorem enterStage_faults (st : Stage) (s : State) : (enterStage st s).faults = s.faults := rfl
@[simp] theorem enterStage_trace (st : Stage) (s : State) : (enterStage st s).trace = s.trace := rfl
@[simp] theorem enterStage_agenda (st : Stage) (s : State) : (enterStage st s).agenda = s.agenda := rfl
@[simp] theorem enterStage_portIn (st : Stage) (s : State) : (enterStage st s).portIn = s.portIn := rfl
@[simp] theorem enterStage_freeCount (st : Stage) (s : State) : (enterStage st s).freeCount = s.freeCount := rfl

/-! `endCommand s` -/

@[simp] theorem endCommand_cfg (s : State) : (endCommand s).cfg = s.cfg := rfl
@[simp] theorem endCommand_i2c (s : State) : (endCommand s).i2c = { s.i2c with busy := false } := rfl
@[simp] theorem endCommand_buf (s : State) : (endCommand s).buf = s.buf := rfl
@[simp] theorem endCommand_chans (s : State) : (endCommand s).chans = s.chans := rfl
@[simp] theorem endCommand_tickNo (s : State) : (endCommand s).tickNo = s.tickNo := rfl
@[simp] theorem endCommand_due (s : State) : (endCommand s).due = s.due := rfl
@[simp] theorem endCommand_rdata (s : State) : (endCommand s).rdata = s.rdata := rfl
@[simp] theorem endCommand_faults (s : State) : (endCommand s).faults = s.faults := rfl
@[simp] theorem endCommand_trace (s : State) : (endCommand s).trace = s.trace := rfl
@[simp] theorem endCommand_agenda (s : State) : (endCommand s).agenda = s.agenda := rfl
@[simp] theorem endCommand_portIn (s : State) : (endCommand s).portIn = s.portIn := rfl
@[simp] theorem endCommand_freeCount (s : State) : (endCommand s).freeCount = s.freeCount := rfl

/-! `setAck r s` -/

@[simp] theorem setAck_cfg (r : Bool) (s : State) : (setAck r s).cfg = s.cfg := rfl
@[simp] theorem setAck_i2c (r : Bool) (s : State) : (setAck r s).i2c = { s.i2c with ack := !r } := rfl
@[simp] theorem setAck_buf (r : Bool) (s : State) : (setAck r s).buf = s.buf := rfl
@[simp] theorem setAck_chans (r : Bool) (s : State) : (setAck r s).chans = s.chans := rfl
@[simp] theorem setAck_tickNo (r : Bool) (s : State) : (setAck r s).tickNo = s.tickNo := rfl
@[simp] theorem setAck_due (r : Bool) (s : State) : (setAck r s).due = s.due := rfl
@[simp] theorem setAck_rdata (r : Bool) (s : State) : (setAck r s).rdata = s.rdata := rfl
@[simp] theorem setAck_faults (r : Bool) (s : State) : (setAck r s).faults = s.faults := rfl
@[simp] theorem setAck_trace (r : Bool) (s : State) : (setAck r s).trace = s.trace := rfl
@[simp] theorem setAck_agenda (r : Bool) (s : State) : (setAck r s).agenda = s.agenda := rfl
@[simp] theorem setAck_portIn (r : Bool) (s : State) : (setAck r s).portIn = s.portIn := rfl
@[simp] theorem setAck_freeCount (r : Bool) (s : State) : (setAck r s).freeCount = s.freeCount := rfl

/-! `setRxbyte x s` -/

@[simp] theorem setRxbyte_cfg (x : Byte) (s : State) : (setRxbyte x s).cfg = s.cfg := rfl
@[simp] theorem setRxbyte_i2c (x : Byte) (s : State) : (setRxbyte x s).i2c = { s.i2c with rxbyte := x } := rfl
@[simp] theorem setRxbyte_buf (x : Byte) (s : State) : (setRxbyte x s).buf = s.buf := rfl
@[simp] theorem setRxbyte_chans (x : Byte) (s : State) : (setRxbyte x s).chans = s.chans := rfl
@[simp] theorem setRxbyte_tickNo (x : Byte) (s : State) : (setRxbyte x s).tickNo = s.tickNo := rfl
@[simp] theorem setRxbyte_due (x : Byte) (s : State) : (setRxbyte x s).due = s.due := rfl
@[simp] theorem setRxbyte_rdata (x : Byte) (s : State) : (setRxbyte x s).rdata = s.rdata := rfl
@[simp] theorem setRxbyte_faults (x : Byte) (s : State) : (setRxbyte x s).faults = s.faults := rfl
@[simp] theorem setRxbyte_trace (x : Byte) (s : State) : (setRxbyte x s).trace = s.trace := rfl
@[simp] theorem setRxbyte_agenda (x : Byte) (s : State) : (setRxbyte x s).agenda = s.agenda := rfl
@[simp] theorem setRxbyte_portIn (x : Byte) (s : State) : (setRxbyte x s).portIn = s.portIn := rfl
@[simp] theorem setRxbyte_freeCount (x : Byte) (s : State) : (setRxbyte x s).freeCount = s.freeCount := rfl

/-! `setXcnt n s` -/

@[simp] theorem setXcnt_cfg (n : Nat) (s : State) : (setXcnt n s).cfg = s.cfg := rfl
@[simp] theorem setXcnt_i2c (n : Nat) (s : State) : (setXcnt n s).i2c = { s.i2c with xcnt := BitVec.ofNat 9 n } := rfl
@[simp] theorem setXcnt_buf (n : Nat) (s : State) : (setXcnt n s).buf = s.buf := rfl
@[simp] theorem setXcnt_chans (n : Nat) (s : State) : (setXcnt n s).chans = s.chans := rfl
@[simp] theorem setXcnt_tickNo (n : Nat) (s : State) : (setXcnt n s).tickNo = s.tickNo := rfl
@[simp] theorem setXcnt_due (n : Nat) (s : State) : (setXcnt n s).due = s.due := rfl
@[simp] theorem setXcnt_rdata (n : Nat) (s : State) : (setXcnt n s).rdata = s.rdata := rfl
@[simp] theorem setXcnt_faults (n : Nat) (s : State) : (setXcnt n s).faults = s.faults := rfl
@[simp] theorem setXcnt_trace (n : Nat) (s : State) : (setXcnt n s).trace = s.trace := rfl
@[simp] theorem setXcnt_agenda (n : Nat) (s : State) : (setXcnt n s).agenda = s.agenda := rfl
@[simp] theorem setXcnt_portIn (n : Nat) (s : State) : (setXcnt n s).portIn = s.portIn := rfl
@[simp] theorem setXcnt_freeCount (n : Nat) (s : State) : (setXcnt n s).freeCount = s.freeCount := rfl

/-! `setEntry j b s` -/

@[simp] theorem setEntry_cfg (j : Nat) (b : Byte) (s : State) : (setEntry j b s).cfg = s.cfg := rfl
@[simp] theorem setEntry_i2c (j : Nat) (b : Byte) (s : State) : (setEntry j b s).i2c = s.i2c := rfl
@[simp] theorem setEntry_buf (j : Nat) (b : Byte) (s : State) : (setEntry j b s).buf = Memory.write s.buf j b := rfl
@[simp] theorem setEntry_chans (j : Nat) (b : Byte) (s : State) : (setEntry j b s).chans = s.chans := rfl
@[simp] theorem setEntry_tickNo (j : Nat) (b : Byte) (s : State) : (setEntry j b s).tickNo = s.tickNo := rfl
@[simp] theorem setEntry_due (j : Nat) (b : Byte) (s : State) : (setEntry j b s).due = s.due := rfl
@[simp] theorem setEntry_rdata (j : Nat) (b : Byte) (s : State) : (setEntry j b s).rdata = s.rdata := rfl
@[simp] theorem setEntry_faults (j : Nat) (b : Byte) (s : State) : (setEntry j b s).faults = s.faults := rfl
@[simp] theorem setEntry_trace (j : Nat) (b : Byte) (s : State) : (setEntry j b s).trace = s.trace := rfl
@[simp] theorem setEntry_agenda (j : Nat) (b : Byte) (s : State) : (setEntry j b s).agenda = s.agenda := rfl
@[simp] theorem setEntry_portIn (j : Nat) (b : Byte) (s : State) : (setEntry j b s).portIn = s.portIn := rfl
@[simp] theorem setEntry_freeCount (j : Nat) (b : Byte) (s : State) : (setEntry j b s).freeCount = s.freeCount := rfl

/-! `setTodo l s` -/

@[simp] theorem setTodo_cfg (l : List BusAction) (s : State) : (setTodo l s).cfg = s.cfg := rfl
@[simp] theorem setTodo_i2c (l : List BusAction) (s : State) :
    (setTodo l s).i2c = { s.i2c with pos := { s.i2c.pos with todo := l } } := rfl
@[simp] theorem setTodo_buf (l : List BusAction) (s : State) : (setTodo l s).buf = s.buf := rfl
@[simp] theorem setTodo_chans (l : List BusAction) (s : State) : (setTodo l s).chans = s.chans := rfl
@[simp] theorem setTodo_tickNo (l : List BusAction) (s : State) : (setTodo l s).tickNo = s.tickNo := rfl
@[simp] theorem setTodo_due (l : List BusAction) (s : State) : (setTodo l s).due = s.due := rfl
@[simp] theorem setTodo_rdata (l : List BusAction) (s : State) : (setTodo l s).rdata = s.rdata := rfl
@[simp] theorem setTodo_faults (l : List BusAction) (s : State) : (setTodo l s).faults = s.faults := rfl
@[simp] theorem setTodo_trace (l : List BusAction) (s : State) : (setTodo l s).trace = s.trace := rfl
@[simp] theorem setTodo_agenda (l : List BusAction) (s : State) : (setTodo l s).agenda = s.agenda := rfl
@[simp] theorem setTodo_portIn (l : List BusAction) (s : State) : (setTodo l s).portIn = s.portIn := rfl
@[simp] theorem setTodo_freeCount (l : List BusAction) (s : State) : (setTodo l s).freeCount = s.freeCount := rfl

/-! `takeEvent s` -/

@[simp] theorem takeEvent_cfg (s : State) : (takeEvent s).cfg = s.cfg := by unfold takeEvent; split <;> rfl
@[simp] theorem takeEvent_i2c (s : State) : (takeEvent s).i2c = s.i2c := by unfold takeEvent; split <;> rfl
@[simp] theorem takeEvent_buf (s : State) : (takeEvent s).buf = s.buf := by unfold takeEvent; split <;> rfl
@[simp] theorem takeEvent_chans (s : State) : (takeEvent s).chans = s.chans := by unfold takeEvent; split <;> rfl
@[simp] theorem takeEvent_tickNo (s : State) : (takeEvent s).tickNo = s.tickNo := by unfold takeEvent; split <;> rfl
@[simp] theorem takeEvent_due (s : State) : (takeEvent s).due = s.due := by unfold takeEvent; split <;> rfl
@[simp] theorem takeEvent_rdata (s : State) : (takeEvent s).rdata = s.rdata := by unfold takeEvent; split <;> rfl
@[simp] theorem takeEvent_faults (s : State) : (takeEvent s).faults = s.faults := by unfold takeEvent; split <;> rfl
@[simp] theorem takeEvent_trace (s : State) : (takeEvent s).trace = s.trace := by unfold takeEvent; split <;> rfl
@[simp] theorem takeEvent_portIn (s : State) : (takeEvent s).portIn = s.portIn := by unfold takeEvent; split <;> rfl

/-! `resetBlock s` -/

@[simp] theorem resetBlock_cfg (s : State) : (resetBlock s).cfg = s.cfg := rfl
@[simp] theorem resetBlock_i2c (s : State) : (resetBlock s).i2c = I2c.reset := rfl
@[simp] theorem resetBlock_buf (s : State) : (resetBlock s).buf = [] := rfl
@[simp] theorem resetBlock_chans (s : State) :
    (resetBlock s).chans = List.replicate s.cfg.nPwm (Channel.reset s.cfg.tickHz) := rfl
@[simp] theorem resetBlock_tickNo (s : State) : (resetBlock s).tickNo = 0 := rfl
@[simp] theorem resetBlock_due (s : State) : (resetBlock s).due = [] := rfl
@[simp] theorem resetBlock_rdata (s : State) : (resetBlock s).rdata = s.rdata := rfl
@[simp] theorem resetBlock_faults (s : State) : (resetBlock s).faults = s.faults := rfl
@[simp] theorem resetBlock_trace (s : State) : (resetBlock s).trace = s.trace := rfl
@[simp] theorem resetBlock_agenda (s : State) : (resetBlock s).agenda = s.agenda := rfl
@[simp] theorem resetBlock_portIn (s : State) : (resetBlock s).portIn = s.portIn := rfl
@[simp] theorem resetBlock_freeCount (s : State) : (resetBlock s).freeCount = s.freeCount := rfl

/-! `performAction a s` -/

@[simp] theorem performAction_cfg (a : BusAction) (s : State) :
    (performAction a s).cfg = s.cfg := by cases a <;> simp [performAction]
@[simp] theorem performAction_buf (a : BusAction) (s : State) :
    (performAction a s).buf = s.buf := by cases a <;> simp [performAction]
@[simp] theorem performAction_chans (a : BusAction) (s : State) :
    (performAction a s).chans = s.chans := by cases a <;> simp [performAction]
@[simp] theorem performAction_tickNo (a : BusAction) (s : State) :
    (performAction a s).tickNo = s.tickNo := by cases a <;> simp [performAction]
@[simp] theorem performAction_due (a : BusAction) (s : State) :
    (performAction a s).due = s.due := by cases a <;> simp [performAction]
@[simp] theorem performAction_rdata (a : BusAction) (s : State) :
    (performAction a s).rdata = s.rdata := by cases a <;> simp [performAction]
@[simp] theorem performAction_faults (a : BusAction) (s : State) :
    (performAction a s).faults = s.faults := by cases a <;> simp [performAction]
@[simp] theorem performAction_agenda (a : BusAction) (s : State) :
    (performAction a s).agenda = s.agenda := by cases a <;> simp [performAction]

/-- What a line action of the engine does to the engine's registers: a sample goes to the stage's local, and nothing else
changes. -/
theorem performAction_i2c (a : BusAction) (s : State) : (performAction a s).i2c =
    match a with
    | .drive _ _ => s.i2c
    | .sample =>
      { s.i2c with pos := { s.i2c.pos with stage := stageSample (lineReadValue s.cfg.sda s) s.i2c.pos.stage } } := by
  cases a <;> simp [performAction]

@[simp] theorem performAction_drive_i2c (w : Wire) (v : Bool) (s : State) :
    (performAction (.drive w v) s).i2c = s.i2c := by simp [performAction_i2c]

@[simp] theorem performAction_sample_i2c (s : State) : (performAction .sample s).i2c =
    { s.i2c with pos := { s.i2c.pos with stage := stageSample (lineReadValue s.cfg.sda s) s.i2c.pos.stage } } := by
  simp [performAction_i2c]

end Sys2Proof.Machine
end

