-- ==== Sys2Proof/Laws/Effects.lean ====
section
/-! SUPPORT. What a step can do, said once: the effect of a host access, of an engine step and of a tick step, as closed
lists of cases that proofs split instead of unfolding the meanings. -/

namespace Sys2Proof.Machine

open Sys2Proof Host

/-! ### Channels -/

theorem raiseReject_pwm_eq {s : State} {k : Nat} {c : Channel} (hk : s.chans[k]? = some c) (e : PwmErr) :
    raiseReject (.pwm k e) s = setChannel k { c with err := e } s := by
  obtain ⟨h, rfl⟩ := List.getElem?_eq_some_iff.1 hk
  simp only [raiseReject, setChannel, List.modify_eq_set_getElem?]
  simp [h]

/-- An access to a channel's register gives a next state: `f` of the channel, or the fault signalled where there is none. -/
theorem onChannel_next {k : Nat} {r : Reg} {s t : State} {f : Channel → State}
    (h : onChannel k r s f = .next t) :
    (∃ c, s.chans[k]? = some c ∧ t = f c) ∨ (s.chans[k]? = none ∧ t = signalFault (.badAccess (regAddr s.cfg r)) s) := by
  unfold onChannel at h
  split at h
  · exact .inl ⟨_, ‹_›, by simpa using h.symm⟩
  · exact .inr ⟨‹_›, by simpa using h.symm⟩

theorem onEntry_next {i : Nat} {s t u : State} (h : onEntry i s t = .next u) :
    (i < Config.frameMax ∧ u = t) ∨
      (Config.frameMax ≤ i ∧ u = signalFault (.badAccess (regAddr s.cfg (.i2cBuf i))) s) := by
  unfold onEntry at h
  split at h
  · exact .inl ⟨‹_›, by simpa using h.symm⟩
  · exact .inr ⟨by omega, by simpa using h.symm⟩

/-- What an accepted PWM command, or a write of the staging register, does to its channel (R190 to R196, R210 to R214). -/
inductive ChannelEffect (s : State) (k : Nat) (c : Channel) : Channel → Prop
  | init (d : BitVec 16) (l : LineDesc) (hl : s.cfg.supportsOutput l = true) (hd : dutyInRange d = true)
      (hp : c.periodArg ≠ 0) : ChannelEffect s k c
        { c with line := l, duty := d, period := c.periodArg, cfgValid := true, err := .ok }
  | setduty (d : BitVec 16) (hd : dutyInRange d = true) : ChannelEffect s k c { c with duty := d, err := .ok }
  | setline (l : LineDesc) (hl : s.cfg.supportsOutput l = true) : ChannelEffect s k c { c with line := l, err := .ok }
  | start (hv : c.cfgValid = true) (ha : c.active = false) (ho : ownedElsewhere k c.line s = false) :
      ChannelEffect s k c
        { c with sLine := c.line, sP := c.period, sOn := onTicks c.period c.duty, cnt := 0,
                 state := .running, err := .ok }
  | pause (hs : c.state = .running) (hp : c.stopPend = false) :
      ChannelEffect s k c { c with state := .paused, err := .ok }
  | resume (hs : c.state = .paused) (hp : c.stopPend = false) :
      ChannelEffect s k c { c with state := .running, err := .ok }
  | stop (ha : c.active = true) (hp : c.stopPend = false) : ChannelEffect s k c { c with stopPend := true, err := .ok }
  | periodArg (v : Word) : ChannelEffect s k c { c with periodArg := v }

/-- The word and the stage an accepted I2C command that is no frame starts with (R130 to R132, R150, R152). -/
inductive StartsAt : Word → Stage → Prop
  | start : StartsAt (instrWord .start) .start
  | rstart : StartsAt (instrWord .rstart) .rstart
  | stop : StartsAt (instrWord .stop) .stop
  | wrbyte (b : Byte) : StartsAt (instrWord (.wrbyte b)) (.sendByte false)
  | rdbyte (a : Bool) : StartsAt (instrWord (.rdbyte a)) (.recvByte 0)

/-- The word of an accepted frame: its LEN is legal (R174). -/
inductive FrameWord : Word → Prop
  | wrframe (len : BitVec 9) (addr : BitVec 7) (h : Bool) (hl : writeLenOk len = true) :
      FrameWord (instrWord (.wrframe len addr h))
  | rdframe (len : BitVec 9) (addr : BitVec 7) (h : Bool) (hl : readLenOk len = true) :
      FrameWord (instrWord (.rdframe len addr h))

/-- Everything an instruction can do when it gives a next state. -/
inductive ExecEffect (s : State) : Instr → State → Prop
  /-- an I2C command turned away -/
  | i2cRejected (i : Instr) (e : I2cErr) : ExecEffect s i (raiseReject (.i2c e) s)
  /-- a PWM command turned away -/
  | pwmRejected (i : Instr) (k : Nat) (c : Channel) (hk : s.chans[k]? = some c) (e : PwmErr) :
      ExecEffect s i (setChannel k { c with err := e } s)
  /-- an I2C command accepted -/
  | started (i : Instr) (w : Word) (st : Stage) (hb : s.i2c.busy = false) (hw : StartsAt w st) :
      ExecEffect s i (acceptI2c w st s)
  /-- a frame accepted -/
  | frameStarted (i : Instr) (w : Word) (hb : s.i2c.busy = false) (hw : FrameWord w) : ExecEffect s i (acceptFrame w s)
  /-- a read -/
  | answered (i : Instr) (v : Word) : ExecEffect s i (answer v s)
  /-- a register that does not exist -/
  | refused (i : Instr) (f : Fault) : ExecEffect s i (signalFault f s)
  /-- a read of the frame buffer turned away -/
  | bufReadRejected (i : Instr) : ExecEffect s i (answer 0 (raiseReject (.i2c .bufBusy) s))
  /-- a write to the frame buffer -/
  | stored (i : Instr) (j : Nat) (b : Byte) (hb : s.i2c.busy = false) (hj : j < Config.frameMax) :
      ExecEffect s i (setEntry j b s)
  /-- a PWM command accepted, or the staging register written; a START is of the channel the instruction names -/
  | channel (i : Instr) (k : Nat) (c c' : Channel) (hk : s.chans[k]? = some c) (hc : ChannelEffect s k c c')
      (hi : i = .pwmStart k ∨ (c'.sLine = c.sLine ∧ c'.sP = c.sP ∧ c'.sOn = c.sOn ∧
        (c.state = .stopped → c'.state = .stopped))) :
      ExecEffect s i (setChannel k c' s)

theorem presentI2c_cases (b : Bool) (s t : State) :
    presentI2c b s t = raiseReject (.i2c .busy) s ∨ presentI2c b s t = raiseReject (.i2c .badLength) s ∨
      (presentI2c b s t = t ∧ s.i2c.busy = false ∧ b = true) := by
  unfold presentI2c
  cases s.i2c.busy <;> cases b <;> simp

/-- What an instruction does when it gives a next state: one of the cases of `ExecEffect`. -/
theorem exec_effect {i : Instr} {s t : State} (h : exec i s = .next t) : ExecEffect s i t := by
  have present : ∀ {b : Bool} {a : State}, Outcome.next (φ := Fault) (ρ := Refusal) (presentI2c b s a) = .next t →
      (s.i2c.busy = false → b = true → ExecEffect s i a) → ExecEffect s i t := fun {b a} e ha => by
    obtain rfl : presentI2c b s a = t := by simpa using e
    rcases presentI2c_cases b s a with e | e | ⟨e, hb, hl⟩
    · rw [e]; exact .i2cRejected i _
    · rw [e]; exact .i2cRejected i _
    · rw [e]; exact ha hb hl
  cases i with
  | start => exact present h fun hb _ => .started _ _ _ hb .start
  | rstart => exact present h fun hb _ => .started _ _ _ hb .rstart
  | stop => exact present h fun hb _ => .started _ _ _ hb .stop
  | wrbyte b => exact present h fun hb _ => .started _ _ _ hb (.wrbyte b)
  | rdbyte a => exact present h fun hb _ => .started _ _ _ hb (.rdbyte a)
  | wrframe len addr hold => exact present h fun hb hl => .frameStarted _ _ hb (.wrframe len addr hold hl)
  | rdframe len addr hold => exact present h fun hb hl => .frameStarted _ _ hb (.rdframe len addr hold hl)
  | pwmInit k d l =>
    obtain ⟨c, hk, rfl⟩ | ⟨-, rfl⟩ := onChannel_next h
    rotate_left
    · exact .refused _ _
    simp only [raiseReject_pwm_eq hk]
    split_ifs with h1 h2 h3
    · exact .pwmRejected _ k c hk _
    · exact .pwmRejected _ k c hk _
    · exact .pwmRejected _ k c hk _
    · exact .channel _ k c _ hk (.init d l (by simpa using h1) (by simpa using h2) h3) (.inr ⟨rfl, rfl, rfl, id⟩)
  | pwmSetduty k d =>
    obtain ⟨c, hk, rfl⟩ | ⟨-, rfl⟩ := onChannel_next h
    rotate_left
    · exact .refused _ _
    simp only [raiseReject_pwm_eq hk]
    split_ifs with h1 h2
    · exact .pwmRejected _ k c hk _
    · exact .pwmRejected _ k c hk _
    · exact .channel _ k c _ hk (.setduty d (by simpa using h2)) (.inr ⟨rfl, rfl, rfl, id⟩)
  | pwmSetline k l =>
    obtain ⟨c, hk, rfl⟩ | ⟨-, rfl⟩ := onChannel_next h
    rotate_left
    · exact .refused _ _
    simp only [raiseReject_pwm_eq hk]
    split_ifs with h1 h2
    · exact .pwmRejected _ k c hk _
    · exact .pwmRejected _ k c hk _
    · exact .channel _ k c _ hk (.setline l (by simpa using h2)) (.inr ⟨rfl, rfl, rfl, id⟩)
  | pwmStart k =>
    obtain ⟨c, hk, rfl⟩ | ⟨-, rfl⟩ := onChannel_next h
    rotate_left
    · exact .refused _ _
    simp only [raiseReject_pwm_eq hk]
    split_ifs with h1 h2 h3
    · exact .pwmRejected _ k c hk _
    · exact .pwmRejected _ k c hk _
    · exact .pwmRejected _ k c hk _
    · exact .channel _ k c _ hk (.start (by simpa using h1) (by simpa using h2) (by simpa using h3)) (.inl rfl)
  | pwmPause k =>
    obtain ⟨c, hk, rfl⟩ | ⟨-, rfl⟩ := onChannel_next h
    rotate_left
    · exact .refused _ _
    simp only [raiseReject_pwm_eq hk]
    split_ifs with h1
    · exact .pwmRejected _ k c hk _
    · simp only [not_or, not_not, Bool.not_eq_true] at h1
      exact .channel _ k c _ hk (.pause h1.1 h1.2) (.inr ⟨rfl, rfl, rfl, fun e => by simp [h1.1] at e⟩)
  | pwmResume k =>
    obtain ⟨c, hk, rfl⟩ | ⟨-, rfl⟩ := onChannel_next h
    rotate_left
    · exact .refused _ _
    simp only [raiseReject_pwm_eq hk]
    split_ifs with h1
    · exact .pwmRejected _ k c hk _
    · simp only [not_or, not_not, Bool.not_eq_true] at h1
      exact .channel _ k c _ hk (.resume h1.1 h1.2) (.inr ⟨rfl, rfl, rfl, fun e => by simp [h1.1] at e⟩)
  | pwmStop k =>
    obtain ⟨c, hk, rfl⟩ | ⟨-, rfl⟩ := onChannel_next h
    rotate_left
    · exact .refused _ _
    simp only [raiseReject_pwm_eq hk]
    split_ifs with h1
    · exact .pwmRejected _ k c hk _
    · simp only [not_or, Bool.not_eq_true] at h1
      exact .channel _ k c _ hk (.stop (by cases ha : c.active <;> simp [ha] at h1 ⊢) h1.2) (.inr ⟨rfl, rfl, rfl, id⟩)
  | rdI2cStatus => obtain rfl := (Outcome.next.inj h).symm; exact .answered _ _
  | rdI2cRxdata => obtain rfl := (Outcome.next.inj h).symm; exact .answered _ _
  | rdI2cBuf j =>
    obtain ⟨hj, rfl⟩ | ⟨-, rfl⟩ := onEntry_next h
    rotate_left
    · exact .refused _ _
    split_ifs with hb
    · exact .bufReadRejected _
    · exact .answered _ _
  | wrI2cBuf j v =>
    obtain ⟨hj, rfl⟩ | ⟨-, rfl⟩ := onEntry_next h
    rotate_left
    · exact .refused _ _
    split_ifs with hb
    · exact .i2cRejected _ _
    · exact .stored _ j _ (by simpa using hb) hj
  | rdPwmStatus k =>
    obtain ⟨c, hk, rfl⟩ | ⟨-, rfl⟩ := onChannel_next h
    · exact .answered _ _
    · exact .refused _ _
  | rdPwmDuty k =>
    obtain ⟨c, hk, rfl⟩ | ⟨-, rfl⟩ := onChannel_next h
    · exact .answered _ _
    · exact .refused _ _
  | rdPwmPeriod k =>
    obtain ⟨c, hk, rfl⟩ | ⟨-, rfl⟩ := onChannel_next h
    · exact .answered _ _
    · exact .refused _ _
  | rdPwmLine k =>
    obtain ⟨c, hk, rfl⟩ | ⟨-, rfl⟩ := onChannel_next h
    · exact .answered _ _
    · exact .refused _ _
  | rdPwmPeriodArg k =>
    obtain ⟨c, hk, rfl⟩ | ⟨-, rfl⟩ := onChannel_next h
    · exact .answered _ _
    · exact .refused _ _
  | wrPwmPeriodArg k v =>
    obtain ⟨c, hk, rfl⟩ | ⟨-, rfl⟩ := onChannel_next h
    rotate_left
    · exact .refused _ _
    exact .channel _ k c _ hk (.periodArg v) (.inr ⟨rfl, rfl, rfl, id⟩)

/-- What a host access does when it gives a next state: an instruction's effect, or one of the effects the spec gives to
accesses that are no row of the table (R73, R75, R78, R111). -/
theorem hostAccess_next {a : HostAccess} {s t : State} (h : hostAccess a s = .next t) :
    (∃ i, decode s.cfg a = .instr i ∧ ExecEffect s i t) ∨ (∃ e, t = raiseReject (.i2c e) s) ∨
      (∃ k, t = raiseReject (.pwm k .reserved) s) ∨ t = s ∨ t = answer 0 s ∨ ∃ f, t = signalFault f s := by
  unfold hostAccess at h
  split at h
  · exact .inl ⟨_, ‹_›, exec_effect h⟩
  · obtain rfl : rejectReservedI2c s = t := by simpa using h
    unfold rejectReservedI2c
    split <;> exact .inr (.inl ⟨_, rfl⟩)
  · exact .inr (.inr (.inl ⟨_, (Outcome.next.inj h).symm⟩))
  · exact .inr (.inr (.inr (.inl (Outcome.next.inj h).symm)))
  · exact .inr (.inr (.inr (.inr (.inl (Outcome.next.inj h).symm))))
  · exact .inr (.inr (.inr (.inr (.inr ⟨_, (Outcome.next.inj h).symm⟩))))
  · cases h

/-- What a step does when it gives a next state: the configuration is one the model covers, and the next agent's step has
been taken. -/
theorem step_next {s t : State} (h : step s = .next t) :
    s.cfg.wf = true ∧ runEvent (nextEvent s) (takeEvent s) = .next t := by
  unfold step machineStep at h
  split at h
  · exact ⟨‹_›, h⟩
  · cases h

/-! ### The engine's step -/

@[simp] theorem stageActions_ne_nil (s : State) (st : Stage) : stageActions s st ≠ [] := by
  cases st <;> simp [stageActions, startSeq, rstartSeq, stopSeq, writeByteSeq, readByteSeq]
  split <;> simp

@[simp] theorem pendingActions_ne_nil (s : State) : pendingActions s ≠ [] := by
  unfold pendingActions; split <;> simp

/-- What an engine step does: nothing when idle; else one line action, and after a procedure's last action what
`finishStage` adds. -/
theorem engineStep_cases (s : State) :
    (s.i2c.busy = false ∧ engineStep s = s) ∨
    (s.i2c.busy = true ∧ ∃ a rest, pendingActions s = a :: rest ∧
      ((rest = [] ∧ engineStep s = finishStage (setTodo [] (performAction a s))) ∨
       (rest ≠ [] ∧ engineStep s = setTodo rest (performAction a s)))) := by
  unfold engineStep
  cases hb : s.i2c.busy
  · exact .inl ⟨rfl, by simp⟩
  · refine .inr ⟨rfl, ?_⟩
    rcases hp : pendingActions s with _ | ⟨a, _ | ⟨b, rest⟩⟩
    · exact absurd hp (pendingActions_ne_nil s)
    · exact ⟨a, [], rfl, .inl ⟨rfl, by simp⟩⟩
    · exact ⟨a, b :: rest, rfl, .inr ⟨by simp, by simp⟩⟩

/-- What `finishStage` leaves: everything outside the engine's registers and the frame buffer. -/
theorem finishStage_frame (s : State) :
    (finishStage s).cfg = s.cfg ∧ (finishStage s).chans = s.chans ∧ (finishStage s).tickNo = s.tickNo ∧
    (finishStage s).due = s.due ∧ (finishStage s).rdata = s.rdata ∧ (finishStage s).faults = s.faults ∧
    (finishStage s).trace = s.trace ∧ (finishStage s).agenda = s.agenda ∧ (finishStage s).portIn = s.portIn ∧
    (finishStage s).freeCount = s.freeCount := by
  unfold finishStage
  split
  all_goals first
    | exact ⟨rfl, rfl, rfl, rfl, rfl, rfl, rfl, rfl, rfl, rfl⟩
    | (split <;> exact ⟨rfl, rfl, rfl, rfl, rfl, rfl, rfl, rfl, rfl, rfl⟩)

@[simp] theorem byteStage_setAck (r : Bool) (s : State) (j : Nat) : byteStage (setAck r s) j = byteStage s j := rfl
@[simp] theorem byteStage_setXcnt (n : Nat) (s : State) (j : Nat) : byteStage (setXcnt n s) j = byteStage s j := rfl
@[simp] theorem byteStage_setRxbyte (x : Byte) (s : State) (j : Nat) : byteStage (setRxbyte x s) j = byteStage s j := rfl
@[simp] theorem byteStage_setEntry (i : Nat) (b : Byte) (s : State) (j : Nat) :
    byteStage (setEntry i b s) j = byteStage s j := rfl

/-- A frame's next stage: a data byte of the frame in CUR that is still to come, or end_frame (R172, R175). -/
theorem byteStage_cases (s : State) (j : Nat) :
    (j < curLen s ∧ curIsRead s = true ∧ byteStage s j = .frameRecv j 0) ∨
    (j < curLen s ∧ curIsRead s = false ∧ byteStage s j = .frameSend j false) ∨
    (curLen s ≤ j ∧ byteStage s j = .frameEnd) := by
  unfold byteStage
  by_cases h : j < curLen s
  · cases hr : curIsRead s <;> simp [h]
  · exact .inr (.inr ⟨by omega, by simp [h]⟩)

/-! ### The tick step -/

/-- CNT <- (CNT + 1) mod S_P, as a number (R220). -/
theorem nextCnt_toNat {c : Channel} (h : 1 ≤ c.sP.toNat) : (nextCnt c).toNat = (c.cnt.toNat + 1) % c.sP.toNat := by
  have h1 := Nat.mod_lt (c.cnt.toNat + 1) h
  have h2 := c.sP.isLt
  simp only [nextCnt, BitVec.toNat_ofNat]
  exact Nat.mod_eq_of_lt (by omega)

/-- A worker's turn: its tick step if one is due, with the due mark gone; else nothing (R221). -/
theorem workerStep_cases (k : Nat) (s : State) :
    (k ∈ s.due ∧ workerStep k s = tickStep k { s with due := s.due.erase k }) ∨ (k ∉ s.due ∧ workerStep k s = s) := by
  unfold workerStep
  by_cases h : k ∈ s.due
  · exact .inl ⟨h, by simp [h]⟩
  · exact .inr ⟨h, by simp [h]⟩

/-- What a tick step does: nothing without a live worker or while frozen; else a stop, the beginning of a phase, or a
count (R220). -/
theorem tickStep_cases (k : Nat) (s : State) :
    tickStep k s = s ∨
    ∃ c, s.chans[k]? = some c ∧ c.active = true ∧
      ((c.stopPend = true ∧ (c.cnt = 0 ∨ c.cnt = c.sOn) ∧ tickStep k s = stopNow k c s) ∨
       (c.stopPend = false ∧ c.cnt = 0 ∧ c.state = .running ∧
         tickStep k s = beginPhase k c (decide (0 < c.sOn.toNat)) s) ∨
       (c.stopPend = false ∧ c.cnt ≠ 0 ∧ c.cnt = c.sOn ∧ tickStep k s = beginPhase k c false s) ∨
       (c.cnt ≠ 0 ∧ c.cnt ≠ c.sOn ∧ tickStep k s = countTick k c s)) := by
  unfold tickStep
  cases hk : s.chans[k]? with
  | none => exact .inl rfl
  | some c =>
    simp only [tickChannel]
    cases ha : c.active
    · exact .inl (by simp)
    · simp only [Bool.not_true, Bool.false_eq_true, if_false]
      by_cases h0 : c.cnt = 0
      · cases hp : c.stopPend
        · by_cases hs : c.state = .paused
          · exact .inl (by simp [h0, hs])
          · have hr : c.state = .running := by
              simp only [Channel.active, Bool.or_eq_true, beq_iff_eq] at ha
              exact ha.resolve_right hs
            exact .inr ⟨c, rfl, ha, .inr (.inl ⟨hp, h0, hr, by simp [h0, hr]⟩)⟩
        · exact .inr ⟨c, rfl, ha, .inl ⟨hp, .inl h0, by simp [h0]⟩⟩
      · by_cases h1 : c.cnt = c.sOn
        · cases hp : c.stopPend
          · exact .inr ⟨c, rfl, ha, .inr (.inr (.inl ⟨hp, h0, h1, by rw [if_neg h0, if_pos h1]; simp⟩))⟩
          · exact .inr ⟨c, rfl, ha, .inl ⟨hp, .inr h1, by rw [if_neg h0, if_pos h1]; simp⟩⟩
        · exact .inr ⟨c, rfl, ha, .inr (.inr (.inr ⟨h0, h1, by rw [if_neg h0, if_neg h1]⟩))⟩

end Sys2Proof.Machine
end

