-- ==== Sys2Proof/Laws/Channels.lean ====
section
/-! SUPPORT. What one step of the machine does to the channels, and to the engine, said once for every agent: at most one
channel changes, and the list of ways it can. -/

namespace Sys2Proof.Machine

open Sys2Proof Host

/-- What a tick step does to its channel when it does anything (R220). -/
inductive TickEffect (c : Channel) : Channel → Prop
  | stop (hp : c.stopPend = true) (h : c.cnt = 0 ∨ c.cnt = c.sOn) :
      TickEffect c { c with out := false, state := .stopped, stopPend := false, cnt := 0 }
  | first (hp : c.stopPend = false) (h : c.cnt = 0) (hs : c.state = .running) :
      TickEffect c { c with out := decide (0 < c.sOn.toNat), cnt := nextCnt c }
  | edge (hp : c.stopPend = false) (h : c.cnt ≠ 0) (h' : c.cnt = c.sOn) :
      TickEffect c { c with out := false, cnt := nextCnt c }
  | count (h : c.cnt ≠ 0) (h' : c.cnt ≠ c.sOn) : TickEffect c { c with cnt := nextCnt c }

/-- What one step can do to one channel, short of a reset: a rejection's ERR, an accepted command, or a tick step of a live
worker. -/
inductive ChannelStep (s : State) (k : Nat) (c : Channel) : Channel → Prop
  | rejected (e : PwmErr) : ChannelStep s k c { c with err := e }
  | command {c' : Channel} (h : ChannelEffect s k c c') : ChannelStep s k c c'
  | tick {c' : Channel} (ha : c.active = true) (h : TickEffect c c') : ChannelStep s k c c'

/-- What one step can do to the list of channels, short of a reset. -/
def ChansStep (s t : State) : Prop :=
  t.chans = s.chans ∨
    ∃ k c c', s.chans[k]? = some c ∧ ChannelStep s k c c' ∧ t.chans = s.chans.set k c'

theorem execEffect_chans {i : Instr} {s t : State} (h : ExecEffect s i t) : t.cfg = s.cfg ∧ ChansStep s t := by
  cases h with
  | i2cRejected e => exact ⟨rfl, .inl rfl⟩
  | pwmRejected k c hk e => exact ⟨rfl, .inr ⟨k, c, _, hk, .rejected e, rfl⟩⟩
  | started w st hb hw => exact ⟨rfl, .inl rfl⟩
  | frameStarted w hb hw => exact ⟨rfl, .inl rfl⟩
  | answered v => exact ⟨rfl, .inl rfl⟩
  | refused f => exact ⟨rfl, .inl rfl⟩
  | bufReadRejected => exact ⟨rfl, .inl rfl⟩
  | stored j b hb hj => exact ⟨rfl, .inl rfl⟩
  | channel k c c' hk hc hi => exact ⟨rfl, .inr ⟨k, c, c', hk, .command hc, rfl⟩⟩

theorem raiseReject_pwm_step (s : State) (k : Nat) (e : PwmErr) : ChansStep s (raiseReject (.pwm k e) s) := by
  cases hk : s.chans[k]? with
  | some c => exact .inr ⟨k, c, _, hk, .rejected e, by rw [raiseReject_pwm_eq hk]; rfl⟩
  | none =>
    refine .inl ?_
    simp only [raiseReject]
    exact List.ext_getElem? fun j => by
      by_cases hj : k = j
      · subst hj; simp [hk]
      · simp [hj]

theorem hostAccess_chans {a : HostAccess} {s t : State} (h : hostAccess a s = .next t) :
    t.cfg = s.cfg ∧ ChansStep s t := by
  rcases hostAccess_next h with ⟨i, -, he⟩ | ⟨e, rfl⟩ | ⟨k, rfl⟩ | rfl | rfl | ⟨f, rfl⟩
  · exact execEffect_chans he
  · exact ⟨rfl, .inl rfl⟩
  · exact ⟨rfl, raiseReject_pwm_step s k _⟩
  · exact ⟨rfl, .inl rfl⟩
  · exact ⟨rfl, .inl rfl⟩
  · exact ⟨rfl, .inl rfl⟩

theorem engineStep_frame (s : State) :
    (engineStep s).cfg = s.cfg ∧ (engineStep s).chans = s.chans ∧ (engineStep s).tickNo = s.tickNo ∧
    (engineStep s).due = s.due ∧ (engineStep s).rdata = s.rdata ∧ (engineStep s).faults = s.faults ∧
    (engineStep s).agenda = s.agenda := by
  rcases engineStep_cases s with ⟨-, h⟩ | ⟨-, a, rest, -, ⟨-, h⟩ | ⟨-, h⟩⟩ <;> rw [h]
  · exact ⟨rfl, rfl, rfl, rfl, rfl, rfl, rfl⟩
  · obtain ⟨h1, h2, h3, h4, h5, h6, -, h7, -⟩ := finishStage_frame (setTodo [] (performAction a s))
    simp [h1, h2, h3, h4, h5, h6, h7]
  · simp

theorem tickStep_chans (k : Nat) (s : State) :
    (tickStep k s).cfg = s.cfg ∧ (tickStep k s).i2c = s.i2c ∧ (tickStep k s).buf = s.buf ∧ ChansStep s (tickStep k s) := by
  rcases tickStep_cases k s with h | ⟨c, hk, ha, ⟨hp, h0, h⟩ | ⟨hp, h0, hs, h⟩ | ⟨hp, h0, h1, h⟩ | ⟨h0, h1, h⟩⟩ <;> rw [h]
  · exact ⟨rfl, rfl, rfl, .inl rfl⟩
  · exact ⟨by simp [stopNow], by simp [stopNow], by simp [stopNow],
      .inr ⟨k, c, _, hk, .tick ha (.stop hp h0), by simp [stopNow]⟩⟩
  · exact ⟨by simp [beginPhase], by simp [beginPhase], by simp [beginPhase],
      .inr ⟨k, c, _, hk, .tick ha (.first hp h0 hs), by simp [beginPhase]⟩⟩
  · exact ⟨by simp [beginPhase], by simp [beginPhase], by simp [beginPhase],
      .inr ⟨k, c, _, hk, .tick ha (.edge hp h0 h1), by simp [beginPhase]⟩⟩
  · exact ⟨rfl, rfl, rfl, .inr ⟨k, c, _, hk, .tick ha (.count h0 h1), rfl⟩⟩

@[simp] theorem takeEvent_ownedElsewhere (s : State) (k : Nat) (l : LineDesc) :
    ownedElsewhere k l (takeEvent s) = ownedElsewhere k l s := by simp [ownedElsewhere]

theorem ChannelStep.congr {s u : State} (hc : u.cfg = s.cfg) (hs : u.chans = s.chans) {k : Nat} {c c' : Channel}
    (h : ChannelStep u k c c') : ChannelStep s k c c' := by
  cases h with
  | rejected e => exact .rejected e
  | tick ha h => exact .tick ha h
  | command h =>
    cases h with
    | init d l hl hd hp => exact .command (.init d l (by rwa [← hc]) hd hp)
    | setduty d hd => exact .command (.setduty d hd)
    | setline l hl => exact .command (.setline l (by rwa [← hc]))
    | start hv ha ho => exact .command (.start hv ha (by simpa [ownedElsewhere, hc, hs] using ho))
    | pause hs hp => exact .command (.pause hs hp)
    | resume hs hp => exact .command (.resume hs hp)
    | stop ha hp => exact .command (.stop ha hp)
    | periodArg v => exact .command (.periodArg v)

theorem ChansStep.congr {s u t : State} (hc : u.cfg = s.cfg) (hs : u.chans = s.chans) (h : ChansStep u t) :
    ChansStep s t := by
  rcases h with h | ⟨k, c, c', hk, h, ht⟩
  · exact .inl (by rw [h, hs])
  · exact .inr ⟨k, c, c', by rwa [← hs], h.congr hc hs, by rw [ht, hs]⟩

/-- Every step but a reset keeps the configuration and changes at most one channel, in one of the ways of `ChannelStep`. -/
theorem step_chans {s t : State} (h : step s = .next t) (hr : nextEvent s ≠ .reset) :
    t.cfg = s.cfg ∧ ChansStep s t := by
  obtain ⟨-, h⟩ := step_next h
  have main : t.cfg = (takeEvent s).cfg ∧ ChansStep (takeEvent s) t := by
    cases he : nextEvent s with
    | host a => rw [he] at h; exact hostAccess_chans h
    | engine =>
      rw [he] at h
      obtain rfl := Outcome.next.inj h
      exact ⟨(engineStep_frame _).1, .inl (engineStep_frame _).2.1⟩
    | tick =>
      rw [he] at h
      obtain rfl := Outcome.next.inj h
      unfold timeTick
      split <;> exact ⟨rfl, .inl rfl⟩
    | worker k =>
      rw [he] at h
      obtain rfl := Outcome.next.inj h
      unfold workerStep
      split
      · generalize hu : { takeEvent s with due := (takeEvent s).due.erase k } = u
        obtain ⟨h1, -, -, h2⟩ := tickStep_chans k u
        exact ⟨h1.trans (by rw [← hu]), h2.congr (by rw [← hu]) (by rw [← hu])⟩
      · exact ⟨rfl, .inl rfl⟩
    | reset => exact absurd he hr
  exact ⟨by simpa using main.1, main.2.congr (by simp) (by simp)⟩

/-- A reset leaves what `resetBlock` says. -/
theorem step_reset {s t : State} (h : step s = .next t) (hr : nextEvent s = .reset) : t = resetBlock (takeEvent s) := by
  obtain ⟨-, h⟩ := step_next h
  rw [hr] at h
  exact (Outcome.next.inj h).symm

end Sys2Proof.Machine
end

