-- ==== Sys2Proof/Laws/Memory.lean ====
section
/-! SUPPORT. The frame buffer as memory: reading after writing, and the canonical form that every write keeps. -/

namespace Sys2Proof.Machine

open Sys2Proof

/-- Every listed index of a buffer in canonical form lies above the first. -/
theorem Memory.wf_cons {c : Host.Cell} {m : Memory} :
    Memory.wf (c :: m) = true ↔
      c.2 ≠ Config.bufResetByte ∧ (∀ d ∈ m.head?, c.1 < d.1) ∧ Memory.wf m = true := by
  cases m with
  | nil => simp [Memory.wf]
  | cons d rest => simp [Memory.wf, and_assoc]

theorem Memory.read_below {m : Memory} {a : Nat} (h : Memory.wf m = true) (lt : ∀ d ∈ m.head?, a < d.1) :
    Memory.read m a = Config.bufResetByte := by
  induction m with
  | nil => rfl
  | cons c rest ih =>
    obtain ⟨-, hd, hw⟩ := Memory.wf_cons.1 h
    have hc : a < c.1 := lt c rfl
    rw [Memory.read, if_neg (by omega)]
    exact ih hw fun d hm => (hc.trans (hd d hm))

/-- Reading the index just written gives the byte written. -/
theorem Memory.read_write_same {m : Memory} (h : Memory.wf m = true) (a : Nat) (b : Byte) :
    Memory.read (Memory.write m a b) a = b := by
  induction m with
  | nil =>
    by_cases hb : b = Config.bufResetByte <;> simp [Memory.write, Memory.cons, Memory.read, hb]
  | cons c rest ih =>
    obtain ⟨-, hd, hw⟩ := Memory.wf_cons.1 h
    by_cases h1 : a < c.1
    · by_cases hb : b = Config.bufResetByte
      · simp only [Memory.write, h1, if_true, Memory.cons, hb]
        exact Memory.read_below h (by simpa using h1)
      · simp [Memory.write, h1, Memory.cons, Memory.read, hb]
    · by_cases h2 : a = c.1
      · by_cases hb : b = Config.bufResetByte
        · simp only [Memory.write, h2, if_true, if_false, Memory.cons, hb, lt_irrefl]
          exact Memory.read_below hw hd
        · simp [Memory.write, h2, Memory.cons, Memory.read, hb]
      · simp [Memory.write, h1, h2, Memory.read, ih hw, Ne.symm h2]

/-- A write leaves every other index alone. -/
theorem Memory.read_write_other (m : Memory) {a x : Nat} (b : Byte) (hx : x ≠ a) :
    Memory.read (Memory.write m a b) x = Memory.read m x := by
  have hcons : ∀ r, Memory.read (Memory.cons a b r) x = Memory.read r x := fun r => by
    by_cases hb : b = Config.bufResetByte <;> simp [Memory.cons, Memory.read, hb, Ne.symm hx]
  induction m with
  | nil => simp [Memory.write, hcons]
  | cons c rest ih =>
    by_cases h1 : a < c.1
    · simp [Memory.write, h1, hcons]
    · by_cases h2 : a = c.1
      · subst h2
        simp [Memory.write, Memory.read, hcons, Ne.symm hx]
      · simp [Memory.write, h1, h2, Memory.read, ih]

theorem Memory.head_cons {a : Nat} {b : Byte} {r : Memory} {p : Nat → Prop} (ha : p a)
    (hr : ∀ d ∈ r.head?, p d.1) : ∀ d ∈ (Memory.cons a b r).head?, p d.1 := by
  unfold Memory.cons; split
  · exact hr
  · simpa using ha

theorem Memory.wf_consCell {a : Nat} {b : Byte} {r : Memory} (hr : Memory.wf r = true)
    (lt : ∀ d ∈ r.head?, a < d.1) : Memory.wf (Memory.cons a b r) = true := by
  unfold Memory.cons; split
  · exact hr
  · exact Memory.wf_cons.2 ⟨by assumption, lt, hr⟩

theorem Memory.head_write {m : Memory} {a : Nat} {b : Byte} {n : Nat} (ha : n < a)
    (h : ∀ d ∈ m.head?, n < d.1) (hw : Memory.wf m = true) : ∀ d ∈ (Memory.write m a b).head?, n < d.1 := by
  cases m with
  | nil => exact Memory.head_cons (p := (n < ·)) ha (by simp)
  | cons c rest =>
    have hc : n < c.1 := h c rfl
    obtain ⟨-, hd, -⟩ := Memory.wf_cons.1 hw
    unfold Memory.write
    split
    · exact Memory.head_cons (p := (n < ·)) ha (by simpa using hc)
    · split
      · exact Memory.head_cons (p := (n < ·)) ha fun d hm => hc.trans (hd d hm)
      · simpa using hc

/-- A write keeps the canonical form. -/
theorem Memory.wf_write {m : Memory} (h : Memory.wf m = true) (a : Nat) (b : Byte) :
    Memory.wf (Memory.write m a b) = true := by
  induction m with
  | nil => exact Memory.wf_consCell rfl (by simp)
  | cons c rest ih =>
    obtain ⟨hb, hd, hw⟩ := Memory.wf_cons.1 h
    unfold Memory.write
    split
    · exact Memory.wf_consCell h (by simpa using ‹a < c.1›)
    · split
      · subst_vars; exact Memory.wf_consCell hw hd
      · exact Memory.wf_cons.2 ⟨hb, Memory.head_write (by omega) hd hw, ih hw⟩

/-- A write lists no index but its own that was not listed. -/
theorem Memory.mem_write {m : Memory} {a : Nat} {b : Byte} {d : Host.Cell}
    (h : d ∈ Memory.write m a b) : d = (a, b) ∨ d ∈ m := by
  have hcons : ∀ {r : Memory}, d ∈ Memory.cons a b r → d = (a, b) ∨ d ∈ r := fun {r} hm => by
    unfold Memory.cons at hm; split at hm
    · exact .inr hm
    · simpa using hm
  induction m with
  | nil => simpa using hcons h
  | cons c rest ih =>
    unfold Memory.write at h
    split at h
    · exact hcons h
    · split at h
      · exact (hcons h).imp id (List.mem_cons_of_mem _)
      · rcases List.mem_cons.1 h with rfl | h
        · exact .inr (by simp)
        · exact (ih h).imp id (List.mem_cons_of_mem _)

end Sys2Proof.Machine
end

