-- ==== Sys2Proof/Laws/PerInstr.lean ====
section
/-! SUPPORT. Laws stated for every instruction, one lemma per constructor. The family `TableRow`: an instruction's
encoding is the row of spec/opcode_table.json it stands for. -/

namespace Sys2Proof.Laws.TableRow

open Sys2Proof

/-- The match and mask of a command's row, or the offset of an access row (spec/opcode_table.json, R113). -/
inductive Expect where
  | word (pattern mask : Word)
  | offset (off : Nat)

/-- The row of an instruction, transcribed from the table. -/
def row : Instr → Expect
  | .start => .word 0x00000001 0xFFFFFFFF
  | .rstart => .word 0x00000002 0xFFFFFFFF
  | .stop => .word 0x00000003 0xFFFFFFFF
  | .wrbyte _ => .word 0x00000004 0xFFFF00FF
  | .rdbyte _ => .word 0x00000005 0xFFFFFFDF
  | .wrframe _ _ _ => .word 0x00000006 0x0000FFEF
  | .rdframe _ _ _ => .word 0x00000007 0x0000FFEF
  | .pwmInit _ _ _ => .word 0x00000001 0x0000000F
  | .pwmSetduty _ _ => .word 0x00000002 0x0000FFFF
  | .pwmSetline _ _ => .word 0x00000003 0xFFFF000F
  | .pwmStart _ => .word 0x00000004 0xFFFFFFFF
  | .pwmPause _ => .word 0x00000005 0xFFFFFFFF
  | .pwmResume _ => .word 0x00000006 0xFFFFFFFF
  | .pwmStop _ => .word 0x00000007 0xFFFFFFFF
  | .rdI2cStatus => .offset 0x004
  | .rdI2cRxdata => .offset 0x008
  | .rdI2cBuf i => .offset (0x100 + 4 * i)
  | .wrI2cBuf i _ => .offset (0x100 + 4 * i)
  | .rdPwmStatus k => .offset (0x804 + 0x20 * k)
  | .rdPwmDuty k => .offset (0x808 + 0x20 * k)
  | .rdPwmPeriod k => .offset (0x80C + 0x20 * k)
  | .rdPwmLine k => .offset (0x810 + 0x20 * k)
  | .rdPwmPeriodArg k => .offset (0x814 + 0x20 * k)
  | .wrPwmPeriodArg k _ => .offset (0x814 + 0x20 * k)

/-- A command's word ANDed with the row's mask is the row's match; an access addresses the row's offset. -/
def Statement (i : Instr) : Prop :=
  match row i with
  | .word pattern mask => instrWord i &&& mask = pattern
  | .offset off => regOffset (instrReg i) = off

/-- A field placed at bit `n` disappears under a mask that is 0 over the field's bits. -/
theorem field_and_mask {w : Nat} (x : BitVec w) (n : Nat) (m : Word)
    (h : ∀ i < 32, n ≤ i → i < n + w → m.getLsbD i = false) : x.setWidth 32 <<< n &&& m = 0 := by
  apply BitVec.eq_of_getLsbD_eq
  intro i hi
  by_cases h1 : n ≤ i
  · by_cases h2 : i < n + w
    · simp [h i hi h1 h2]
    · simp [BitVec.getLsbD_of_ge x (i - n) (by omega)]
  · simp [show i < n by omega]

/-- AND over OR, and the fields gone, leaves the opcode. -/
theorem or_and_mask (x y m : Word) (hx : x &&& m = 0) : (x ||| y) &&& m = y &&& m := by
  rw [BitVec.and_or_distrib_right, hx]; exact BitVec.zero_or

theorem start : Statement .start := rfl
theorem rstart : Statement .rstart := rfl
theorem stop : Statement .stop := rfl

theorem wrbyte (b : BitVec 8) : Statement (.wrbyte b) :=
  or_and_mask _ _ _ (field_and_mask b 8 _ (by decide))

theorem rdbyte (a : Bool) : Statement (.rdbyte a) :=
  or_and_mask _ _ _ (field_and_mask (BitVec.ofBool a) 5 _ (by decide))

/-- A frame's word under the frame mask is its opcode. -/
theorem frameWord_and_mask (op : Word) (len : BitVec 9) (addr : BitVec 7) (h : Bool) :
    frameWord op len addr h &&& 0x0000FFEF = op &&& 0x0000FFEF := by
  refine or_and_mask _ _ _ ?_
  rw [or_and_mask, bitAt, field_and_mask (BitVec.ofBool h) 4 _ (by decide)]
  rw [or_and_mask, field_and_mask addr 16 _ (by decide)]
  exact field_and_mask len 23 _ (by decide)

theorem wrframe (len : BitVec 9) (addr : BitVec 7) (h : Bool) : Statement (.wrframe len addr h) :=
  frameWord_and_mask _ len addr h

theorem rdframe (len : BitVec 9) (addr : BitVec 7) (h : Bool) : Statement (.rdframe len addr h) :=
  frameWord_and_mask _ len addr h

theorem pwmInit (k : Nat) (d : BitVec 16) (l : LineDesc) : Statement (.pwmInit k d l) := by
  refine or_and_mask _ _ _ ?_
  rw [or_and_mask, field_and_mask (lineToBits l) 4 _ (by decide)]
  exact field_and_mask d 16 _ (by decide)

theorem pwmSetduty (k : Nat) (d : BitVec 16) : Statement (.pwmSetduty k d) :=
  or_and_mask _ _ _ (field_and_mask d 16 _ (by decide))

theorem pwmSetline (k : Nat) (l : LineDesc) : Statement (.pwmSetline k l) :=
  or_and_mask _ _ _ (field_and_mask (lineToBits l) 4 _ (by decide))

theorem pwmStart (k : Nat) : Statement (.pwmStart k) := by simp [Statement, row, instrWord]
theorem pwmPause (k : Nat) : Statement (.pwmPause k) := by simp [Statement, row, instrWord]
theorem pwmResume (k : Nat) : Statement (.pwmResume k) := by simp [Statement, row, instrWord]
theorem pwmStop (k : Nat) : Statement (.pwmStop k) := by simp [Statement, row, instrWord]
theorem rdI2cStatus : Statement .rdI2cStatus := rfl
theorem rdI2cRxdata : Statement .rdI2cRxdata := rfl
theorem rdI2cBuf (i : Nat) : Statement (.rdI2cBuf i) := rfl
theorem wrI2cBuf (i : Nat) (v : Word) : Statement (.wrI2cBuf i v) := rfl
theorem rdPwmStatus (k : Nat) : Statement (.rdPwmStatus k) := rfl
theorem rdPwmDuty (k : Nat) : Statement (.rdPwmDuty k) := rfl
theorem rdPwmPeriod (k : Nat) : Statement (.rdPwmPeriod k) := rfl
theorem rdPwmLine (k : Nat) : Statement (.rdPwmLine k) := rfl
theorem rdPwmPeriodArg (k : Nat) : Statement (.rdPwmPeriodArg k) := rfl
theorem wrPwmPeriodArg (k : Nat) (v : Word) : Statement (.wrPwmPeriodArg k v) := rfl

end Sys2Proof.Laws.TableRow
end

