-- ==== Sys2Proof/Machine/Program.lean ====
section
/-! DEFINITION. The host-program notation of 30_encoding.md R114 to R116: the assembler's expansions and the host's own
primitives. They belong to the host, not to the block (R115), so they stand beside the machine and not in State (log 22). -/

namespace Sys2Proof.Machine

open Sys2Proof

/-- The host-side primitives (R115); a label is the index of an operation in the expanded program. -/
inductive HostOp where
  | wr (r : Reg) (v : Word)
  | rd (t : Fin 8) (r : Reg)
  | beq (t : Fin 8) (m v : Word) (l : Nat)
  | bne (t : Fin 8) (m v : Word) (l : Nat)
  | jmp (l : Nat)
  | addi (t : Fin 8) (v : Word)
  | halt
  | ticks (n : Nat)
deriving DecidableEq, Repr

/-- The assembler's lines: commands (R114), pseudo-instructions (R116) and primitives (R115). Numbers are as written;
the assembler refuses one that does not fit its field. -/
inductive AsmLine where
  | i2cStart
  | i2cRstart
  | i2cStop
  | i2cWrbyte (b : Nat)
  | i2cRdbyte (ack : Bool)
  | i2cWrite (a n : Nat) (hold : Bool)
  | i2cRead (a n : Nat) (hold : Bool)
  | pwmInit (k : Nat) (l : LineDesc) (d : Nat)
  | pwmSetduty (k d : Nat)
  | pwmSetline (k : Nat) (l : LineDesc)
  | pwmStart (k : Nat)
  | pwmPause (k : Nat)
  | pwmResume (k : Nat)
  | pwmStop (k : Nat)
  | i2cSync
  | pwmSync (k : Nat)
  | i2cLoad (i b : Nat)
  | i2cFill (bytes : List Nat)
  | prim (op : HostOp)
deriving DecidableEq, Repr

/-- `P<h>.<b>`, with a trailing `!` for INV = 1 (R114). -/
def asmLineDesc (h b : Nat) (bang : Bool) : Option LineDesc :=
  if h < 256 ∧ b < 8 then some ⟨BitVec.ofNat 8 h, BitVec.ofNat 3 b, bang⟩ else none

/-- `q(num/den)`: x * 16384 when that is an integer (R114). -/
def asmDuty (num den : Nat) : Option Nat :=
  if 0 < den ∧ num * 16384 % den = 0 then some (num * 16384 / den) else none

/-- One host write of an instruction's word to its register (R114). -/
def asmWrite (i : Instr) : List HostOp := [.wr (instrReg i) (instrWord i)]

/-- Host writes of bytes to the frame buffer from entry `i` on (R116). -/
def asmLoads : Nat → List Nat → Option (List HostOp)
  | _, [] => some []
  | i, b :: rest =>
    if i < Config.frameMax ∧ b < 256 then
      (asmLoads (i + 1) rest).map (.wr (.i2cBuf i) (BitVec.ofNat 32 b) :: ·)
    else none

/-- The expansion of one line that stands at index `here` of the expanded program; none where the assembler refuses a
value that does not fit its field (R114, R116). -/
def asmExpand (here : Nat) : AsmLine → Option (List HostOp)
  | .i2cStart => some (asmWrite .start)
  | .i2cRstart => some (asmWrite .rstart)
  | .i2cStop => some (asmWrite .stop)
  | .i2cWrbyte b => if b < 256 then some (asmWrite (.wrbyte (BitVec.ofNat 8 b))) else none
  | .i2cRdbyte ack => some (asmWrite (.rdbyte ack))
  | .i2cWrite a n hold =>
    if a < 128 ∧ n < 512 then some (asmWrite (.wrframe (BitVec.ofNat 9 n) (BitVec.ofNat 7 a) hold)) else none
  | .i2cRead a n hold =>
    if a < 128 ∧ n < 512 then some (asmWrite (.rdframe (BitVec.ofNat 9 n) (BitVec.ofNat 7 a) hold)) else none
  | .pwmInit k l d => if d < 65536 then some (asmWrite (.pwmInit k (BitVec.ofNat 16 d) l)) else none
  | .pwmSetduty k d => if d < 65536 then some (asmWrite (.pwmSetduty k (BitVec.ofNat 16 d))) else none
  | .pwmSetline k l => some (asmWrite (.pwmSetline k l))
  | .pwmStart k => some (asmWrite (.pwmStart k))
  | .pwmPause k => some (asmWrite (.pwmPause k))
  | .pwmResume k => some (asmWrite (.pwmResume k))
  | .pwmStop k => some (asmWrite (.pwmStop k))
  | .i2cSync => some [.rd 7 .i2cStatus, .bne 7 0x1 0x0 here]
  | .pwmSync k => some [.rd 7 (.pwmStatus k), .bne 7 0x4 0x0 here]
  | .i2cLoad i b => asmLoads i [b]
  | .i2cFill bytes => asmLoads 0 bytes
  | .prim op => some [op]

/-- A program's expansion, the first line at index `here`. -/
def asmProgram : Nat → List AsmLine → Option (List HostOp)
  | _, [] => some []
  | here, l :: rest =>
    match asmExpand here l with
    | none => none
    | some ops => (asmProgram (here + ops.length) rest).map (ops ++ ·)

/-- The host program's own state: scratch values t0 to t7 and the place reached. It is no state of the block (R115). -/
structure HostState where
  t : Vector Word 8
  pc : Nat
  halted : Bool
deriving DecidableEq, Repr

/-- A host program begins with every scratch value 0 (95_test_vectors.md, conventions). -/
def HostState.start : HostState := { t := Vector.replicate 8 0, pc := 0, halted := false }

/-- One tick of the time base with every due worker tick step, in index order (R115 `; ticks`, R221). -/
def fullTick (s : State) : State :=
  (List.range s.cfg.nPwm).foldl (fun s k => workerStep k s) (timeTick s)

/-- A branch on (t AND m) = v (R115). -/
def branchTo (h : HostState) (taken : Bool) (l : Nat) : HostState :=
  { h with pc := if taken then l else h.pc + 1 }

/-- One host access made by a program, and what the host does with its outcome (R115). What a host does on an access error
is its own business (R73): the program ends in the fault (log 22). -/
def programAccess (a : HostAccess) (s : State) (k : State → HostState) :
    Host.Outcome (HostState × State) Fault Refusal :=
  match hostAccess a s with
  | .next s' => if s'.faults = s.faults then .next (k s', s') else .fault (.badAccess a.addr)
  | .fault r => .fault r
  | .refused r => .refused r

/-- One operation of a host program (R115). -/
def programOp (op : HostOp) (h : HostState) (s : State) : Host.Outcome (HostState × State) Fault Refusal :=
  match op with
  | .wr r v => programAccess ⟨.write, regAddr s.cfg r, .w32, v⟩ s fun _ => { h with pc := h.pc + 1 }
  | .rd t r =>
    programAccess ⟨.read, regAddr s.cfg r, .w32, 0⟩ s fun s' => { h with t := h.t.set t s'.rdata, pc := h.pc + 1 }
  | .beq t m v l => .next (branchTo h (h.t[t] &&& m == v) l, s)
  | .bne t m v l => .next (branchTo h (h.t[t] &&& m != v) l, s)
  | .jmp l => .next ({ h with pc := l }, s)
  | .addi t v => .next ({ h with t := h.t.set t (h.t[t] + v), pc := h.pc + 1 }, s)
  | .halt => .next ({ h with halted := true }, s)
  | .ticks n => .next ({ h with pc := h.pc + 1 }, n.repeat fullTick s)

/-- The host program's next step; past its end it halts. -/
def programStep (p : List HostOp) (h : HostState) (s : State) : Host.Outcome (HostState × State) Fault Refusal :=
  if h.halted then .next (h, s)
  else match p[h.pc]? with
    | some op => programOp op h s
    | none => .next ({ h with halted := true }, s)

end Sys2Proof.Machine
end

