-- ==== Sys2Proof/Tests/Slice0.lean ====
section
/-! SUPPORT. Tests: ill-formed terms refused, words written out from 30_encoding.md decoded, small steps with the results of
95_test_vectors.md or of a hand calculation from the rule named, and for each statement with hypotheses a state and operands
that meet them. -/

namespace Sys2Proof.Tests

open Sys2Proof Sys2Proof.Machine Host

/-! ### Small states -/

/-- The reference configuration with two channels. -/
def cfg2 : Config := { Config.reference with nPwm := 2 }

def p03 : LineDesc := ⟨0, 3, false⟩
def p20 : LineDesc := ⟨2, 0, false⟩
/-- A line of port P1, not output-capable. -/
def p10 : LineDesc := ⟨1, 0, false⟩

/-- A constructed, idle channel: P0.3, duty 0.5, period 4. -/
def built : Channel := { Channel.reset 1000000 with line := p03, duty := 0x2000, period := 4, periodArg := 4, cfgValid := true }

/-- Its worker, running inside the on-phase: S_P = 4, S_ON = 2, CNT = 1. -/
def live : Channel := { built with state := .running, sLine := p03, sP := 4, sOn := 2, cnt := 1, out := true }

/-- Two channels, the engine idle. -/
def withChans (c d : Channel) : State := { State.resetWith cfg2 with chans := [c, d] }

/-- The engine at a point of a command. -/
def engineAt (w : Word) (st : Stage) (todo : List BusAction) (port : List Byte) : State :=
  { State.resetWith cfg2 with
    i2c := { I2c.reset with busy := true, cur := w, pos := ⟨st, todo⟩ }, portIn := port }

/-- The state after a step, if it is a next state. -/
def next? (o : Outcome State Fault Refusal) : Option State :=
  match o with
  | .next s => some s
  | .fault _ => none
  | .refused _ => none

/-- The state after the host writes `w` at an offset, through step. -/
def wr (off : Nat) (w : Word) (s : State) : Option State := next? (step { s with agenda := [.host ⟨.write, off, .w32, w⟩] })

/-- What the host's read at an offset returns, through step. -/
def rd (off : Nat) (s : State) : Option Word :=
  (next? (step { s with agenda := [.host ⟨.read, off, .w32, 0⟩] })).map State.rdata

/-- Channel 0 of a state. -/
def ch0 (s : State) : Option Channel := s.chans[0]?

/-! ### Ill-formed terms are refused (20_memory.md R72) -/

theorem test_wf_channel_index_out_of_range :
    [Instr.pwmInit 2 0 p03, .pwmSetduty 2 0, .pwmSetline 2 p03, .pwmStart 2, .pwmPause 2, .pwmResume 2, .pwmStop 2,
      .rdPwmStatus 2, .rdPwmDuty 2, .rdPwmPeriod 2, .rdPwmLine 2, .rdPwmPeriodArg 2, .wrPwmPeriodArg 2 1].all
      (fun i => i.wf cfg2 == false) = true := by decide

theorem test_wf_entry_index_out_of_range :
    (Instr.rdI2cBuf 256).wf cfg2 = false ∧ (Instr.wrI2cBuf 256 0).wf cfg2 = false := by decide

theorem test_wf_accepts_the_last_register :
    (Instr.pwmStart 1).wf cfg2 = true ∧ (Instr.rdI2cBuf 255).wf cfg2 = true := by decide

theorem test_config_wf_refuses_one_physical_line :
    cfg2.wf = true ∧ { cfg2 with scl := ⟨0, 0, true⟩ }.wf = false ∧ { cfg2 with sda := p10 }.wf = false ∧
    { cfg2 with nPwm := 0 }.wf = false ∧ { cfg2 with nPwm := 65 }.wf = false ∧ { cfg2 with base := 4 }.wf = false ∧
    { cfg2 with tickHz := 49 }.wf = false := by decide

theorem test_bad_configuration_refused :
    step { State.resetWith { cfg2 with scl := ⟨0, 0, true⟩ } with agenda := [.engine] } =
      .refused .badConfiguration := by rfl

/-! ### Words written out bit by bit (30_encoding.md R103, R105; accesses R113) -/

theorem test_decode_start : decodeI2c 0b00000000000000000000000000000001 = some .start := by decide
theorem test_decode_rstart : decodeI2c 0b00000000000000000000000000000010 = some .rstart := by decide
theorem test_decode_stop : decodeI2c 0b00000000000000000000000000000011 = some .stop := by decide
theorem test_decode_wrbyte : decodeI2c 0b00000000000000001010010100000100 = some (.wrbyte 0xA5) := by decide
theorem test_decode_rdbyte :
    decodeI2c 0b00000000000000000000000000100101 = some (.rdbyte true) ∧
    decodeI2c 0b00000000000000000000000000000101 = some (.rdbyte false) := by decide
/-- LEN 2, ADDR 0x50, HOLD 0 (T-WF-1); LEN 256, ADDR 0x50 (T-WF-7). -/
theorem test_decode_wrframe :
    decodeI2c 0b00000001010100000000000000000110 = some (.wrframe 2 0x50 false) ∧
    decodeI2c 0b10000000010100000000000000000110 = some (.wrframe 256 0x50 false) := by decide
/-- LEN 2, ADDR 0x68, HOLD 1 (T-RF-5). -/
theorem test_decode_rdframe : decodeI2c 0b00000001011010000000000000010111 = some (.rdframe 2 0x68 true) := by decide
/-- Duty 0x2000, P0.3 with INV (T-PC-2). -/
theorem test_decode_pwm_init :
    decodePwm 1 0b00100000000000000000000010110001 = some (.pwmInit 1 0x2000 ⟨0, 3, true⟩) := by decide
theorem test_decode_pwm_setduty : decodePwm 1 0b01000000000000010000000000000010 = some (.pwmSetduty 1 0x4001) := by decide
/-- P3.5! is e = 0x03D (R114). -/
theorem test_decode_pwm_setline :
    decodePwm 1 0b00000000000000000000001111010011 = some (.pwmSetline 1 ⟨3, 5, true⟩) := by decide
theorem test_decode_pwm_start : decodePwm 0 0b00000000000000000000000000000100 = some (.pwmStart 0) := by decide
theorem test_decode_pwm_pause : decodePwm 0 0b00000000000000000000000000000101 = some (.pwmPause 0) := by decide
theorem test_decode_pwm_resume : decodePwm 0 0b00000000000000000000000000000110 = some (.pwmResume 0) := by decide
theorem test_decode_pwm_stop : decodePwm 0 0b00000000000000000000000000000111 = some (.pwmStop 0) := by decide

theorem test_decode_reads :
    [0x004, 0x008, 0x100, 0x4FC, 0x824, 0x828, 0x82C, 0x830, 0x834].map
        (fun off => decode cfg2 ⟨.read, off, .w32, 7⟩) =
      [.instr .rdI2cStatus, .instr .rdI2cRxdata, .instr (.rdI2cBuf 0), .instr (.rdI2cBuf 255), .instr (.rdPwmStatus 1),
        .instr (.rdPwmDuty 1), .instr (.rdPwmPeriod 1), .instr (.rdPwmLine 1), .instr (.rdPwmPeriodArg 1)] := by decide

theorem test_decode_writes :
    decode cfg2 ⟨.write, 0x10C, .w32, 0x1234ABCD⟩ = .instr (.wrI2cBuf 3 0x1234ABCD) ∧
    decode cfg2 ⟨.write, 0x814, .w32, 0xFFFFFFFF⟩ = .instr (.wrPwmPeriodArg 0 0xFFFFFFFF) ∧
    decode cfg2 ⟨.write, 0x004, .w32, 1⟩ = .readOnlyWrite ∧ decode cfg2 ⟨.read, 0x820, .w32, 0⟩ = .commandRead := by
  decide

/-- Reserved forms: T-ST-3, T-WB-5, T-RB-4, T-WF-10, T-RJ-1. -/
theorem test_decode_reserved_i2c :
    [0x00000011, 0x00000102, 0x80000003, 0x000000A4, 0x00010004, 0x0000A514, 0x00000015, 0x00000105, 0x01500026,
      0x01508006, 0x00000000, 0x00000008, 0x0000000F].all (fun w => decodeI2c w == none) = true := by decide

theorem test_decode_reserved_pwm :
    [0x00000000, 0x20000012, 0x00010033, 0x00000014, 0x80000005, 0x00010006, 0x00000107, 0x00000008, 0x0000000F].all
      (fun w => decodePwm 0 w == none) = true := by decide

theorem test_decode_bad_accesses :
    decode cfg2 ⟨.read, 0x00C, .w32, 0⟩ = .badAccess 0x00C ∧ decode cfg2 ⟨.read, 0x500, .w32, 0⟩ = .badAccess 0x500 ∧
    decode cfg2 ⟨.read, 0x818, .w32, 0⟩ = .badAccess 0x818 ∧ decode cfg2 ⟨.read, 0x840, .w32, 0⟩ = .badAccess 0x840 ∧
    decode cfg2 ⟨.read, 0x006, .w32, 0⟩ = .badAccess 0x006 ∧ decode cfg2 ⟨.read, 0x004, .w8, 0⟩ = .badAccess 0x004 ∧
    decode cfg2 ⟨.read, 0x1000, .w32, 0⟩ = .outsideWindow 0x1000 := by decide

/-- Words of the opcode table, and the step that runs one as the first instruction after reset (logs 15 and 16). -/
theorem test_table_words :
    decodeTableWord 32 0x0000A504 = some (.wrbyte 0xA5) ∧ decodeTableWord 32 0x40000002 = some (.pwmSetduty 0 0x4000) ∧
    decodeTableWord 16 0x0814 = some (.rdPwmPeriodArg 0) ∧ decodeTableWord 16 0x1814 = some (.wrPwmPeriodArg 0 0) := by
  decide

theorem test_step_runs_the_placed_word :
    step (State.reset.withFetchWord 32 0x0000A504) = exec (.wrbyte 0xA5) State.reset := by rfl

/-! ### I2C commands: the accepting step (95_test_vectors.md 2.1 to 2.4) -/

theorem test_start_accepted :
    (wr 0 0x00000001 State.reset).map (fun s => (s.i2c.busy, s.i2c.cur, s.i2c.pos, s.trace)) =
      some (true, 0x00000001, ⟨.start, []⟩, []) := by decide
theorem test_rstart_accepted :
    (wr 0 0x00000002 State.reset).map (fun s => (s.i2c.busy, s.i2c.pos)) = some (true, ⟨.rstart, []⟩) := by decide
/-- T-RJ-6: acceptance clears ERR. -/
theorem test_stop_accepted_clears_err :
    (wr 0 0x00000003 (raiseReject (.i2c .bufBusy) State.reset)).map (fun s => (i2cStatus s.i2c, s.i2c.pos.stage)) =
      some (0x00000001, .stop) := by decide
/-- T-RJ-2, T-RJ-3: busy outranks reserved and length, and the command in flight keeps its place. -/
theorem test_busy_outranks :
    [0x00000001, 0x00000000, 0x00680007].map
        (fun w => (wr 0 w (engineAt 0x3 .stop [.drive .sda true] [])).map fun s => (i2cStatus s.i2c, s.i2c.cur, s.i2c.pos)) =
      List.replicate 3 (some (0x00000201, 0x3, ⟨.stop, [.drive .sda true]⟩)) := by decide
theorem test_wrbyte_accepted :
    (wr 0 0x0000A504 State.reset).map (fun s => (s.i2c.cur, pendingActions s == writeByteSeq 0xA5)) =
      some (0x0000A504, true) := by decide
theorem test_rdbyte_accepted :
    (wr 0 0x00000025 State.reset).map (fun s => (s.i2c.cur, pendingActions s == readByteSeq true)) =
      some (0x00000025, true) := by decide
/-- A frame's acceptance clears RESULT and XCNT and keeps ACK (R172). -/
theorem test_wrframe_accepted :
    (wr 0 0x01500006 { State.reset with i2c := { I2c.reset with ack := true, result := true, xcnt := 9 } }).map
        (fun s => i2cStatus s.i2c) = some 0x00000003 := by decide
/-- T-WF-8 and T-RJ-4: bad length, and reserved before it. -/
theorem test_wrframe_bad_length :
    [0x80D00006, 0xFFD00006, 0x80D00026].map (fun w => (wr 0 w State.reset).map fun s => i2cStatus s.i2c) =
      [some 0x00000300, some 0x00000300, some 0x00000100] := by decide
theorem test_rdframe_accepted :
    (wr 0 0x80680007 State.reset).map (fun s => (s.i2c.busy, s.i2c.pos.stage, curLen s, curIsRead s)) =
      some (true, .frameStart, 256, true) := by decide
/-- T-RF-2. -/
theorem test_rdframe_zero_length : (wr 0 0x00680007 State.reset).map (fun s => i2cStatus s.i2c) = some 0x00000300 := by decide

/-! ### I2C commands: one engine step (40 to 42; the port byte of SDA is P0.0) -/

/-- The last action of START, W(SCL,0), clears BUSY; the store keeps the other bits drawn (R20, R130). -/
theorem test_start_last_action :
    let t := engineStep (engineAt 0x1 .start [.drive .scl false] [0xFF])
    t.trace = [⟨.engine, ⟨0, 1, false⟩, .write, false, 0xFF, some 0xFD⟩] ∧ t.i2c.busy = false := by decide
theorem test_rstart_first_action :
    (engineStep (engineAt 0x2 .rstart [] [0x00])).trace =
      [⟨.engine, ⟨0, 1, false⟩, .write, true, 0x00, some 0x02⟩] := by decide
theorem test_stop_last_action :
    let t := engineStep (engineAt 0x3 .stop [.drive .sda true] [0x02])
    t.trace = [⟨.engine, ⟨0, 0, false⟩, .write, true, 0x02, some 0x03⟩] ∧ t.i2c.busy = false := by decide
/-- T-WB-1: a low sample is an acknowledge. -/
theorem test_wrbyte_ack :
    i2cStatus (engineStep (engineAt 0xA504 (.sendByte false) [.drive .sda true] [0])).i2c = 0x00000002 := by decide
theorem test_wrbyte_samples_sda :
    (engineStep (engineAt 0xA504 (.sendByte false) [.sample, .drive .scl false, .drive .sda true] [0x01])).i2c.pos =
      ⟨.sendByte true, [.drive .scl false, .drive .sda true]⟩ := by decide
/-- T-RB-1: the eighth sample, 0, makes 0x3C of 0x1E; the last action writes I2C_RXDATA. -/
theorem test_rdbyte_shift :
    (engineStep (engineAt 0x25 (.recvByte 0x1E) [.sample, .drive .scl false] [0xFE])).i2c.pos.stage =
      .recvByte 0x3C := by decide
theorem test_rdbyte_result :
    let t := engineStep (engineAt 0x25 (.recvByte 0x3C) [.drive .sda true] [0])
    i2cRxdata t.i2c = 0x0000003C ∧ i2cStatus t.i2c = 0 := by decide
/-- A WRFRAME's address acknowledged with LEN = 0 goes to end_frame (T-WF-2). -/
theorem test_wrframe_address_ack :
    (engineStep (engineAt 0x00500006 (.frameAddr false) [.drive .sda true] [0])).i2c.pos = ⟨.frameEnd, []⟩ := by decide
/-- T-WF-3: data byte 1 not acknowledged: XCNT stays 1 and stop_seq follows. -/
theorem test_wrframe_nack :
    let s := engineAt 0x013C0006 (.frameSend 1 true) [.drive .sda true] [0]
    let t := engineStep { s with i2c := { s.i2c with ack := true, xcnt := 1 } }
    i2cStatus t.i2c = 0x00010001 ∧ t.i2c.pos = ⟨.frameAbort, []⟩ := by decide
/-- T-RF-1: data byte 0 stored; the next byte is the last and is not acknowledged. -/
theorem test_rdframe_stores :
    let t := engineStep (engineAt 0x01680007 (.frameRecv 0 0x12) [.drive .sda true] [0])
    t.buf = [(0, 0x12)] ∧ t.i2c.xcnt = 1 ∧ pendingActions t = readByteSeq false := by decide

/-! ### The result registers and the frame buffer (T-RJ-5 to T-RJ-7) -/

theorem test_rd_status : rd 0x004 (raiseReject (.i2c .busy) (engineAt 0x1 .start [] [])) = some 0x00000201 := by decide
theorem test_rd_rxdata : rd 0x008 { State.reset with i2c := { I2c.reset with rxbyte := 0xF0 } } = some 0x000000F0 := by decide
theorem test_rd_buf : rd 0x104 { State.reset with buf := [(0, 0x99), (1, 0x98)] } = some 0x00000098 := by decide
theorem test_rd_buf_busy :
    (next? (step { engineAt 0x1 .start [] [] with agenda := [.host ⟨.read, 0x100, .w32, 0⟩], buf := [(0, 0x99)], rdata := 5 })).map
        (fun s => (s.rdata, i2cStatus s.i2c, s.buf)) = some (0, 0x00000401, [(0, 0x99)]) := by decide
theorem test_wr_buf : (wr 0x104 0x1234AB77 { State.reset with buf := [(0, 0x99)] }).map State.buf =
    some [(0, 0x99), (1, 0x77)] := by decide
theorem test_wr_buf_busy :
    (wr 0x100 0x11 { engineAt 0x1 .start [] [] with buf := [(0, 0x99)] }).map (fun s => (s.buf, i2cStatus s.i2c)) =
      some ([(0, 0x99)], 0x00000401) := by decide
theorem test_write_read_only : (wr 0x004 0xFFFFFFFF State.reset).map (fun s => i2cStatus s.i2c) = some 0 := by decide

/-- T-AC-2: a refused access changes no state of the block, is recorded, and the engine goes on (R73, R75, R248). -/
theorem test_refused_access_goes_on :
    let s := engineAt 0x1 .start [.drive .scl false] [0xFF]
    let t := next? (step { s with agenda := [.host ⟨.write, 0x500, .w32, 1⟩, .engine] })
    t = some { s with agenda := [.engine], faults := [.badAccess 0x500] } ∧
    (t.bind fun t => next? (step t)).map (fun u => (u.i2c.busy, u.faults)) = some (false, [.badAccess 0x500]) := by decide

/-! ### PWM configuration (T-PC-1 to T-PC-8) -/

theorem test_pwm_init :
    ((wr 0x800 0x20000031 (withChans { Channel.reset 1000000 with periodArg := 20000, err := .line } built)).bind ch0).map
        (fun c => (pwmLine c, pwmDuty c, c.period, pwmStatus c)) =
      some (0x00000003, 0x00002000, 0x00004E20, 0x00000008) := by decide
/-- T-PC-5: line before duty before period. -/
theorem test_pwm_init_check_order :
    [0x40010101, 0x40010031, 0x20000031].map (fun w =>
        ((wr 0x800 w (withChans { Channel.reset 1000000 with periodArg := 0 } built)).bind ch0).map pwmStatus) =
      [some 0x00000300, some 0x00000200, some 0x00000400] := by decide
theorem test_pwm_setduty :
    [0x40000002, 0x00000002, 0x40010002, 0x80000002].map (fun w =>
        ((wr 0x800 w (withChans built built)).bind ch0).map fun c => (c.duty, pwmStatus c)) =
      [some (0x4000, 0x008), some (0x0000, 0x008), some (0x2000, 0x208), some (0x2000, 0x208)] := by decide
theorem test_pwm_setline :
    [0x000001F3, 0x00000103].map (fun w => ((wr 0x800 w (withChans built built)).bind ch0).map fun c => (pwmLine c, pwmStatus c)) =
      [some (0x00000003, 0x308), some (0x00000003, 0x308)] ∧
    ((wr 0x800 0x00000203 (withChans built built)).bind ch0).map (fun c => (pwmLine c, pwmStatus c)) =
      some (0x00000020, 0x008) := by decide
/-- T-PC-7. -/
theorem test_pwm_not_constructed :
    [0x20000002, 0x00000033, 0x00000004].map (fun w => ((wr 0x800 w State.reset).bind ch0).map pwmStatus) =
      List.replicate 3 (some 0x00000600) := by decide
theorem test_rd_pwm_registers :
    [0x824, 0x828, 0x82C, 0x830, 0x834].map (fun off => rd off (withChans built { live with line := ⟨3, 5, true⟩, periodArg := 9 })) =
      [some 0x00000039, some 0x00002000, some 4, some 0x0000003D, some 9] := by decide
theorem test_wr_period_arg :
    ((wr 0x814 0 (withChans live built)).bind ch0).map (fun c => (c.periodArg, c.period, pwmStatus c)) =
      some (0, 4, 0x00000039) := by decide

/-! ### PWM worker (44_pwm_worker.md) -/

/-- START's snapshot: S_P = 4, S_ON = 2, CNT = 0, and OUT keeps (R210, R211). -/
theorem test_pwm_start :
    ((wr 0x800 0x00000004 (withChans { built with cnt := 3, out := true } built)).bind ch0).map
        (fun c => (c.sLine, c.sP, c.sOn, c.cnt, pwmStatus c)) = some (p03, 4, 2, 0, 0x00000039) := by decide
/-- Another live worker on the line, or SDA's line, gives 7; a live worker of the channel itself gives 5 (R218). -/
theorem test_pwm_start_refused :
    ((wr 0x800 4 (withChans built live)).bind ch0).map pwmStatus = some 0x00000708 ∧
    ((wr 0x800 4 (withChans { built with line := ⟨0, 0, true⟩ } built)).bind ch0).map pwmStatus = some 0x00000708 ∧
    ((wr 0x800 4 (withChans live built)).bind ch0).map pwmStatus = some 0x00000539 := by decide
theorem test_pwm_pause :
    ((wr 0x800 5 (withChans live built)).bind ch0).map pwmStatus = some 0x0000005A ∧
    ((wr 0x800 5 (withChans built built)).bind ch0).map pwmStatus = some 0x00000508 := by decide
theorem test_pwm_resume :
    ((wr 0x800 6 (withChans { live with state := .paused } built)).bind ch0).map pwmStatus = some 0x00000039 ∧
    ((wr 0x800 6 (withChans live built)).bind ch0).map pwmStatus = some 0x00000539 := by decide
theorem test_pwm_stop :
    ((wr 0x800 7 (withChans live built)).bind ch0).map pwmStatus = some 0x0000003D ∧
    ((wr 0x800 7 (withChans { live with stopPend := true } built)).bind ch0).map pwmStatus = some 0x0000053D := by decide

/-- The tick steps at CNT = 0, inside a phase, at CNT = S_ON and at a stop (R220). -/
theorem test_tick_steps :
    (let t := tickStep 0 { withChans { live with cnt := 0, out := false } built with portIn := [0x01] }
     t.trace = [⟨.worker 0, p03, .write, true, 0x01, some 0x09⟩] ∧ (ch0 t).map (fun c => (c.out, c.cnt)) = some (true, 1)) ∧
    (let t := tickStep 0 (withChans live built)
     t.trace = [] ∧ (ch0 t).map Channel.cnt = some 2) ∧
    (let t := tickStep 0 { withChans { live with cnt := 2 } built with portIn := [0x09] }
     t.trace = [⟨.worker 0, p03, .write, false, 0x09, some 0x01⟩] ∧ (ch0 t).map (fun c => (c.out, c.cnt)) = some (false, 3)) ∧
    (let t := tickStep 0 { withChans { live with cnt := 2, stopPend := true } built with portIn := [0x09] }
     t.trace = [⟨.worker 0, p03, .write, false, 0x09, some 0x01⟩] ∧ (ch0 t).map pwmStatus = some 0x0000000B) := by decide

/-- A tick is due once per channel, and the time base waits for the steps due (R221). -/
theorem test_tick_scheduling :
    (timeTick (withChans live built)).due = [0, 1] ∧ (timeTick (withChans live built)).tickNo = 1 ∧
    timeTick { withChans live built with due := [1] } = { withChans live built with due := [1] } ∧
    (ch0 (workerStep 0 { withChans live built with due := [1] })).map Channel.cnt = some 1 := by decide

/-- Reset gives the values of R45 and keeps the inputs; the workers end with no line action (R272). -/
theorem test_reset_event :
    (next? (step { withChans live built with agenda := [.reset, .engine] })).map
        (fun s => ((ch0 s).map pwmStatus, s.trace, s.agenda)) = some (some 0, [], [.engine]) := by decide

/-! ### The host-program notation (R114, R116) -/

theorem test_assembler :
    asmProgram 0 [.i2cFill [0x10, 0x20], .i2cWrite 0x50 2 false, .i2cSync] =
      some [.wr (.i2cBuf 0) 0x10, .wr (.i2cBuf 1) 0x20, .wr .i2cCmd 0x01500006, .rd 7 .i2cStatus, .bne 7 1 0 3] ∧
    asmExpand 0 (.i2cWrbyte 256) = none ∧ asmDuty 1 2 = some 0x2000 := by decide

/-! ### Witnesses: states and operands that meet the hypotheses of each statement -/

/-- An engine in the middle of WRBYTE 0xA5, a live worker on P0.3 and an idle channel, the engine moving next. -/
def busyState : State :=
  { withChans live built with
    i2c := { I2c.reset with busy := true, cur := 0xA504, pos := ⟨.sendByte true, [.drive .scl false, .drive .sda true]⟩ },
    buf := [(3, 0x99)], agenda := [.engine], portIn := [0x01, 0x02], due := [1] }

/-- Another agenda. -/
def withAgenda (s : State) (l : List Event) : State := { s with agenda := l }

theorem witness_DecodeOfEncode : cfg2.wf = true ∧ (Instr.wrframe 511 0x7F true).wf cfg2 = true ∧
    (Instr.pwmInit 1 0xFFFF ⟨255, 7, true⟩).wf cfg2 = true ∧ (Instr.rdI2cBuf 255).wf cfg2 = true := by decide

theorem witness_EncodeOfDecode : decode cfg2 ⟨.read, 0x4FC, .w32, 5⟩ = .instr (.rdI2cBuf 255) ∧
    decode cfg2 ⟨.write, 0x820, .w32, 4⟩ = .instr (.pwmStart 1) := by decide

theorem witness_AtMostOneCommandMatches :
    (∃ r ∈ i2cTable, (0x8050FFF6 &&& 0xFFFF001F : Word) &&& r.mask = r.pattern) ∧
    (∃ r ∈ pwmTable, (0x00000004 : Word) &&& r.mask = r.pattern) ∧
    (∀ r ∈ i2cTable, (0 : Word) &&& r.mask ≠ r.pattern) ∧ (∀ r ∈ pwmTable, (0 : Word) &&& r.mask ≠ r.pattern) := by decide

theorem witness_StepRunsTheDecodedInstruction :
    let s := withAgenda busyState [.host ⟨.write, 0x810 + 0x10, .w32, 7⟩, .engine]
    s.cfg.wf = true ∧ s.agenda = .host ⟨.write, 0x820, .w32, 7⟩ :: [.engine] ∧
    decode s.cfg ⟨.write, 0x820, .w32, 7⟩ = .instr (.pwmStop 1) := by decide

/-- The offsets and accesses where the clauses begin and end, none of them mapped. -/
theorem witness_UnmappedOrMisaligned :
    cfg2.wf = true ∧
    ([(0x000, Width.w8), (0x4FC, .w16), (0x001, .w32), (0x005, .w32), (0x00C, .w32), (0x0FC, .w32), (0x500, .w32),
      (0x7FC, .w32), (0x840, .w32), (0xFFC, .w32), (0x818, .w32), (0x83C, .w32)].all fun p =>
        decide (p.1 < 0x1000) &&
        decide (p.2 ≠ .w32 ∨ p.1 % 4 ≠ 0 ∨ (0x00C ≤ p.1 ∧ p.1 < 0x100) ∨ (0x500 ≤ p.1 ∧ p.1 < 0x800) ∨
          (0x800 ≤ p.1 ∧ cfg2.nPwm ≤ (p.1 - 0x800) / 0x20) ∨ (0x800 ≤ p.1 ∧ 0x18 ≤ (p.1 - 0x800) % 0x20)) &&
        (next? (step (withAgenda busyState [.host ⟨.write, p.1, p.2, 1⟩]))).isSome) = true ∧
    (withAgenda busyState [.host ⟨.write, 0x005, .w32, 1⟩]).agenda = [.host ⟨.write, busyState.cfg.base + 5, .w32, 1⟩] := by
  decide

theorem witness_ReadOnlyWritesAndCommandReads : busyState.cfg.wf = true ∧ 1 < busyState.cfg.nPwm := by decide

theorem witness_ReservedWordsAreRejected :
    busyState.cfg.wf = true ∧ 1 < busyState.cfg.nPwm ∧ busyState.chans.length = busyState.cfg.nPwm ∧
    fieldOp 0x00000000 = 0 ∧ 8 ≤ (fieldOp 0x00000008).toNat ∧
    (∀ r ∈ i2cTable, (0x00000011 : Word) &&& r.mask ≠ r.pattern) ∧
    (∀ r ∈ pwmTable, (0x00010033 : Word) &&& r.mask ≠ r.pattern) := by decide

theorem witness_MissingRegistersAreRefused : busyState.chans.length ≤ 2 ∧ Config.frameMax ≤ 256 := by decide

/-- An access just below the window, and one just above it. -/
theorem witness_AccessOutsideTheWindow :
    let s : State := { busyState with cfg := { cfg2 with base := 0x1000 } }
    s.cfg.wf = true ∧ 0x0FFC < s.cfg.base ∧ s.cfg.base + 0x1000 ≤ 0x2000 ∧
    (withAgenda s [.host ⟨.read, 0x0FFC, .w32, 0⟩]).agenda = [.host ⟨.read, 0x0FFC, .w32, 0⟩] ∧
    (withAgenda s [.host ⟨.read, 0x2000, .w32, 0⟩]).agenda = [.host ⟨.read, 0x2000, .w32, 0⟩] := by decide

/-- An idle engine, and frame lengths at the ends of their ranges (R174). -/
theorem witness_idle_engine : (withChans live built).i2c.busy = false ∧ (withChans live built).cfg.wf = true ∧
    Memory.wf (withChans live built).buf = true ∧
    (0 : BitVec 9).toNat ≤ 256 ∧ (256 : BitVec 9).toNat ≤ 256 ∧ 1 ≤ (1 : BitVec 9).toNat ∧ 256 < (257 : BitVec 9).toNat ∧
    256 < (511 : BitVec 9).toNat := by decide

/-- A busy engine, and the last entry of the frame buffer. -/
theorem witness_busy_engine : busyState.i2c.busy = true ∧ 255 < 256 := by decide

/-- The three procedures a busy engine can be at the start of, the last two inside a frame (R133). -/
theorem witness_LevelsAfterEachCondition :
    (∀ p ∈ [(0x01500006, Stage.frameStart, startSeq), (0x01500016, .frameEnd, rstartSeq), (0x01500016, .frameAbort, stopSeq)],
      let s := engineAt p.1 p.2.1 [] []
      s.i2c.busy = true ∧ s.cfg.wf = true ∧ s.i2c.pos.todo = [] ∧ stageActions s s.i2c.pos.stage = p.2.2) := by decide

/-- The inputs the samples of WRBYTE and RDBYTE come from: the 28th, and the 3rd to the 24th. -/
theorem witness_samples :
    let s := { withChans live built with portIn := List.replicate 30 0x01 }
    s.i2c.busy = false ∧ s.portIn[27]? = some 0x01 ∧ s.portIn[2 + 3 * 0]? = some 0x01 ∧ s.portIn[2 + 3 * 7]? = some 0x01 := by
  decide

theorem witness_ReadByteCounts : (readByteSeq true)[2]? = some .sample ∧ (readByteSeq true)[23]? = some .sample := by decide

theorem witness_EveryAcceptedCommandCompletes :
    ∃ t u v, exec (.rdframe 256 0x68 true) (withChans live built) = .next t ∧ t.i2c.busy = true ∧
      exec (.wrbyte 0) (withChans live built) = .next u ∧ u.i2c.busy = true ∧
      exec (.rdbyte false) (withChans live built) = .next v ∧ v.i2c.busy = true := ⟨_, _, _, rfl, rfl, rfl, rfl, rfl, rfl⟩

theorem witness_FrameBuffer :
    busyState.i2c.busy = true ∧ (withChans live built).i2c.busy = false ∧ 255 < 256 ∧ 0 < 256 ∧
    Memory.wf { withChans live built with buf := [(0, 0x99), (255, 1)] }.buf = true := by decide

theorem witness_InitConstructsTheChannel :
    (withChans live built).chans[1]? = some built ∧ (withChans live built).cfg.supportsOutput p20 = true ∧
    (0x4000 : BitVec 16).toNat ≤ 0x4000 ∧ (0 : BitVec 16).toNat ≤ 0x4000 ∧ built.periodArg ≠ 0 ∧ built.cfgValid = true := by
  decide

/-- Each clause's condition, on the duties next to the ends of the range (R243). -/
theorem witness_PwmRejectionsInOrder :
    (withChans live built).chans[0]? = some live ∧ (withChans live built).chans[1]? = some built ∧
    cfg2.supportsOutput p10 = false ∧ cfg2.supportsOutput p03 = true ∧ 0x4000 < (0x4001 : BitVec 16).toNat ∧
    0x4000 < (0xFFFF : BitVec 16).toNat ∧ { built with periodArg := 0 }.periodArg = 0 ∧ built.cfgValid = true ∧
    (Channel.reset 50).cfgValid = false ∧ live.state = .running ∧ built.state = .idle ∧
    ownedElsewhere 1 built.line (withChans live built) = true := by decide

theorem witness_PwmRegisters : (withChans live built).chans[0]? = some live := by decide

/-- A step of the host that is no START of channel 0, both before and after it a channel 0. -/
theorem witness_OnlyStartTakesASnapshot :
    let s := withAgenda busyState [.host ⟨.write, 0x820, .w32, 4⟩]
    ∃ t c', step s = .next t ∧ s.chans[0]? = some live ∧ t.chans[0]? = some c' ∧ nextEvent s ≠ .reset ∧
      ∀ a, nextEvent s = .host a → decode s.cfg a ≠ .instr (.pwmStart 0) :=
  ⟨_, _, rfl, rfl, rfl, nofun, fun _ h => by cases h; decide⟩

theorem witness_StartSnapshotsAndRuns :
    (withChans built built).chans[0]? = some built ∧ built.cfgValid = true ∧ built.state = .idle ∧ built.stopPend = false ∧
    ownedElsewhere 0 built.line (withChans built built) = false ∧ { built with state := .stopped }.state = .stopped := by
  decide

/-- A live channel, with a stop pending or not, whose line no one else owns (R217). -/
theorem witness_CommandStateTable :
    (withChans live built).chans[0]? = some live ∧ live.cfgValid = true ∧ live.stopPend = false ∧
    ownedElsewhere 0 live.line (withChans live built) = false ∧ { live with stopPend := true }.stopPend = true ∧
    { live with state := .paused }.state = .paused := by decide

theorem witness_OnTicks : 1 ≤ (1 : Word).toNat ∧ 1 ≤ (20000 : Word).toNat ∧ (0x4000 : BitVec 16).toNat ≤ 16384 := by
  simp

theorem witness_WorkerIsADutyCycleComparator :
    let c := { live with cnt := 0, out := false }
    (withChans c built).chans[0]? = some c ∧ c.state = .running ∧ c.stopPend = false ∧ c.cnt = 0 ∧ 1 ≤ c.sP.toNat ∧
    c.sOn.toNat ≤ c.sP.toNat := by decide

/-- Workers at CNT = 0, with S_ON = 0 and a stop pending or not, and with S_ON = S_P and none: the tick step writes. -/
theorem witness_DutyZeroNeverHighDutyOneNeverLow :
    ∀ p ∈ [((0 : Word), false), (0, true), (4, false)],
      let c := { live with cnt := 0, sOn := p.1, stopPend := p.2 }
      workerInv cfg2 c ∧ (withChans c built).chans[0]? = some c ∧
        ∃ a, (tickStep 0 (withChans c built)).trace = a :: (withChans c built).trace := by
  intro p h
  simp only [List.mem_cons, List.not_mem_nil, or_false] at h
  rcases h with rfl | rfl | rfl <;> exact ⟨by simp only [workerInv]; decide, rfl, _, rfl⟩

/-- A stop pending, and a pause, inside the on-phase, and the frozen worker of R225. -/
theorem witness_stop_pause_resume :
    workerInv cfg2 { live with stopPend := true } ∧ workerInv cfg2 { live with state := .paused } ∧
    workerInv cfg2 { live with state := .paused, cnt := 0, out := false } ∧ live.stopPend = false ∧ 1 ≤ live.sP.toNat := by
  simp only [workerInv]; decide

/-- A step out of Stopped: the host's START. -/
theorem witness_StoppedIsTerminal :
    let c := { built with state := .stopped }
    let s := withAgenda (withChans c built) [.host ⟨.write, 0x800, .w32, 4⟩]
    c.state = .stopped ∧ ∃ t c', step s = .next t ∧ s.chans[0]? = some c ∧ t.chans[0]? = some c' ∧ c'.state ≠ .stopped :=
  ⟨rfl, _, _, rfl, rfl, rfl, by decide⟩

theorem witness_OneTickStepPerTick :
    (withChans live built).due = [] ∧ busyState.due ≠ [] ∧ dueInv busyState ∧ 1 ∈ busyState.due ∧
    0 ∉ busyState.due := by
  simp only [dueInv]; decide

theorem witness_ResetAbandonsWorkInFlight :
    let s := withAgenda busyState [.reset]
    s.cfg.wf = true ∧ s.agenda = .reset :: [] := by decide

/-- A state in the middle of a byte and of a period keeps every invariant, and the engine's step is a next state. -/
theorem witness_StepKeepsTheBlockInvariant : blockInv busyState ∧ ∃ t, step busyState = .next t := by
  refine ⟨⟨?_, ?_, ?_, ?_, ?_, ?_⟩, _, rfl⟩
  · simp only [memoryInv]; decide
  · simp only [channelsInv, channelInv]; decide
  · simp only [workersInv, workerInv]; decide
  · refine ⟨fun j k cj ck hj hk hne ha hb => ?_, by decide⟩
    have live_is_zero : ∀ (n : Nat) (c : Channel), busyState.chans[n]? = some c → c.active = true → n = 0 := by
      intro n c hn hc
      rcases n with _ | _ | n
      · rfl
      · obtain rfl : built = c := by simpa [busyState, withChans] using hn
        exact absurd hc (by decide)
      · simp [busyState, withChans] at hn
    exact absurd ((live_is_zero j cj hj ha).trans (live_is_zero k ck hk hb).symm) hne
  · simp only [dueInv]; decide
  · exact ⟨by decide, fun _ => ⟨show fieldOp 0xA504 = 4 by decide, ⟨(writeByteSeq 0xA5).take 28, by decide⟩, nofun⟩⟩

/-- Steps that change BUSY either way, and CFG_VALID. -/
theorem witness_OnlyTheEngineOrResetEndsACommand :
    (∃ t, step (withAgenda (engineAt 0x1 .start [.drive .scl false] []) [.engine]) = .next t ∧ t.i2c.busy = false) ∧
    (∃ t, step (withAgenda (withChans live built) [.host ⟨.write, 0, .w32, 1⟩]) = .next t ∧ t.i2c.busy = true) ∧
    (∃ t c', step (withAgenda busyState [.reset]) = .next t ∧ t.chans[0]? = some c' ∧ live.cfgValid = true ∧
      c'.cfgValid = false) := ⟨⟨_, rfl, rfl⟩, ⟨_, rfl, rfl⟩, ⟨_, _, rfl, rfl, rfl, rfl⟩⟩

end Sys2Proof.Tests
end

section
/-! PROOF. The statements about the block's scope (00_scope.md): the line primitives of R20, the one line action of an
agent's step (R17, R81 to R83), and the fixed configuration (R22). -/

namespace Sys2Proof.Machine

open Sys2Proof Host

/-! ### The line primitives (R20) -/

/-- The mask of `putBit` has the one bit `n`. -/
theorem getLsbD_one_shiftLeft (n : Nat) {j : Nat} (hj : j < 8) : (1#8 <<< n).getLsbD j = decide (j = n) := by
  rw [Bool.eq_iff_iff, BitVec.getLsbD_shiftLeft, BitVec.getLsbD_one]
  have at_bit : n ≤ j ∧ j - n = 0 ↔ j = n := by omega
  simpa [hj] using at_bit

/-- Every bit of a port byte with bit `i` replaced. -/
theorem getLsbD_putBit (b : Byte) (i : BitVec 3) (v : Bool) {j : Nat} (hj : j < 8) :
    (putBit b i v).getLsbD j = if j = i.toNat then v else b.getLsbD j := by
  unfold putBit
  cases v with
  | true =>
    rw [if_pos rfl, BitVec.getLsbD_or, getLsbD_one_shiftLeft _ hj]
    by_cases h : j = i.toNat <;> simp [h]
  | false =>
    rw [if_neg (by decide), BitVec.getLsbD_and, BitVec.getLsbD_not, getLsbD_one_shiftLeft _ hj]
    by_cases h : j = i.toNat <;> simp [h, hj]

@[simp] theorem lineLevel_lineStore (l : LineDesc) (b : Byte) (v : Bool) : lineLevel l (lineStore l b v) = v := by
  rw [lineLevel, lineStore, getLsbD_putBit b l.bit _ l.bit.isLt, if_pos rfl, Bool.xor_assoc, Bool.xor_self, Bool.xor_false]

theorem getLsbD_lineStore_other (l : LineDesc) (b : Byte) (v : Bool) {i : Nat} (hi : i < 8) (hne : i ≠ l.bit.toNat) :
    (lineStore l b v).getLsbD i = b.getLsbD i := by
  rw [lineStore, getLsbD_putBit b l.bit _ hi, if_neg hne]

/-- Settles O48: the bit read back is the bit replaced, and the polarity is applied twice. -/
theorem lineWriteChangesOneBit : Obligations.LineWriteChangesOneBit := fun l b v =>
  ⟨lineLevel_lineStore l b v, fun _ hi hne => getLsbD_lineStore_other l b v hi hne⟩

/-! ### The configuration (R22) -/

theorem step_cfg {s t : State} (h : step s = .next t) : t.cfg = s.cfg := by
  by_cases hr : nextEvent s = .reset
  · rw [step_reset h hr, resetBlock_cfg, takeEvent_cfg]
  · exact (step_chans h hr).1

/-- Settles O59: a reset keeps the configuration, and so does every other agent's step. -/
theorem configurationNeverChanges : Obligations.ConfigurationNeverChanges := fun _ _ => step_cfg

/-! ### The line action of a step (R81 to R83) -/

/-- What a LineWrite of `v` to line `l` in state `s` adds to the trace (`lineWrite_trace`). -/
def writeAction (who : Agent) (l : LineDesc) (v : Bool) (s : State) : LineAction :=
  ⟨who, l, .write, v, portValue s, some (lineStore l (portValue s) v)⟩

/-- What the engine's line action in state `s` adds to the trace (`performAction_trace`). -/
def engineAction (s : State) : BusAction → LineAction
  | .drive w v => writeAction .engine (wireLine s.cfg w) v s
  | .sample => ⟨.engine, s.cfg.sda, .read, lineReadValue s.cfg.sda s, portValue s, none⟩

@[simp] theorem engineAction_agent (s : State) (a : BusAction) : (engineAction s a).agent = .engine := by
  cases a <;> rfl

theorem wireLine_eq_or (c : Config) (w : Wire) : wireLine c w = c.sda ∨ wireLine c w = c.scl := by
  cases w
  · exact .inl rfl
  · exact .inr rfl

/-- A write keeps the port discipline, if the engine's own are on SDA and SCL. -/
theorem writeAction_ok {c : Config} {who : Agent} {l : LineDesc} (v : Bool) (s : State)
    (h : who = .engine → l = c.sda ∨ l = c.scl) : actionOk c (writeAction who l v s) :=
  ⟨h, nofun, fun _ => ⟨_, rfl, lineLevel_lineStore l _ v, fun _ hi hne => getLsbD_lineStore_other l _ v hi hne⟩⟩

theorem engineAction_ok (s : State) (a : BusAction) : actionOk s.cfg (engineAction s a) := by
  cases a with
  | drive w v => exact writeAction_ok v s fun _ => wireLine_eq_or s.cfg w
  | sample => exact ⟨fun _ => .inl rfl, fun _ => ⟨rfl, rfl, rfl, rfl⟩, nofun⟩

theorem performAction_trace (a : BusAction) (s : State) :
    (performAction a s).trace = engineAction s a :: s.trace := by
  cases a with
  | drive w v => exact lineWrite_trace .engine (wireLine s.cfg w) v s
  | sample => exact lineReadNext_trace .engine s.cfg.sda s

theorem finishStage_trace (s : State) : (finishStage s).trace = s.trace := by
  obtain ⟨-, -, -, -, -, -, htrace, -⟩ := finishStage_frame s
  exact htrace

theorem engineStep_idle {s : State} (hb : s.i2c.busy = false) : engineStep s = s := by
  simp [engineStep, hb]

/-- A busy engine's step performs the first of the pending line actions. -/
theorem engineStep_busy_trace {s : State} (hb : s.i2c.busy = true) :
    ∃ a, (pendingActions s).head? = some a ∧ (engineStep s).trace = engineAction s a :: s.trace := by
  rcases engineStep_cases s with ⟨hi, -⟩ | ⟨-, a, rest, hp, ⟨-, he⟩ | ⟨-, he⟩⟩
  · simp [hi] at hb
  · exact ⟨a, by rw [hp]; rfl, by rw [he, finishStage_trace, setTodo_trace, performAction_trace]⟩
  · exact ⟨a, by rw [hp]; rfl, by rw [he, setTodo_trace, performAction_trace]⟩

/-- Settles O25: a busy engine always has a line action pending, and performs the first. -/
theorem engineStepIsOneLineAction : Obligations.EngineStepIsOneLineAction := fun s => by
  refine ⟨fun hb => ?_, engineStep_idle⟩
  obtain ⟨a, -, htrace⟩ := engineStep_busy_trace hb
  exact ⟨engineAction s a, htrace, engineAction_agent s a⟩

theorem execEffect_trace {i : Instr} {s t : State} (h : ExecEffect s i t) : t.trace = s.trace := by
  cases h <;> rfl

/-- The host performs no line action (R81). -/
theorem hostAccess_trace {a : HostAccess} {s t : State} (h : hostAccess a s = .next t) : t.trace = s.trace := by
  rcases hostAccess_next h with ⟨i, -, he⟩ | ⟨e, rfl⟩ | ⟨k, rfl⟩ | rfl | rfl | ⟨f, rfl⟩
  · exact execEffect_trace he
  all_goals rfl

@[simp] theorem timeTick_trace (s : State) : (timeTick s).trace = s.trace := by
  unfold timeTick; split <;> rfl

/-- A tick step performs no line action, or one write of the line of its channel's snapshot (R220). -/
theorem tickStep_trace (k : Nat) (s : State) :
    (tickStep k s).trace = s.trace ∨
      ∃ c v, s.chans[k]? = some c ∧ (tickStep k s).trace = writeAction (.worker k) c.sLine v s :: s.trace := by
  rcases tickStep_cases k s with h | ⟨c, hk, -, ⟨-, -, h⟩ | ⟨-, -, -, h⟩ | ⟨-, -, -, h⟩ | ⟨-, -, h⟩⟩ <;> rw [h]
  · exact .inl rfl
  · exact .inr ⟨c, _, hk, lineWrite_trace ..⟩
  · exact .inr ⟨c, _, hk, lineWrite_trace ..⟩
  · exact .inr ⟨c, _, hk, lineWrite_trace ..⟩
  · exact .inl rfl

theorem workerStep_trace (k : Nat) (s : State) :
    (workerStep k s).trace = s.trace ∨
      ∃ c v, s.chans[k]? = some c ∧ (workerStep k s).trace = writeAction (.worker k) c.sLine v s :: s.trace := by
  rcases workerStep_cases k s with ⟨-, h⟩ | ⟨-, h⟩ <;> rw [h]
  · exact tickStep_trace k { s with due := s.due.erase k }
  · exact .inl rfl

/-- Settles O49: only the engine and the workers add to the trace, and each at most one action. -/
theorem eachStepPerformsAtMostOneLineAction : Obligations.EachStepPerformsAtMostOneLineAction := fun s s' hs => by
  obtain ⟨-, h⟩ := step_next hs
  cases he : nextEvent s with rw [he] at h
  | host a => exact .inl ((hostAccess_trace h).trans (takeEvent_trace s))
  | tick =>
    obtain rfl := Outcome.next.inj h
    exact .inl (by simp)
  | reset =>
    obtain rfl := Outcome.next.inj h
    exact .inl (by simp)
  | engine =>
    obtain rfl := Outcome.next.inj h
    cases hb : (takeEvent s).i2c.busy with
    | false => exact .inl (by rw [engineStep_idle hb, takeEvent_trace])
    | true =>
      obtain ⟨a, -, htrace⟩ := engineStep_busy_trace hb
      refine .inr ⟨engineAction (takeEvent s) a, by rw [htrace, takeEvent_trace], ?_, fun _ => rfl, ?_⟩
      · simpa using engineAction_ok (takeEvent s) a
      · simp
  | worker k =>
    obtain rfl := Outcome.next.inj h
    rcases workerStep_trace k (takeEvent s) with htrace | ⟨c, v, hk, htrace⟩
    · exact .inl (by rw [htrace, takeEvent_trace])
    · refine .inr ⟨writeAction (.worker k) c.sLine v (takeEvent s), by rw [htrace, takeEvent_trace],
        writeAction_ok v _ nofun, nofun, fun j hj => ?_⟩
      obtain rfl : k = j := Agent.worker.inj hj
      exact ⟨rfl, c, by simpa using hk, rfl⟩

end Sys2Proof.Machine
end

section
/-! PROOF. What one step can do, read off agent by agent, and what it does to the I2C engine and the frame buffer. -/

namespace Sys2Proof.Machine

open Sys2Proof Host

/-! ### The agents of a step -/

/-- The step of the machine is one agent's, taken after the choice of the agent has left the inputs (R87). -/
theorem step_cases {s t : State} (h : step s = .next t) :
    (∃ a, nextEvent s = .host a ∧ hostAccess a (takeEvent s) = .next t) ∨
    (nextEvent s = .engine ∧ t = engineStep (takeEvent s)) ∨
    (nextEvent s = .tick ∧ t = timeTick (takeEvent s)) ∨
    (∃ k, nextEvent s = .worker k ∧ t = workerStep k (takeEvent s)) ∨
    (nextEvent s = .reset ∧ t = resetBlock (takeEvent s)) := by
  obtain ⟨-, h⟩ := step_next h
  cases he : nextEvent s with rw [he] at h
  | host a => exact .inl ⟨a, rfl, h⟩
  | engine => exact .inr (.inl ⟨rfl, (Outcome.next.inj h).symm⟩)
  | tick => exact .inr (.inr (.inl ⟨rfl, (Outcome.next.inj h).symm⟩))
  | worker k => exact .inr (.inr (.inr (.inl ⟨k, rfl, (Outcome.next.inj h).symm⟩)))
  | reset => exact .inr (.inr (.inr (.inr ⟨rfl, (Outcome.next.inj h).symm⟩)))

/-! ### The engine's registers and the frame buffer under the host, the time base and the workers -/

/-- What a host access can do to the engine's registers and the frame buffer (R35, R36, R79, R241). -/
inductive I2cHostEffect (s t : State) : Prop
  /-- at most ERR changes -/
  | kept (e : I2cErr) (hi : t.i2c = { s.i2c with err := e }) (hm : t.buf = s.buf)
  /-- a command that is no frame is accepted -/
  | started (w : Word) (st : Stage) (hb : s.i2c.busy = false) (hw : StartsAt w st) (ht : t = acceptI2c w st s)
  /-- a frame is accepted -/
  | frameStarted (w : Word) (hb : s.i2c.busy = false) (hw : FrameWord w) (ht : t = acceptFrame w s)
  /-- an entry of the frame buffer is written -/
  | stored (j : Nat) (b : Byte) (hb : s.i2c.busy = false) (hj : j < Config.frameMax) (ht : t = setEntry j b s)

theorem execEffect_i2c {i : Instr} {s t : State} (h : ExecEffect s i t) : I2cHostEffect s t := by
  cases h with
  | i2cRejected e => exact .kept e rfl rfl
  | pwmRejected k c hk e => exact .kept _ rfl rfl
  | started w st hb hw => exact .started w st hb hw rfl
  | frameStarted w hb hw => exact .frameStarted w hb hw rfl
  | answered v => exact .kept _ rfl rfl
  | refused f => exact .kept _ rfl rfl
  | bufReadRejected => exact .kept .bufBusy rfl rfl
  | stored j b hb hj => exact .stored j b hb hj rfl
  | channel k c c' hk hc hi => exact .kept _ rfl rfl

theorem hostAccess_i2c {a : HostAccess} {s t : State} (h : hostAccess a s = .next t) : I2cHostEffect s t := by
  rcases hostAccess_next h with ⟨i, -, he⟩ | ⟨e, rfl⟩ | ⟨k, rfl⟩ | rfl | rfl | ⟨f, rfl⟩
  · exact execEffect_i2c he
  · exact .kept e rfl rfl
  · exact .kept _ rfl rfl
  · exact .kept _ rfl rfl
  · exact .kept _ rfl rfl
  · exact .kept _ rfl rfl

@[simp] theorem timeTick_i2c (s : State) : (timeTick s).i2c = s.i2c := by unfold timeTick; split <;> rfl
@[simp] theorem timeTick_buf (s : State) : (timeTick s).buf = s.buf := by unfold timeTick; split <;> rfl

@[simp] theorem tickStep_i2c (k : Nat) (s : State) : (tickStep k s).i2c = s.i2c := by
  obtain ⟨-, hi, -, -⟩ := tickStep_chans k s
  exact hi

@[simp] theorem tickStep_buf (k : Nat) (s : State) : (tickStep k s).buf = s.buf := by
  obtain ⟨-, -, hm, -⟩ := tickStep_chans k s
  exact hm

@[simp] theorem workerStep_i2c (k : Nat) (s : State) : (workerStep k s).i2c = s.i2c := by
  rcases workerStep_cases k s with ⟨-, h⟩ | ⟨-, h⟩ <;> rw [h]
  rw [tickStep_i2c]

@[simp] theorem workerStep_buf (k : Nat) (s : State) : (workerStep k s).buf = s.buf := by
  rcases workerStep_cases k s with ⟨-, h⟩ | ⟨-, h⟩ <;> rw [h]
  rw [tickStep_buf]

/-! ### Where a line action leaves the engine -/

/-- The stage after a line action: a sample goes to the stage's local, a write leaves the stage. -/
def actionStage (a : BusAction) (s : State) : Stage :=
  match a with
  | .drive _ _ => s.i2c.pos.stage
  | .sample => stageSample (lineReadValue s.cfg.sda s) s.i2c.pos.stage

/-- A line action changes nothing of the engine's registers but POS. -/
theorem setTodo_performAction_i2c (l : List BusAction) (a : BusAction) (s : State) :
    (setTodo l (performAction a s)).i2c = { s.i2c with pos := ⟨actionStage a s, l⟩ } := by
  cases a with
  | drive w v => simp [actionStage]
  | sample => simp [actionStage]

theorem ofFrame_stageSample (b : Bool) (st : Stage) : (stageSample b st).ofFrame = st.ofFrame := by
  cases st <;> rfl

/-- A procedure's line actions do not depend on its locals `r` and `x` (R150, R152). -/
theorem stageActions_stageSample (s : State) (b : Bool) (st : Stage) :
    stageActions s (stageSample b st) = stageActions s st := by
  cases st <;> rfl

theorem stageInv_stageSample (s : State) (b : Bool) (st : Stage) :
    stageInv s (stageSample b st) ↔ stageInv s st := by
  cases st <;> rfl

theorem ofFrame_actionStage (a : BusAction) (s : State) :
    (actionStage a s).ofFrame = s.i2c.pos.stage.ofFrame := by
  cases a with
  | drive w v => rfl
  | sample => exact ofFrame_stageSample _ _

theorem stageActions_actionStage (a : BusAction) (s : State) :
    stageActions s (actionStage a s) = stageActions s s.i2c.pos.stage := by
  cases a with
  | drive w v => rfl
  | sample => exact stageActions_stageSample s _ _

theorem stageInv_actionStage (a : BusAction) (s : State) :
    stageInv s (actionStage a s) ↔ stageInv s s.i2c.pos.stage := by
  cases a with
  | drive w v => rfl
  | sample => exact stageInv_stageSample s _ _

/-- A stage's line actions are read from CUR and the frame buffer alone. -/
theorem stageActions_congr {s t : State} (hcur : t.i2c.cur = s.i2c.cur) (hm : t.buf = s.buf) (st : Stage) :
    stageActions t st = stageActions s st := by
  have hlen : curLen t = curLen s := by rw [curLen, curLen, hcur]
  cases st <;> simp only [stageActions, curIsRead, hlen, hcur, hm]

/-- What a stage asks for is read from CUR, XCNT and ACK alone. -/
theorem stageInv_congr {s t : State} (hcur : t.i2c.cur = s.i2c.cur) (hx : t.i2c.xcnt = s.i2c.xcnt)
    (ha : t.i2c.ack = s.i2c.ack) (st : Stage) : stageInv t st ↔ stageInv s st := by
  cases st <;> simp only [stageInv, curLen, hcur, hx, ha]

end Sys2Proof.Machine
end

section
/-! PROOF. The frame buffer keeps its canonical form (10_state.md R35), and POS stays a point of the command in CUR
(R31, R33, R36). -/

namespace Sys2Proof.Machine

open Sys2Proof Host

/-! ### The frame buffer -/

/-- Writing an entry that exists keeps the frame buffer's invariant. -/
theorem memoryInv_of_write {s t : State} (h : memoryInv s) {j : Nat} {b : Byte} (hj : j < Config.frameMax)
    (ht : t.buf = Memory.write s.buf j b) : memoryInv t := by
  obtain ⟨hwf, hlt⟩ := h
  rw [memoryInv, ht]
  refine ⟨Memory.wf_write hwf j b, fun c hc => ?_⟩
  rcases Memory.mem_write hc with rfl | hc
  · exact hj
  · exact hlt c hc

theorem memoryInv_of_buf_eq {s t : State} (h : memoryInv s) (ht : t.buf = s.buf) : memoryInv t := by
  rwa [memoryInv, ht]

theorem memoryInv_of_buf_nil {s : State} (h : s.buf = []) : memoryInv s := by
  rw [memoryInv, h]
  exact ⟨rfl, by simp⟩

theorem hostAccess_memoryInv {a : HostAccess} {s t : State} (h : hostAccess a s = .next t) (hs : memoryInv s) :
    memoryInv t := by
  cases hostAccess_i2c h with
  | kept e hi hm => exact memoryInv_of_buf_eq hs hm
  | started w st hb hw ht => exact memoryInv_of_buf_eq hs (by rw [ht, acceptI2c_buf])
  | frameStarted w hb hw ht => exact memoryInv_of_buf_eq hs (by rw [ht, acceptFrame_buf])
  | stored j b hb hj ht => exact memoryInv_of_write hs hj (by rw [ht, setEntry_buf])

/-- Only the end of RDFRAME's byte j writes the frame buffer, and it writes entry j (R175). -/
theorem finishStage_buf (s : State) :
    (finishStage s).buf = s.buf ∨
      ∃ j x, s.i2c.pos.stage = .frameRecv j x ∧ (finishStage s).buf = Memory.write s.buf j x := by
  cases hst : s.i2c.pos.stage with
  | frameRecv j x => exact .inr ⟨j, x, rfl, by simp [finishStage, hst]⟩
  | frameSend j r => exact .inl (by cases r <;> simp [finishStage, hst])
  | _ => exact .inl (by simp [finishStage, hst])

/-- The byte of RDFRAME in force has an index below FRAME_MAX (R174). -/
theorem engineInv_frameRecv_lt {s : State} (h : engineInv s) (hb : s.i2c.busy = true) {j : Nat} {x : Byte}
    (hst : s.i2c.pos.stage = .frameRecv j x) : j < Config.frameMax := by
  obtain ⟨-, hpos⟩ := h
  obtain ⟨hstage, -, hframe⟩ := hpos hb
  rw [hst] at hstage hframe
  obtain ⟨-, hj, -⟩ := hstage
  obtain ⟨-, -, hlen⟩ := hframe rfl
  exact hj.trans_le hlen

/-! ### POS inside one procedure -/

theorem engineInv_congr {s t : State} (hi : t.i2c = s.i2c) (hm : t.buf = s.buf) : engineInv t ↔ engineInv s := by
  rw [engineInv, engineInv, stageInv_congr (s := s) (by rw [hi]) (by rw [hi]) (by rw [hi]),
    stageActions_congr (s := s) (by rw [hi]) hm, curLen, curLen, hi]

theorem engineInv_of_idle {s : State} (hx : s.i2c.xcnt.toNat ≤ Config.frameMax) (hb : s.i2c.busy = false) :
    engineInv s := ⟨hx, fun h => by simp [hb] at h⟩

/-- What is still to come of the procedure in force ends the procedure's own sequence. -/
theorem pendingActions_suffix {s : State} (h : s.i2c.pos.todo <:+ stageActions s s.i2c.pos.stage) :
    pendingActions s <:+ stageActions s s.i2c.pos.stage := by
  unfold pendingActions
  cases htodo : s.i2c.pos.todo with
  | nil => exact List.suffix_rfl
  | cons a rest => rwa [htodo] at h

/-- One line action of the procedure in force keeps POS a point of the command in CUR. -/
theorem engineInv_setTodo_performAction {s : State} (h : engineInv s) (hb : s.i2c.busy = true) {a : BusAction}
    {rest : List BusAction} (hp : pendingActions s = a :: rest) : engineInv (setTodo rest (performAction a s)) := by
  obtain ⟨hx, hpos⟩ := h
  obtain ⟨hstage, htodo, hframe⟩ := hpos hb
  have hi := setTodo_performAction_i2c rest a s
  have hm : (setTodo rest (performAction a s)).buf = s.buf := by simp
  generalize setTodo rest (performAction a s) = t at hi hm
  have hsuffix : rest <:+ stageActions s s.i2c.pos.stage :=
    (List.suffix_cons a rest).trans (hp ▸ pendingActions_suffix htodo)
  rw [engineInv, stageInv_congr (s := s) (by rw [hi]) (by rw [hi]) (by rw [hi]),
    stageActions_congr (s := s) (by rw [hi]) hm, curLen, hi]
  refine ⟨hx, fun _ => ⟨?_, ?_, ?_⟩⟩
  · exact (stageInv_actionStage a s).2 hstage
  · rwa [stageActions_actionStage]
  · rwa [ofFrame_actionStage]

/-! ### From one procedure to the next -/

/-- A frame goes on at the start of a procedure whose stage fits CUR, XCNT and ACK. -/
theorem engineInv_enterStage {s : State} {st : Stage} (hx : s.i2c.xcnt.toNat ≤ Config.frameMax)
    (hst : stageInv s st) (hr : s.i2c.result = false) (hop : fieldOp s.i2c.cur = 6 ∨ fieldOp s.i2c.cur = 7)
    (hl : curLen s ≤ Config.frameMax) : engineInv (enterStage st s) :=
  ⟨hx, fun _ => ⟨(stageInv_congr (s := s) rfl rfl rfl st).2 hst, List.nil_suffix, fun _ => ⟨hr, hop, hl⟩⟩⟩

/-- After `j` acknowledged bytes the next byte's stage, or the frame's end, fits CUR, XCNT and ACK (R172, R175). -/
theorem stageInv_byteStage {s : State} {j : Nat} (hop : fieldOp s.i2c.cur = 6 ∨ fieldOp s.i2c.cur = 7)
    (ha : s.i2c.ack = true) (hj : j ≤ curLen s) (hx : s.i2c.xcnt.toNat = j) : stageInv s (byteStage s j) := by
  rcases byteStage_cases s j with ⟨hlt, hread, h⟩ | ⟨hlt, hread, h⟩ | ⟨hge, h⟩ <;> rw [h]
  · exact ⟨by simpa [curIsRead] using hread, hlt, hx, ha⟩
  · exact ⟨hop.resolve_right (by simpa [curIsRead] using hread), hlt, hx⟩
  · exact ⟨ha, by omega⟩

/-- XCNT takes the number of a byte of a legal frame (R110). -/
theorem setXcnt_toNat {n : Nat} (s : State) (h : n ≤ Config.frameMax) : (setXcnt n s).i2c.xcnt.toNat = n := by
  have hn : n ≤ 256 := h
  simp only [setXcnt_i2c, BitVec.toNat_ofNat]
  omega

/-- The end of a procedure keeps POS a point of the command in CUR, or ends the command. -/
theorem engineInv_finishStage {s : State} (h : engineInv s) (hb : s.i2c.busy = true) : engineInv (finishStage s) := by
  obtain ⟨hx, hpos⟩ := h
  obtain ⟨hstage, -, hframe⟩ := hpos hb
  unfold finishStage
  cases hst : s.i2c.pos.stage <;> rw [hst] at hstage hframe
  case frameStart =>
    obtain ⟨hr, hop, hl⟩ := hframe rfl
    exact engineInv_enterStage hx hstage hr hop hl
  case frameAddr r =>
    obtain ⟨hr, hop, hl⟩ := hframe rfl
    have hzero : s.i2c.xcnt.toNat = 0 := by simp [show s.i2c.xcnt = 0 from hstage]
    cases r with
    | true => exact engineInv_enterStage hx rfl hr hop hl
    | false =>
      exact engineInv_enterStage hx (stageInv_byteStage (s := setAck false s) hop rfl (Nat.zero_le _) hzero) hr hop hl
  case frameSend j r =>
    obtain ⟨hr, hop, hl⟩ := hframe rfl
    obtain ⟨-, hj, -⟩ := hstage
    cases r with
    | true => exact engineInv_enterStage hx rfl hr hop hl
    | false =>
      have hcount := setXcnt_toNat (setAck false s) (hj.trans_le hl : j + 1 ≤ _)
      exact engineInv_enterStage (hcount.trans_le (hj.trans_le hl))
        (stageInv_byteStage (s := setXcnt (j + 1) (setAck false s)) hop rfl hj hcount) hr hop hl
  case frameRecv j x =>
    obtain ⟨hr, hop, hl⟩ := hframe rfl
    obtain ⟨-, hj, -, hack⟩ := hstage
    have hcount := setXcnt_toNat (setEntry j x (setRxbyte x s)) (hj.trans_le hl : j + 1 ≤ _)
    exact engineInv_enterStage (hcount.trans_le (hj.trans_le hl))
      (stageInv_byteStage (s := setXcnt (j + 1) (setEntry j x (setRxbyte x s))) hop hack hj hcount) hr hop hl
  all_goals exact engineInv_of_idle hx rfl

theorem engineStep_engineInv {s : State} (h : engineInv s) : engineInv (engineStep s) := by
  rcases engineStep_cases s with ⟨-, he⟩ | ⟨hb, a, rest, hp, ⟨rfl, he⟩ | ⟨-, he⟩⟩ <;> rw [he]
  · exact h
  · exact engineInv_finishStage (engineInv_setTodo_performAction h hb hp)
      (by rw [setTodo_performAction_i2c]; exact hb)
  · exact engineInv_setTodo_performAction h hb hp

theorem finishStage_memoryInv {s : State} (hs : memoryInv s) (he : engineInv s) (hb : s.i2c.busy = true) :
    memoryInv (finishStage s) := by
  rcases finishStage_buf s with hm | ⟨j, x, hst, hm⟩
  · exact memoryInv_of_buf_eq hs hm
  · exact memoryInv_of_write hs (engineInv_frameRecv_lt he hb hst) hm

theorem engineStep_memoryInv {s : State} (hs : memoryInv s) (he : engineInv s) : memoryInv (engineStep s) := by
  rcases engineStep_cases s with ⟨-, h⟩ | ⟨hb, a, rest, hp, ⟨rfl, h⟩ | ⟨-, h⟩⟩ <;> rw [h]
  · exact hs
  · exact finishStage_memoryInv (memoryInv_of_buf_eq hs (by simp)) (engineInv_setTodo_performAction he hb hp)
      (by rw [setTodo_performAction_i2c]; exact hb)
  · exact memoryInv_of_buf_eq hs (by simp)

/-! ### POS under the host -/

theorem stageInv_of_startsAt {w : Word} {st : Stage} (h : StartsAt w st) (s : State) :
    stageInv (acceptI2c w st s) st ∧ st.ofFrame = false := by
  cases h with
  | start => exact ⟨rfl, rfl⟩
  | rstart => exact ⟨rfl, rfl⟩
  | stop => exact ⟨rfl, rfl⟩
  | wrbyte b => exact ⟨fieldOp_wrbyte b, rfl⟩
  | rdbyte a => exact ⟨fieldOp_rdbyte a, rfl⟩

/-- An accepted frame's word has a frame's opcode and a legal LEN (R174). -/
theorem frameWord_fields {w : Word} (h : FrameWord w) :
    (fieldOp w = 6 ∨ fieldOp w = 7) ∧ (fieldLen w).toNat ≤ Config.frameMax := by
  cases h with
  | wrframe len addr hold hl => exact ⟨.inl (by simp), by simpa [writeLenOk] using hl⟩
  | rdframe len addr hold hl => exact ⟨.inr (by simp), by simpa using (of_decide_eq_true hl).2⟩

theorem hostAccess_engineInv {a : HostAccess} {s t : State} (h : hostAccess a s = .next t) (hs : engineInv s) :
    engineInv t := by
  cases hostAccess_i2c h with
  | kept e hi hm => exact (engineInv_congr (s := raiseReject (.i2c e) s) hi hm).2 hs
  | started w st hb hw ht =>
    obtain ⟨hstage, hnot⟩ := stageInv_of_startsAt hw s
    subst ht
    exact ⟨hs.1, fun _ => ⟨hstage, List.nil_suffix, fun hf => by simp [hnot] at hf⟩⟩
  | frameStarted w hb hw ht =>
    obtain ⟨hop, hlen⟩ := frameWord_fields hw
    subst ht
    exact ⟨Nat.zero_le _, fun _ => ⟨rfl, List.nil_suffix, fun _ => ⟨rfl, hop, hlen⟩⟩⟩
  | stored j b hb hj ht =>
    subst ht
    exact engineInv_of_idle hs.1 hb

/-! ### Every step -/

/-- Settles O57: the engine goes on in its procedure or to the next, the host starts a command at its own first stage,
and no other agent but a reset touches the engine. -/
theorem stepKeepsTheEngineOnItsCommand : Obligations.StepKeepsTheEngineOnItsCommand := fun s t hs h => by
  have hu : engineInv (takeEvent s) := (engineInv_congr (by simp) (by simp)).2 hs
  rcases step_cases h with ⟨a, -, h⟩ | ⟨-, rfl⟩ | ⟨-, rfl⟩ | ⟨k, -, rfl⟩ | ⟨-, rfl⟩
  · exact hostAccess_engineInv h hu
  · exact engineStep_engineInv hu
  · exact (engineInv_congr (by simp) (by simp)).2 hu
  · exact (engineInv_congr (by simp) (by simp)).2 hu
  · exact engineInv_of_idle (Nat.zero_le _) rfl

/-- Settles O53: the host and RDFRAME write entries that exist, a reset empties the list, and nothing else writes it. -/
theorem stepKeepsTheFrameBufferCanonical : Obligations.StepKeepsTheFrameBufferCanonical := fun s t hs he h => by
  have hu : memoryInv (takeEvent s) := memoryInv_of_buf_eq hs (by simp)
  rcases step_cases h with ⟨a, -, h⟩ | ⟨-, rfl⟩ | ⟨-, rfl⟩ | ⟨k, -, rfl⟩ | ⟨-, rfl⟩
  · exact hostAccess_memoryInv h hu
  · exact engineStep_memoryInv hu ((engineInv_congr (by simp) (by simp)).2 he)
  · exact memoryInv_of_buf_eq hu (by simp)
  · exact memoryInv_of_buf_eq hu (by simp)
  · exact memoryInv_of_buf_nil rfl

end Sys2Proof.Machine
end

section
/-! PROOF. What one step does to one channel: R200, the worker's R40, R41, R217 and R222, the line it owns (R218), and its
construction (R191). -/

namespace Sys2Proof.Machine

open Sys2Proof Host

/-! ### One channel under one step -/

/-- A duty in range is at most 0x4000 as an unsigned number (R107, R194). -/
theorem toNat_le_of_dutyInRange {d : BitVec 16} (h : dutyInRange d = true) : d.toNat ≤ 0x4000 := by
  obtain ⟨h0, h1⟩ := of_decide_eq_true h
  rw [BitVec.toInt_eq_toNat_cond] at h0 h1
  split at h1 <;> omega

/-- An on-phase is no longer than its period (R216). -/
theorem onTicks_le (p : Word) {d : BitVec 16} (hd : d.toNat ≤ 0x4000) : (onTicks p d).toNat ≤ p.toNat := by
  have hle : p.toNat * d.toNat / 16384 ≤ p.toNat :=
    Nat.div_le_of_le_mul (by rw [Nat.mul_comm]; exact Nat.mul_le_mul_right _ hd)
  exact (Nat.mod_le _ _).trans hle

theorem channelEffect_channelInv {s : State} {k : Nat} {c c' : Channel} (h : ChannelEffect s k c c')
    (hc : channelInv s.cfg c) : channelInv s.cfg c' := by
  obtain ⟨hduty, hperiod, hline⟩ := hc
  cases h with
  | init d l hl hd hp =>
    refine ⟨toNat_le_of_dutyInRange hd, Nat.one_le_iff_ne_zero.2 fun h0 => hp ?_, fun _ => hl⟩
    exact BitVec.eq_of_toNat_eq h0
  | setduty d hd => exact ⟨toNat_le_of_dutyInRange hd, hperiod, hline⟩
  | setline l hl => exact ⟨hduty, hperiod, fun _ => hl⟩
  | start hv ha ho => exact ⟨hduty, hperiod, hline⟩
  | pause hs hp => exact ⟨hduty, hperiod, hline⟩
  | resume hs hp => exact ⟨hduty, hperiod, hline⟩
  | stop ha hp => exact ⟨hduty, hperiod, hline⟩
  | periodArg v => exact ⟨hduty, hperiod, hline⟩

theorem channelStep_channelInv {s : State} {k : Nat} {c c' : Channel} (h : ChannelStep s k c c')
    (hc : channelInv s.cfg c) : channelInv s.cfg c' := by
  cases h with
  | rejected e => exact hc
  | command h => exact channelEffect_channelInv h hc
  | tick ha h => cases h <;> exact hc

/-- START takes its snapshot from registers that keep R200; the other commands leave the worker's counters (R211). -/
theorem channelEffect_workerInv {s : State} {k : Nat} {c c' : Channel} (h : ChannelEffect s k c c')
    (hc : channelInv s.cfg c) (hw : workerInv s.cfg c) : workerInv s.cfg c' := by
  obtain ⟨hpend, hlive⟩ := hw
  cases h with
  | init d l hl hd hp => exact ⟨hpend, hlive⟩
  | setduty d hd => exact ⟨hpend, hlive⟩
  | setline l hl => exact ⟨hpend, hlive⟩
  | start hv ha ho =>
    obtain ⟨hduty, hperiod, hline⟩ := hc
    exact ⟨fun _ => rfl, fun _ => ⟨hperiod, onTicks_le c.period hduty, hperiod, hline hv, fun h0 => absurd rfl h0⟩⟩
  | pause hs hp => exact ⟨fun _ => rfl, fun _ => hlive (by simp [hs])⟩
  | resume hs hp => exact ⟨fun _ => rfl, fun _ => hlive (by simp [hs])⟩
  | stop ha hp => exact ⟨fun _ => ha, hlive⟩
  | periodArg v => exact ⟨hpend, hlive⟩

/-- The next count, while it is inside the iteration, is the old one plus 1 (R220). -/
theorem nextCnt_toNat_of_ne_zero {c : Channel} (hlt : c.cnt.toNat < c.sP.toNat) (h : (nextCnt c).toNat ≠ 0) :
    (nextCnt c).toNat = c.cnt.toNat + 1 := by
  rw [nextCnt_toNat (by omega)] at h ⊢
  rcases Nat.lt_or_ge (c.cnt.toNat + 1) c.sP.toNat with hin | hend
  · exact Nat.mod_eq_of_lt hin
  · exact absurd (by rw [show c.cnt.toNat + 1 = c.sP.toNat by omega, Nat.mod_self]) h

/-- A tick step keeps the count inside the period and OUT the comparator's output (R222). -/
theorem tickEffect_workerInv {cfg : Config} {c c' : Channel} (h : TickEffect c c') (ha : c.active = true)
    (hw : workerInv cfg c) : workerInv cfg c' := by
  obtain ⟨hpend, hlive⟩ := hw
  obtain ⟨hp, hon, hlt, hline, hout⟩ := hlive ha
  have hnext : (nextCnt c).toNat < c.sP.toNat := by rw [nextCnt_toNat hp]; exact Nat.mod_lt _ hp
  have hcount := nextCnt_toNat_of_ne_zero hlt
  cases h with
  | stop => exact ⟨nofun, nofun⟩
  | first hpn h0 hs =>
    refine ⟨fun _ => ha, fun _ => ⟨hp, hon, hnext, hline, fun hne => ?_⟩⟩
    rw [hcount hne, h0]
    rfl
  | edge hpn h0 h1 =>
    refine ⟨fun _ => ha, fun _ => ⟨hp, hon, hnext, hline, fun hne => ?_⟩⟩
    rw [hcount hne, h1]
    simp
  | count h0 h1 =>
    refine ⟨fun _ => ha, fun _ => ⟨hp, hon, hnext, hline, fun hne => ?_⟩⟩
    have hne0 : c.cnt.toNat ≠ 0 := fun e => h0 (BitVec.eq_of_toNat_eq e)
    have hne1 : c.cnt.toNat ≠ c.sOn.toNat := fun e => h1 (BitVec.eq_of_toNat_eq e)
    rw [hcount hne]
    refine (hout hne0).trans (decide_eq_decide.2 ?_)
    change c.cnt.toNat ≤ c.sOn.toNat ↔ c.cnt.toNat + 1 ≤ c.sOn.toNat
    omega

theorem channelStep_workerInv {s : State} {k : Nat} {c c' : Channel} (h : ChannelStep s k c c')
    (hc : channelInv s.cfg c) (hw : workerInv s.cfg c) : workerInv s.cfg c' := by
  cases h with
  | rejected e => exact hw
  | command h => exact channelEffect_workerInv h hc hw
  | tick ha h => exact tickEffect_workerInv h ha hw

/-- A worker that lives after a step lived before it on the same line, or was started on a line no one owns (R210). -/
theorem channelStep_active {s : State} {k : Nat} {c c' : Channel} (h : ChannelStep s k c c') (ha : c'.active = true) :
    (c.active = true ∧ c'.sLine = c.sLine) ∨ ownedElsewhere k c'.sLine s = false := by
  cases h with
  | rejected e => exact .inl ⟨ha, rfl⟩
  | tick hlive h => cases h <;> exact .inl ⟨hlive, rfl⟩
  | command h =>
    cases h with
    | start hv hna ho => exact .inr ho
    | pause hs hp => exact .inl ⟨by simp [hs], rfl⟩
    | resume hs hp => exact .inl ⟨by simp [hs], rfl⟩
    | init d l hl hd hp => exact .inl ⟨ha, rfl⟩
    | setduty d hd => exact .inl ⟨ha, rfl⟩
    | setline l hl => exact .inl ⟨ha, rfl⟩
    | stop hlive hp => exact .inl ⟨ha, rfl⟩
    | periodArg v => exact .inl ⟨ha, rfl⟩

/-- No step but a reset takes a channel's construction back (R191). -/
theorem channelStep_cfgValid {s : State} {k : Nat} {c c' : Channel} (h : ChannelStep s k c c')
    (hv : c.cfgValid = true) : c'.cfgValid = true := by
  cases h with
  | rejected e => exact hv
  | tick ha h => cases h <;> exact hv
  | command h =>
    cases h with
    | init d l hl hd hp => rfl
    | _ => exact hv

end Sys2Proof.Machine
end

section
/-! PROOF. The block after reset has the values of R45 and satisfies its invariant. -/

namespace Sys2Proof.Machine

open Sys2Proof Host

/-! ### The channels after reset -/

theorem mem_resetWith_chans {c : Config} {ch : Channel} (h : ch ∈ (State.resetWith c).chans) :
    ch = Channel.reset c.tickHz := List.eq_of_mem_replicate h

/-- PERIOD_DEFAULT fits its register (R10, R12). -/
theorem periodDefault_toNat {c : Config} (hc : c.wf = true) :
    (periodDefault c.tickHz).toNat = max 1 (c.tickHz / 50) := by
  have hfit : c.tickHz / 50 < 2 ^ 32 := by
    simp only [Config.wf, Bool.and_eq_true, decide_eq_true_eq] at hc
    tauto
  rw [periodDefault, BitVec.toNat_ofNat]
  exact Nat.mod_eq_of_lt (by omega)

theorem channelsInv_resetWith {c : Config} (hc : c.wf = true) : channelsInv (State.resetWith c) := by
  refine ⟨List.length_replicate, fun ch hch => ?_⟩
  rw [mem_resetWith_chans hch]
  refine ⟨Nat.zero_le _, ?_, nofun⟩
  exact (le_max_left _ _).trans_eq (periodDefault_toNat hc).symm

theorem workersInv_resetWith (c : Config) : workersInv (State.resetWith c) := fun ch hch => by
  rw [mem_resetWith_chans hch]
  exact ⟨nofun, nofun⟩

theorem ownershipInv_resetWith (c : Config) : ownershipInv (State.resetWith c) := by
  refine ⟨fun j k cj ck hj _ _ ha _ => ?_, fun ch hch ha => ?_⟩
  · rw [mem_resetWith_chans (List.mem_of_getElem? hj)] at ha
    cases ha
  · rw [mem_resetWith_chans hch] at ha
    cases ha

theorem dueInv_resetWith (c : Config) : dueInv (State.resetWith c) := ⟨List.nodup_nil, nofun⟩

theorem engineInv_resetWith (c : Config) : engineInv (State.resetWith c) := engineInv_of_idle (Nat.zero_le _) rfl

/-- Settles O52: the buffer lists nothing, every channel is Idle and unconstructed, no tick step is due, BUSY = 0. -/
theorem resetSatisfiesTheInvariant : Obligations.ResetSatisfiesTheInvariant := fun c hc =>
  ⟨memoryInv_of_buf_nil rfl, channelsInv_resetWith hc, workersInv_resetWith c, ownershipInv_resetWith c,
    dueInv_resetWith c, engineInv_resetWith c⟩

/-- Every field of PWM_STATUS is 0 after reset (R45). -/
theorem pwmStatus_reset (tickHz : Nat) : pwmStatus (Channel.reset tickHz) = 0 := by
  change pwmStatus (Channel.reset 0) = 0
  decide

/-- LINE encodes as 0 after reset (R45, R106). -/
theorem pwmLine_reset (tickHz : Nat) : pwmLine (Channel.reset tickHz) = 0 := by
  change pwmLine (Channel.reset 0) = 0
  decide

/-- Every field of I2C_STATUS and of I2C_RXDATA is 0 after reset (R45). -/
theorem i2cResult_reset : i2cStatus I2c.reset = 0 ∧ i2cRxdata I2c.reset = 0 := by decide

/-- Settles O50: the registers as R45 gives them, and PERIOD_DEFAULT fits its register. -/
theorem resetValues_resetWith : Obligations.ResetValues := fun c hc => by
  obtain ⟨hstatus, hrxdata⟩ := i2cResult_reset
  refine ⟨hstatus, hrxdata, List.length_replicate, fun k hk => ⟨Channel.reset c.tickHz, ?_, ?_⟩⟩
  · exact List.getElem?_replicate_of_lt hk
  · exact ⟨pwmStatus_reset _, rfl, pwmLine_reset _, rfl, periodDefault_toNat hc, periodDefault_toNat hc⟩

/-- A reset leaves the channels, the engine and the buffer of `State.resetWith`, so every invariant of the block. -/
theorem blockInv_resetBlock {s : State} (h : s.cfg.wf = true) : blockInv (resetBlock s) :=
  resetSatisfiesTheInvariant s.cfg h

end Sys2Proof.Machine
end

section
/-! PROOF. Every step keeps the block's invariant: the channels', the workers', the exclusive ownership of lines (R218), the
tick steps due (R221), and with them the whole; who may change BUSY and CFG_VALID. -/

namespace Sys2Proof.Machine

open Sys2Proof Host

/-! ### All the channels under one step -/

/-- A predicate of single channels that one channel's change keeps is kept by all. -/
theorem chansStep_forall {p : Channel → Prop} {s t : State} (h : ChansStep s t)
    (hstep : ∀ k c c', c ∈ s.chans → ChannelStep s k c c' → p c → p c') (hs : ∀ c ∈ s.chans, p c) :
    ∀ c ∈ t.chans, p c := by
  rcases h with h | ⟨k, c, c', hk, hc, h⟩ <;> rw [h]
  · exact hs
  · intro d hd
    have hmem := List.mem_of_getElem? hk
    rcases List.mem_or_eq_of_mem_set hd with hd | rfl
    · exact hs d hd
    · exact hstep k c d hmem hc (hs c hmem)

/-- A channel read after one channel is replaced is the new one, or another one as it was. -/
theorem getElem?_set_eq_some {cs : List Channel} {k j : Nat} {c d : Channel} (h : (cs.set k c)[j]? = some d) :
    (j = k ∧ d = c) ∨ (j ≠ k ∧ cs[j]? = some d) := by
  rw [List.getElem?_set] at h
  split_ifs at h with hkj hlt
  · exact .inl ⟨hkj.symm, (Option.some.inj h).symm⟩
  · exact .inr ⟨Ne.symm hkj, h⟩

/-- Each channel is left as it is or takes one of the steps of `ChannelStep`. -/
theorem chansStep_getElem? {s t : State} (h : ChansStep s t) {k : Nat} {c c' : Channel} (hk : s.chans[k]? = some c)
    (hk' : t.chans[k]? = some c') : c' = c ∨ ChannelStep s k c c' := by
  rcases h with h | ⟨j, d, d', hj, hd, h⟩ <;> rw [h] at hk'
  · exact .inl (Option.some.inj (hk'.symm.trans hk))
  · rcases getElem?_set_eq_some hk' with ⟨rfl, rfl⟩ | ⟨-, hk'⟩
    · exact .inr (Option.some.inj (hj.symm.trans hk) ▸ hd)
    · exact .inl (Option.some.inj (hk'.symm.trans hk))

theorem chansStep_length {s t : State} (h : ChansStep s t) : t.chans.length = s.chans.length := by
  rcases h with h | ⟨k, c, c', -, -, h⟩ <;> simp [h]

/-- Every step keeps R200 and the number of channels (R37, R200). -/
theorem step_channelsInv {s t : State} (hs : channelsInv s) (h : step s = .next t) : channelsInv t := by
  by_cases hr : nextEvent s = .reset
  · obtain ⟨hwf, -⟩ := step_next h
    obtain ⟨-, hc, -⟩ := blockInv_resetBlock (s := takeEvent s) (by rwa [takeEvent_cfg])
    rwa [step_reset h hr]
  · obtain ⟨hcfg, hstep⟩ := step_chans h hr
    obtain ⟨hlen, hall⟩ := hs
    rw [channelsInv, hcfg]
    exact ⟨(chansStep_length hstep).trans hlen,
      chansStep_forall hstep (fun _ _ _ _ hc => channelStep_channelInv hc) hall⟩

/-- Settles O55: a command or a tick step keeps its channel's R40, R41, R217 and R222, and a reset ends every worker. -/
theorem stepKeepsTheWorkerInvariant : Obligations.StepKeepsTheWorkerInvariant := fun s t hc hs h => by
  by_cases hr : nextEvent s = .reset
  · rw [step_reset h hr]
    exact workersInv_resetWith _
  · obtain ⟨hcfg, hstep⟩ := step_chans h hr
    obtain ⟨-, hall⟩ := hc
    rw [workersInv, hcfg]
    exact chansStep_forall hstep (fun _ c _ hmem hc => channelStep_workerInv hc (hall c hmem)) hs

/-! ### Line ownership (R218) -/

theorem samePhysical_comm (a b : LineDesc) : a.samePhysical b = b.samePhysical a := by
  simp only [LineDesc.samePhysical, Bool.beq_comm]

/-- Where no channel but `k` drives a line, each live worker of another channel drives another line; `j` numbers the
list. -/
theorem drivenByOther_eq_false {k : Nat} {l : LineDesc} {cs : List Channel} {j : Nat}
    (h : drivenByOther k l j cs = false) {n : Nat} {c : Channel} (hn : cs[n]? = some c) (hne : j + n ≠ k)
    (ha : c.active = true) : c.sLine.samePhysical l = false := by
  induction cs generalizing j n with
  | nil => simp at hn
  | cons d rest ih =>
    obtain ⟨hhead, htail⟩ := Bool.or_eq_false_iff.1 h
    cases n with
    | zero =>
      obtain rfl : d = c := by simpa using hn
      simpa [ha, show j ≠ k from hne] using hhead
    | succ n => exact ih htail (by simpa using hn) (by omega)

/-- The line `l` is free for channel `k`: no other channel's live worker drives it, and it is neither SDA nor SCL. -/
def lineFree (s : State) (k : Nat) (l : LineDesc) : Prop :=
  (∀ j c, s.chans[j]? = some c → j ≠ k → c.active = true → c.sLine.samePhysical l = false) ∧
    l.samePhysical s.cfg.sda = false ∧ l.samePhysical s.cfg.scl = false

theorem lineFree_of_ownedElsewhere {s : State} {k : Nat} {l : LineDesc} (h : ownedElsewhere k l s = false) :
    lineFree s k l := by
  simp only [ownedElsewhere, Bool.or_eq_false_iff] at h
  obtain ⟨⟨hother, hsda⟩, hscl⟩ := h
  exact ⟨fun j c hj hne ha => drivenByOther_eq_false hother hj (by omega) ha, hsda, hscl⟩

/-- Ownership is exclusive exactly when each live worker's line is free for its channel. -/
theorem ownershipInv_iff (s : State) :
    ownershipInv s ↔ ∀ k c, s.chans[k]? = some c → c.active = true → lineFree s k c.sLine := by
  constructor
  · rintro ⟨hpair, hbus⟩ k c hk ha
    obtain ⟨hsda, hscl⟩ := hbus c (List.mem_of_getElem? hk) ha
    exact ⟨fun j d hj hne hd => hpair j k d c hj hk hne hd ha, hsda, hscl⟩
  · intro h
    refine ⟨fun j k cj ck hj hk hne hcj hck => (h k ck hk hck).1 j cj hj hne hcj, fun c hc ha => ?_⟩
    obtain ⟨k, hk⟩ := List.mem_iff_getElem?.1 hc
    exact (h k c hk ha).2

/-- Every step keeps the exclusive ownership of lines: START alone puts a worker on a line, and only on a free one. -/
theorem step_ownershipInv {s t : State} (hs : ownershipInv s) (h : step s = .next t) : ownershipInv t := by
  by_cases hr : nextEvent s = .reset
  · rw [step_reset h hr]
    exact ownershipInv_resetWith _
  obtain ⟨hcfg, hchans | ⟨k, c, c', hk, hstep, hchans⟩⟩ := step_chans h hr
  · rwa [ownershipInv, hcfg, hchans]
  rw [ownershipInv_iff] at hs ⊢
  have hnew : c'.active = true → lineFree s k c'.sLine := fun ha => by
    rcases channelStep_active hstep ha with ⟨hlive, hline⟩ | hfree
    · exact hline ▸ hs k c hk hlive
    · exact lineFree_of_ownedElsewhere hfree
  have hat : ∀ {j d}, t.chans[j]? = some d → (j = k ∧ d = c') ∨ (j ≠ k ∧ s.chans[j]? = some d) :=
    fun {j d} hj => getElem?_set_eq_some (hchans ▸ hj)
  intro j d hj ha
  simp only [lineFree, hcfg]
  rcases hat hj with ⟨rfl, rfl⟩ | ⟨hne, hj⟩
  · obtain ⟨hother, hbus⟩ := hnew ha
    refine ⟨fun i e hi hij he => ?_, hbus⟩
    exact hother i e ((hat hi).resolve_left fun h => hij h.1).2 hij he
  · obtain ⟨hother, hbus⟩ := hs j d hj ha
    refine ⟨fun i e hi hij he => ?_, hbus⟩
    rcases hat hi with ⟨rfl, rfl⟩ | ⟨-, hi⟩
    · rw [samePhysical_comm]
      exact (hnew he).1 j d hj hne ha
    · exact hother i e hi hij he

/-! ### The tick steps due (R221) -/

theorem execEffect_due {i : Instr} {s t : State} (h : ExecEffect s i t) : t.due = s.due := by
  cases h <;> rfl

theorem hostAccess_due {a : HostAccess} {s t : State} (h : hostAccess a s = .next t) : t.due = s.due := by
  rcases hostAccess_next h with ⟨i, -, he⟩ | ⟨e, rfl⟩ | ⟨k, rfl⟩ | rfl | rfl | ⟨f, rfl⟩
  · exact execEffect_due he
  all_goals rfl

theorem tickStep_due (k : Nat) (s : State) : (tickStep k s).due = s.due := by
  rcases tickStep_cases k s with h | ⟨c, -, -, ⟨-, -, h⟩ | ⟨-, -, -, h⟩ | ⟨-, -, -, h⟩ | ⟨-, -, h⟩⟩ <;> rw [h]
  · simp [stopNow]
  · simp [beginPhase]
  · simp [beginPhase]
  · simp [countTick]

/-- A worker's turn takes its own mark from the tick steps due (R221). -/
theorem workerStep_due (k : Nat) (s : State) : (workerStep k s).due = s.due.erase k := by
  rcases workerStep_cases k s with ⟨-, h⟩ | ⟨hk, h⟩ <;> rw [h]
  · exact tickStep_due k _
  · rw [List.erase_of_not_mem hk]

theorem step_dueInv {s t : State} (hs : dueInv s) (h : step s = .next t) : dueInv t := by
  have hcfg := step_cfg h
  obtain ⟨hnodup, hlt⟩ := hs
  rw [dueInv, hcfg]
  rcases step_cases h with ⟨a, -, h⟩ | ⟨-, rfl⟩ | ⟨-, rfl⟩ | ⟨k, -, rfl⟩ | ⟨-, rfl⟩
  · rw [hostAccess_due h, takeEvent_due]
    exact ⟨hnodup, hlt⟩
  · obtain ⟨-, -, -, hdue, -⟩ := engineStep_frame (takeEvent s)
    rw [hdue, takeEvent_due]
    exact ⟨hnodup, hlt⟩
  · unfold timeTick
    split
    · exact ⟨List.nodup_range, fun k hk => by simpa using hk⟩
    · rw [takeEvent_due]
      exact ⟨hnodup, hlt⟩
  · rw [workerStep_due, takeEvent_due]
    exact ⟨hnodup.erase k, fun j hj => hlt j (List.mem_of_mem_erase hj)⟩
  · exact ⟨List.nodup_nil, nofun⟩

/-! ### The whole block -/

/-- Settles O58: each part of the invariant is kept by itself, the frame buffer's and the worker's with the help of the
engine's and the channel's. -/
theorem stepKeepsTheBlockInvariant : Obligations.StepKeepsTheBlockInvariant := fun s t hs h => by
  obtain ⟨hmemory, hchannels, hworkers, hownership, hdue, hengine⟩ := hs
  exact ⟨stepKeepsTheFrameBufferCanonical s t hmemory hengine h, step_channelsInv hchannels h,
    stepKeepsTheWorkerInvariant s t hchannels hworkers h, step_ownershipInv hownership h, step_dueInv hdue h,
    stepKeepsTheEngineOnItsCommand s t hengine h⟩

/-! ### Who may change BUSY and CFG_VALID -/

/-- A host access ends no command (R36). -/
theorem hostAccess_busy {a : HostAccess} {s t : State} (h : hostAccess a s = .next t) (hb : s.i2c.busy = true) :
    t.i2c.busy = true := by
  cases hostAccess_i2c h with
  | kept e hi hm => rw [hi, hb]
  | started w st hidle hw ht => simp [hb] at hidle
  | frameStarted w hidle hw ht => simp [hb] at hidle
  | stored j b hidle hj ht => simp [hb] at hidle

/-- Settles O60: the host's access ends no command and an idle engine's step starts none; the time base and the workers
leave the engine alone; no channel's step takes CFG_VALID back. -/
theorem onlyTheEngineOrResetEndsACommand : Obligations.OnlyTheEngineOrResetEndsACommand := fun s t h => by
  refine ⟨fun hb ht => ?_, fun hb ht => ?_, fun k c c' hk hk' hv hv' => ?_⟩
  · rcases step_cases h with ⟨a, -, h⟩ | ⟨he, -⟩ | ⟨-, rfl⟩ | ⟨k, -, rfl⟩ | ⟨he, -⟩
    · simp [hostAccess_busy h (by simpa using hb)] at ht
    · exact .inl he
    · simp [hb] at ht
    · simp [hb] at ht
    · exact .inr he
  · rcases step_cases h with ⟨a, he, -⟩ | ⟨-, rfl⟩ | ⟨-, rfl⟩ | ⟨k, -, rfl⟩ | ⟨-, rfl⟩
    · exact ⟨a, he⟩
    · rw [engineStep_idle (by simpa using hb)] at ht
      simp [hb] at ht
    · simp [hb] at ht
    · simp [hb] at ht
    · cases ht
  · by_contra hr
    have hkept : c'.cfgValid = true := by
      obtain ⟨-, hstep⟩ := step_chans h hr
      rcases chansStep_getElem? hstep hk hk' with rfl | hc
      · exact hv
      · exact channelStep_cfgValid hc hv
    simp [hv'] at hkept

end Sys2Proof.Machine
end

section
/-! PROOF. What the host finds in and writes to the engine's registers (10_state.md R33 to R36): the result registers, the
frame buffer, and the command latched into CUR. -/

namespace Sys2Proof.Machine

open Sys2Proof Host

/-! ### The result registers (R33, R34) -/

/-- Bit `j` of a field placed at bit `n` of a word. -/
theorem getLsbD_field {w : Nat} (x : BitVec w) (n : Nat) {j : Nat} (hj : j < 32) :
    (x.setWidth 32 <<< n).getLsbD j = (decide (n ≤ j) && x.getLsbD (j - n)) := by
  by_cases h : n ≤ j
  · simp [hj, h]
  · simp [h, Nat.lt_of_not_le h]

theorem getLsbD_bitAt (n : Nat) (b : Bool) {j : Nat} (hj : j < 32) :
    (bitAt n b).getLsbD j = (decide (j = n) && b) := by
  rw [bitAt, getLsbD_field _ _ hj, BitVec.getLsbD_ofBool]
  by_cases h : j = n
  · simp [h]
  · simp [h]; omega

/-- I2C_STATUS bit by bit, as R33 places its fields; ERR and XCNT have no bits beyond their own. -/
theorem getLsbD_i2cStatus (e : I2c) {j : Nat} (hj : j < 32) : (i2cStatus e).getLsbD j =
    (decide (j = 0) && e.busy || decide (j = 1) && e.ack || decide (j = 2) && e.result ||
      decide (8 ≤ j) && (i2cErrCode e.err).getLsbD (j - 8) || decide (16 ≤ j) && e.xcnt.getLsbD (j - 16)) := by
  simp only [i2cStatus, BitVec.getLsbD_or, getLsbD_bitAt _ _ hj, getLsbD_field _ _ hj]

/-- Each field of I2C_STATUS stands at its bits and the reserved bits are 0 (R33). -/
theorem i2cStatus_fields (e : I2c) :
    (i2cStatus e).getLsbD 0 = e.busy ∧ (i2cStatus e).getLsbD 1 = e.ack ∧ (i2cStatus e).getLsbD 2 = e.result ∧
    (i2cStatus e).extractLsb' 3 5 = 0 ∧ (i2cStatus e).extractLsb' 8 3 = i2cErrCode e.err ∧
    (i2cStatus e).extractLsb' 11 5 = 0 ∧ (i2cStatus e).extractLsb' 16 9 = e.xcnt ∧
    (i2cStatus e).extractLsb' 25 7 = 0 := by
  refine ⟨?_, ?_, ?_, ?_, ?_, ?_, ?_, ?_⟩
  · simpa using getLsbD_i2cStatus e (j := 0) (by decide)
  · simpa using getLsbD_i2cStatus e (j := 1) (by decide)
  · simpa using getLsbD_i2cStatus e (j := 2) (by decide)
  all_goals
    ext j hj
    rw [BitVec.getElem_extractLsb', getLsbD_i2cStatus e (by omega)]
    grind

/-- RXBYTE stands at its bits and the reserved bits are 0 (R34). -/
theorem i2cRxdata_fields (e : I2c) :
    (i2cRxdata e).extractLsb' 0 8 = e.rxbyte ∧ (i2cRxdata e).extractLsb' 8 24 = 0 := by
  constructor
  · rw [← BitVec.setWidth_eq_extractLsb' (by decide), i2cRxdata]
    simp
  · ext j hj
    simp [i2cRxdata]

/-- Settles O28: the words read are those of R33 and R34, field by field. -/
theorem i2cResultReads : Obligations.I2cResultReads := fun s => by
  obtain ⟨hbusy, hack, hresult, h3, herr, h11, hxcnt, h25⟩ := i2cStatus_fields s.i2c
  refine ⟨⟨_, rfl, hbusy, hack, hresult, h3, ?_, h11, hxcnt, h25⟩, _, rfl, i2cRxdata_fields s.i2c⟩
  rw [herr]
  cases s.i2c.err <;> rfl

/-! ### The frame buffer (R35) -/

/-- Settles O27: a write reads back at its own index and leaves every other. -/
theorem frameBufferReadAfterWrite : Obligations.FrameBufferReadAfterWrite := fun s i v hwf hb hi => by
  have hentry : i < Config.frameMax := hi
  have hbyte : v.setWidth 8 = v.extractLsb' 0 8 := BitVec.setWidth_eq_extractLsb' (by decide)
  refine ⟨by simp [exec, execRdI2cBuf, onEntry, hentry, hb, answer],
    Memory.write s.buf i (v.setWidth 8), by simp [exec, execWrI2cBuf, onEntry, hentry, hb], fun j => ?_⟩
  split_ifs with hj
  · rw [hj, Memory.read_write_same hwf, hbyte]
  · exact Memory.read_write_other s.buf _ hj

/-! ### The words latched into CUR (R103) -/

/-- A field placed above `n` bits adds its value times `2 ^ n` to what stands in them. -/
theorem toNat_shiftLeft_or {w n : Nat} (x : BitVec w) {y : Word} (hx : w + n ≤ 32) (hy : y.toNat < 2 ^ n) :
    (x.setWidth 32 <<< n ||| y).toNat = x.toNat * 2 ^ n + y.toNat := by
  have hfield : x.toNat * 2 ^ n < 2 ^ 32 :=
    calc x.toNat * 2 ^ n < 2 ^ w * 2 ^ n := Nat.mul_lt_mul_of_pos_right x.isLt (Nat.two_pow_pos n)
      _ = 2 ^ (w + n) := (Nat.pow_add 2 w n).symm
      _ ≤ 2 ^ 32 := Nat.pow_le_pow_right (by decide) hx
  have hwide : x.toNat < 2 ^ 32 := (Nat.le_mul_of_pos_right _ (Nat.two_pow_pos n)).trans_lt hfield
  rw [BitVec.toNat_or, BitVec.toNat_shiftLeft, BitVec.toNat_setWidth, Nat.mod_eq_of_lt hwide, Nat.shiftLeft_eq,
    Nat.mod_eq_of_lt hfield, Nat.mul_comm, Nat.two_pow_add_eq_or_of_lt hy]

theorem instrWord_wrbyte (b : Byte) : instrWord (.wrbyte b) = BitVec.ofNat 32 (b.toNat * 2 ^ 8 + 4) := by
  have hword : (instrWord (.wrbyte b)).toNat = b.toNat * 2 ^ 8 + 4 :=
    toNat_shiftLeft_or (n := 8) b (y := 4) (by decide) (by decide)
  rw [← hword, BitVec.ofNat_toNat, BitVec.setWidth_eq]

/-- A frame's word, with an opcode of one hexadecimal digit, as a number (R103). -/
theorem frameWord_eq (len : BitVec 9) (addr : BitVec 7) (h : Bool) {op : Word} (hop : op.toNat < 16) :
    frameWord op len addr h =
      BitVec.ofNat 32 (len.toNat * 2 ^ 23 + addr.toNat * 2 ^ 16 + h.toNat * 2 ^ 4 + op.toNat) := by
  have hhold := toNat_shiftLeft_or (n := 4) (BitVec.ofBool h) (by decide) hop
  rw [BitVec.toNat_ofBool] at hhold
  have hbool := Bool.toNat_le h
  have haddr := toNat_shiftLeft_or (n := 16) addr (by decide)
    (hhold.trans_lt (by omega : h.toNat * 2 ^ 4 + op.toNat < 2 ^ 16))
  have hlen := toNat_shiftLeft_or (n := 23) len (by decide)
    (haddr.trans_lt (by have := addr.isLt; omega))
  rw [hhold] at haddr
  have hword : (frameWord op len addr h).toNat =
      len.toNat * 2 ^ 23 + addr.toNat * 2 ^ 16 + h.toNat * 2 ^ 4 + op.toNat := by
    rw [frameWord, bitAt, BitVec.or_assoc, BitVec.or_assoc, hlen, haddr]
    omega
  rw [← hword, BitVec.ofNat_toNat, BitVec.setWidth_eq]

theorem instrWord_rdbyte (a : Bool) : instrWord (.rdbyte a) = if a then 0x00000025 else 0x00000005 := by
  cases a <;> rfl

theorem instrWord_wrframe (len : BitVec 9) (addr : BitVec 7) (h : Bool) : instrWord (.wrframe len addr h) =
    BitVec.ofNat 32 (len.toNat * 2 ^ 23 + addr.toNat * 2 ^ 16 + h.toNat * 2 ^ 4 + 6) :=
  frameWord_eq len addr h (op := 6) (by decide)

theorem instrWord_rdframe (len : BitVec 9) (addr : BitVec 7) (h : Bool) : instrWord (.rdframe len addr h) =
    BitVec.ofNat 32 (len.toNat * 2 ^ 23 + addr.toNat * 2 ^ 16 + h.toNat * 2 ^ 4 + 7) :=
  frameWord_eq len addr h (op := 7) (by decide)

/-- An I2C command of legal length is accepted on an idle engine (R243). -/
theorem exec_accepted {i : Instr} {s t : State} {lenOk : Bool} (he : exec i s = .next (presentI2c lenOk s t))
    (hb : s.i2c.busy = false) (hl : lenOk = true) : exec i s = .next t := by
  rw [he, presentI2c, hb, hl]
  rfl

/-- Settles O12: an idle engine accepts, and the word latched is the sum of its fields. -/
theorem acceptedI2cCommandsStartTheEngine : Obligations.AcceptedI2cCommandsStartTheEngine := by
  intro s b a h len addr hb started frame
  refine ⟨exec_accepted rfl hb rfl, exec_accepted rfl hb rfl, exec_accepted rfl hb rfl, ?_, ?_, fun hlen => ?_,
    fun hpos hlen => ?_⟩
  · exact instrWord_wrbyte b ▸ exec_accepted rfl hb rfl
  · exact instrWord_rdbyte a ▸ exec_accepted rfl hb rfl
  · exact instrWord_wrframe len addr h ▸ exec_accepted rfl hb (decide_eq_true hlen)
  · exact instrWord_rdframe len addr h ▸ exec_accepted rfl hb (decide_eq_true ⟨hpos, hlen⟩)

end Sys2Proof.Machine
end

section
/-! PROOF. The register map (20_memory.md R70 to R75): which offsets are mapped, and what the decoder answers at each. -/

namespace Sys2Proof

/-! ### The mapped registers -/

/-- The registers of R72 that exist in a block of `n` channels. -/
def Reg.mapped (n : Nat) : Reg → Prop
  | .i2cCmd | .i2cStatus | .i2cRxdata => True
  | .i2cBuf i => i < Config.frameMax
  | .pwmCmd k | .pwmStatus k | .pwmDuty k | .pwmPeriod k | .pwmLine k | .pwmPeriodArg k => k < n

theorem Config.nPwm_le {c : Config} (hc : c.wf = true) : c.nPwm ≤ 64 := by
  simp only [Config.wf, Bool.and_eq_true, decide_eq_true_eq] at hc
  omega

/-- The register map at an offset of channel `k`'s bank (R72). -/
theorem regAt_bank {n k sub : Nat} (hk : k < n) (hsub : sub < 0x20) :
    regAt n (0x800 + sub + 0x20 * k) = bankReg k sub := by
  have hbank : (0x800 + sub + 0x20 * k - 0x800) / 0x20 = k := by omega
  have hoff : (0x800 + sub + 0x20 * k - 0x800) % 0x20 = sub := by omega
  unfold regAt
  rw [hbank, hoff, if_neg (by omega), if_neg (by omega), if_neg (by omega), if_neg (by omega), if_neg (by omega),
    if_neg (by omega), if_pos hk]

theorem regAt_buf {n i : Nat} (hi : i < 256) : regAt n (0x100 + 4 * i) = some (.i2cBuf i) := by
  have hentry : (0x100 + 4 * i - 0x100) / 4 = i := by omega
  unfold regAt
  rw [hentry, if_neg (by omega), if_neg (by omega), if_neg (by omega), if_neg (by omega), if_pos (by omega)]

/-- The register map finds a mapped register at its own offset (R72). -/
theorem regAt_regOffset {n : Nat} {r : Reg} (hr : r.mapped n) : regAt n (regOffset r) = some r := by
  cases r with
  | i2cCmd | i2cStatus | i2cRxdata => rfl
  | i2cBuf i => exact regAt_buf hr
  | pwmCmd k => exact regAt_bank (sub := 0x00) hr (by decide)
  | pwmStatus k => exact regAt_bank (sub := 0x04) hr (by decide)
  | pwmDuty k => exact regAt_bank (sub := 0x08) hr (by decide)
  | pwmPeriod k => exact regAt_bank (sub := 0x0C) hr (by decide)
  | pwmLine k => exact regAt_bank (sub := 0x10) hr (by decide)
  | pwmPeriodArg k => exact regAt_bank (sub := 0x14) hr (by decide)

/-- A mapped register stands at an aligned offset inside the window (R71, R72). -/
theorem regOffset_bounds {n : Nat} {r : Reg} (hn : n ≤ 64) (hr : r.mapped n) :
    regOffset r < 0x1000 ∧ regOffset r % 4 = 0 := by
  cases r with
  | i2cCmd | i2cStatus | i2cRxdata => exact ⟨by decide, by decide⟩
  | i2cBuf i =>
    have hi : i < 256 := hr
    simp only [regOffset]
    omega
  | pwmCmd k | pwmStatus k | pwmDuty k | pwmPeriod k | pwmLine k | pwmPeriodArg k =>
    have hk : k < n := hr
    simp only [regOffset]
    omega

/-- The last two words of a channel's bank are unmapped (R72). -/
theorem bankReg_eq_none {k sub : Nat} (h : 0x18 ≤ sub) : bankReg k sub = none := by
  unfold bankReg
  rw [if_neg (by omega), if_neg (by omega), if_neg (by omega), if_neg (by omega), if_neg (by omega), if_neg (by omega)]

/-- The unmapped offsets of R72: the gap before the frame buffer, the gap after it, the banks of no channel, and the end
of each bank. -/
theorem regAt_eq_none {n off : Nat}
    (h : (0x00C ≤ off ∧ off < 0x100) ∨ (0x500 ≤ off ∧ off < 0x800) ∨ (0x800 ≤ off ∧ n ≤ (off - 0x800) / 0x20) ∨
      (0x800 ≤ off ∧ 0x18 ≤ (off - 0x800) % 0x20)) : regAt n off = none := by
  unfold regAt
  rw [if_neg (by omega), if_neg (by omega), if_neg (by omega)]
  obtain ⟨-, hlt⟩ | ⟨hle, hlt⟩ | ⟨hle, hno⟩ | ⟨hle, hend⟩ := h
  · rw [if_pos hlt]
  · rw [if_neg (by omega), if_neg (by omega), if_pos hlt]
  · rw [if_neg (by omega), if_neg (by omega), if_neg (by omega), if_neg (by omega)]
  · rw [if_neg (by omega), if_neg (by omega), if_neg (by omega), bankReg_eq_none hend, ite_self]

/-! ### What the decoder answers -/

/-- An access to a mapped register passes the decoder's checks of the window, the width and the alignment. -/
theorem decode_mapped {c : Config} {r : Reg} (hc : c.wf = true) (hr : r.mapped c.nPwm) (dir : Dir) (w : Word) :
    decode c ⟨dir, regAddr c r, .w32, w⟩ = if dir = .read then decodeRead r else decodeWrite w r := by
  obtain ⟨hlt, halign⟩ := regOffset_bounds (Config.nPwm_le hc) hr
  have hoff : regAddr c r - c.base = regOffset r := Nat.add_sub_cancel_left ..
  unfold decode
  simp only [hoff, regAt_regOffset hr]
  rw [if_pos ⟨Nat.le_add_right .., hlt⟩, if_pos ⟨trivial, halign⟩]
  cases dir <;> rfl

/-- The decoder refuses an access to the window that is narrow, misaligned or at an unmapped offset (R73, R75). -/
theorem decode_badAccess {c : Config} {a : HostAccess} {off : Nat} (haddr : a.addr = c.base + off) (hoff : off < 0x1000)
    (h : a.width ≠ .w32 ∨ off % 4 ≠ 0 ∨ regAt c.nPwm off = none) : decode c a = .badAccess a.addr := by
  have hsub : a.addr - c.base = off := by omega
  unfold decode
  rw [hsub, if_pos ⟨by omega, hoff⟩]
  by_cases hshape : a.width = .w32 ∧ off % 4 = 0
  · have hnone : regAt c.nPwm off = none := by tauto
    rw [if_pos hshape, hnone]
  · rw [if_neg hshape]

/-- An access outside the window is not the block's (R70, R71). -/
theorem decode_outsideWindow {c : Config} {a : HostAccess} (h : a.addr < c.base ∨ c.base + 0x1000 ≤ a.addr) :
    decode c a = .outsideWindow a.addr := by
  unfold decode
  rw [if_neg (by omega)]

end Sys2Proof
end

section
/-! PROOF. The statements about host accesses and the register map (20_memory.md R70 to R79, R87). -/

namespace Sys2Proof.Machine

open Sys2Proof Host

/-! ### One host access, by what the decoder answers -/

section Access
variable {s : State} {a : HostAccess}

/-- With a host access at the head of the agenda, the step is that access (R87). -/
theorem step_host {rest : List Event} (hc : s.cfg.wf = true) (ha : s.agenda = .host a :: rest) :
    step s = hostAccess a { s with agenda := rest } := by
  simp only [step, machineStep, nextEvent, takeEvent, runEvent, hc, ha, if_true]

theorem hostAccess_of_instr {i : Instr} (h : decode s.cfg a = .instr i) : hostAccess a s = exec i s := by
  rw [hostAccess, h]

theorem hostAccess_of_readOnlyWrite (h : decode s.cfg a = .readOnlyWrite) : hostAccess a s = .next s := by
  rw [hostAccess, h]

theorem hostAccess_of_commandRead (h : decode s.cfg a = .commandRead) : hostAccess a s = .next (answer 0 s) := by
  rw [hostAccess, h]

theorem hostAccess_of_badAccess {addr : Nat} (h : decode s.cfg a = .badAccess addr) :
    hostAccess a s = .next (signalFault (.badAccess addr) s) := by
  rw [hostAccess, h]

theorem hostAccess_of_outsideWindow {addr : Nat} (h : decode s.cfg a = .outsideWindow addr) :
    hostAccess a s = .fault (.outsideWindow addr) := by
  rw [hostAccess, h]

end Access

/-- Settles O7: the host's step is its access, and the access its instruction. -/
theorem stepRunsTheDecodedInstruction : Obligations.StepRunsTheDecodedInstruction := fun _ _ _ _ hc ha hi => by
  rw [step_host hc ha]
  exact hostAccess_of_instr hi

/-- Settles O8: the decoder refuses such an access, and a refused access only records its fault. -/
theorem unmappedOrMisalignedAccessIsRefused : Obligations.UnmappedOrMisalignedAccessIsRefused :=
  fun s a rest off hc ha haddr hoff h => by
  have hbad : decode s.cfg a = .badAccess a.addr :=
    decode_badAccess haddr hoff (h.imp_right (Or.imp_right regAt_eq_none))
  rw [step_host hc ha]
  exact hostAccess_of_badAccess hbad

/-- Settles O9: every register named is mapped, and the decoder answers by its kind. -/
theorem readOnlyWritesAndCommandReads : Obligations.ReadOnlyWritesAndCommandReads := fun s w k hc hk => by
  refine ⟨fun r hr => ?_, fun r hr => ?_⟩
  · obtain ⟨hmap, hkind⟩ : r.mapped s.cfg.nPwm ∧ decodeWrite w r = .readOnlyWrite := by
      simp only [List.mem_cons, List.not_mem_nil, or_false] at hr
      rcases hr with rfl | rfl | rfl | rfl | rfl | rfl <;> simp [Reg.mapped, decodeWrite, hk]
    exact hostAccess_of_readOnlyWrite ((decode_mapped hc hmap .write w).trans hkind)
  · obtain ⟨hmap, hkind⟩ : r.mapped s.cfg.nPwm ∧ decodeRead r = .commandRead := by
      simp only [List.mem_cons, List.not_mem_nil, or_false] at hr
      rcases hr with rfl | rfl <;> simp [Reg.mapped, decodeRead, hk]
    exact hostAccess_of_commandRead ((decode_mapped hc hmap .read w).trans hkind)

/-! ### Registers that do not exist -/

theorem onChannel_missing {k : Nat} {s : State} (hk : s.chans.length ≤ k) (r : Reg) (f : Channel → State) :
    onChannel k r s f = .next (signalFault (.badAccess (regAddr s.cfg r)) s) := by
  rw [onChannel, List.getElem?_eq_none hk]

theorem onEntry_missing {i : Nat} (hi : Config.frameMax ≤ i) (s t : State) :
    onEntry i s t = .next (signalFault (.badAccess (regAddr s.cfg (.i2cBuf i))) s) := by
  rw [onEntry, if_neg (Nat.not_lt.2 hi)]

theorem onEntry_present {i : Nat} (hi : i < Config.frameMax) (s t : State) : onEntry i s t = .next t := by
  rw [onEntry, if_pos hi]

/-- Settles O11: the thirteen terms of a channel go through `onChannel` and the two of an entry through `onEntry`; an
access outside the window is stopped by the decoder. -/
theorem missingRegistersAreRefused : Obligations.MissingRegistersAreRefused := by
  refine ⟨fun s k i d l v hk hi => ?_, fun s a rest hc ha hout => ?_⟩
  · have channel := onChannel_missing hk
    have entry := onEntry_missing hi s
    simp only [List.forall_mem_cons, List.not_mem_nil, false_implies, implies_true, and_true]
    exact ⟨channel _ _, channel _ _, channel _ _, channel _ _, channel _ _, channel _ _, channel _ _, channel _ _,
      channel _ _, channel _ _, channel _ _, channel _ _, channel _ _, entry _, entry _⟩
  · rw [step_host hc ha]
    exact hostAccess_of_outsideWindow (decode_outsideWindow hout)

/-! ### The frame buffer while the engine is busy (R79) -/

theorem exec_wrI2cBuf {i : Nat} (hi : i < Config.frameMax) (v : Word) (s : State) : exec (.wrI2cBuf i v) s =
    .next (if s.i2c.busy then raiseReject (.i2c .bufBusy) s else setEntry i (v.setWidth 8) s) :=
  onEntry_present hi s _

theorem exec_rdI2cBuf {i : Nat} (hi : i < Config.frameMax) (s : State) : exec (.rdI2cBuf i) s =
    .next (if s.i2c.busy then answer 0 (raiseReject (.i2c .bufBusy) s)
      else answer ((Memory.read s.buf i).setWidth 32) s) :=
  onEntry_present hi s _

/-- Settles O26: a busy engine turns both accesses away with code 4, and an idle one leaves its registers alone. -/
theorem frameBufferIsTheEnginesWhileBusy : Obligations.FrameBufferIsTheEnginesWhileBusy := fun s i v hi => by
  rw [exec_wrI2cBuf hi, exec_rdI2cBuf hi]
  refine ⟨fun hb => ?_, fun hb => ?_⟩ <;> rw [hb]
  · exact ⟨rfl, rfl⟩
  · exact ⟨⟨_, rfl, setEntry_i2c ..⟩, _, rfl, answer_i2c ..⟩

/-! ### Byte order (R76) -/

/-- The four bytes of a word, each shifted back to its own bits, make the word. -/
theorem wordOfBytes_bytesOfWord (w : Word) : wordOfBytes (bytesOfWord w) = w := by
  refine BitVec.eq_of_getLsbD_eq fun j hj => ?_
  have hlow := getLsbD_field (w.extractLsb' 0 8) 0 hj
  rw [BitVec.shiftLeft_zero] at hlow
  simp only [wordOfBytes, bytesOfWord, List.getD_cons_zero, List.getD_cons_succ, BitVec.getLsbD_or,
    getLsbD_field _ _ hj, hlow, BitVec.getLsbD_extractLsb']
  obtain h | h | h | h : j < 8 ∨ (8 ≤ j ∧ j < 16) ∨ (16 ≤ j ∧ j < 24) ∨ (24 ≤ j ∧ j < 32) := by omega
  all_goals grind

/-- Settles O6: the bytes lose nothing, and the first is the least significant. -/
theorem registerBytesAreLittleEndian : Obligations.RegisterBytesAreLittleEndian := fun w =>
  ⟨wordOfBytes_bytesOfWord w, congrArg some (BitVec.setWidth_eq_extractLsb' (by decide)).symm⟩

end Sys2Proof.Machine
end

section
/-! PROOF. The encodings (30_encoding.md): the operands and fields of a command word (R101, R103 to R107), the two opcode
tables (R102, R105, R112), and the round trip between an instruction and its access (R113, R117). -/

namespace Sys2Proof

open Sys2Proof.Machine Host

/-! ### Operands (R106, R107) -/

theorem lineOfBits_lineToBits (l : LineDesc) : lineOfBits (lineToBits l) = l := by
  rw [lineOfBits, lineToBits_reg, lineToBits_bit, lineToBits_inv]

/-- The bits of an encoded descriptor: BIT below 3, INV at 3, REG from 4 (R106). -/
theorem getLsbD_lineToBits (l : LineDesc) {j : Nat} (hj : j < 12) : (lineToBits l).getLsbD j =
    if j < 3 then l.bit.getLsbD j else if j = 3 then l.inv else l.reg.getLsbD (j - 4) := by
  simp only [lineToBits, BitVec.getLsbD_or, BitVec.getLsbD_shiftLeft, BitVec.getLsbD_setWidth, BitVec.getLsbD_ofBool]
  obtain h | h | h : j < 3 ∨ j = 3 ∨ 4 ≤ j := by omega
  all_goals grind

theorem lineToBits_lineOfBits (e : BitVec 12) : lineToBits (lineOfBits e) = e := by
  refine BitVec.eq_of_getLsbD_eq fun j hj => ?_
  rw [getLsbD_lineToBits _ hj]
  simp only [lineOfBits, BitVec.getLsbD_extractLsb']
  obtain h | h | h : j < 3 ∨ j = 3 ∨ 4 ≤ j := by omega
  all_goals grind

/-- Settles O5: the three fields cover the twelve bits, each once. -/
theorem lineDescriptorEncodingIsExact : Obligations.LineDescriptorEncodingIsExact :=
  ⟨fun e => ⟨rfl, rfl, rfl, lineToBits_lineOfBits e⟩, lineOfBits_lineToBits⟩

/-- Settles O32: read as signed, a word above 0x7FFF is negative and any other is itself. -/
theorem dutyRangeIsZeroToOne : Obligations.DutyRangeIsZeroToOne := fun d => by
  have hsigned : dutyInRange d = true ↔ 0 ≤ d.toInt ∧ d.toInt ≤ 16384 := decide_eq_true_iff
  refine ⟨hsigned, hsigned.trans ?_⟩
  rw [BitVec.toInt_eq_toNat_cond]
  have := d.isLt
  split <;> omega

/-- Settles O4: closed words, evaluated. -/
theorem wordsOfTheSpecDecode : Obligations.WordsOfTheSpecDecode := by
  unfold Obligations.WordsOfTheSpecDecode
  decide

/-! ### The opcode tables (R102, R105, R112) -/

/-- What makes a table decodable: every mask keeps OP, every opcode is one of 1 to 7, and no two rows share one. -/
def OpcodeTable {α : Type} (t : List (Row α)) : Prop :=
  (∀ r ∈ t, r.mask.extractLsb' 0 4 = 0xF ∧ fieldOp r.pattern ≠ 0 ∧ (fieldOp r.pattern).toNat < 8) ∧
  (t.map fun r => fieldOp r.pattern).Nodup

theorem opcodeTable_i2c : OpcodeTable i2cTable := by
  unfold OpcodeTable
  decide

theorem opcodeTable_pwm : OpcodeTable pwmTable := by
  unfold OpcodeTable
  decide

section Table
variable {α : Type} {t : List (Row α)} {w : Word} {r r' : Row α}

/-- A word that matches a row has the row's opcode. -/
theorem OpcodeTable.fieldOp_eq (ht : OpcodeTable t) (hr : r ∈ t) (h : w &&& r.mask = r.pattern) :
    fieldOp w = fieldOp r.pattern := by
  obtain ⟨hrows, -⟩ := ht
  obtain ⟨hmask, -⟩ := hrows r hr
  exact fieldOp_of_match h hmask

theorem OpcodeTable.match_unique (ht : OpcodeTable t) (hr : r ∈ t) (hr' : r' ∈ t) (h : w &&& r.mask = r.pattern)
    (h' : w &&& r'.mask = r'.pattern) : r = r' := by
  have hop : fieldOp r.pattern = fieldOp r'.pattern := (ht.fieldOp_eq hr h).symm.trans (ht.fieldOp_eq hr' h')
  obtain ⟨-, hdistinct⟩ := ht
  exact List.inj_on_of_nodup_map hdistinct hr hr' hop

/-- OP 0x0 and 0x8 to 0xF are no row's. -/
theorem OpcodeTable.no_match (ht : OpcodeTable t) (hw : fieldOp w = 0 ∨ 8 ≤ (fieldOp w).toNat) :
    ∀ r ∈ t, w &&& r.mask ≠ r.pattern := fun r hr h => by
  have hop := ht.fieldOp_eq hr h
  obtain ⟨hrows, -⟩ := ht
  obtain ⟨-, hzero, hlt⟩ := hrows r hr
  rw [hop] at hw
  exact hw.elim hzero (by omega)

/-- What decoding answers, it answers for a row that matches. -/
theorem exists_match_of_decodeRow {op : α} (h : decodeRow t w = some op) :
    ∃ r ∈ t, w &&& r.mask = r.pattern ∧ r.op = op := by
  induction t with
  | nil => cases h
  | cons r rest ih =>
    rw [decodeRow] at h
    split at h
    · exact ⟨r, List.mem_cons_self, ‹_›, Option.some.inj h⟩
    · obtain ⟨r', hr', hmatch⟩ := ih h
      exact ⟨r', List.mem_cons_of_mem r hr', hmatch⟩

theorem decodeRow_eq_none (h : ∀ r ∈ t, w &&& r.mask ≠ r.pattern) : decodeRow t w = none := by
  rw [Option.eq_none_iff_forall_not_mem]
  intro op hop
  obtain ⟨r, hr, hmatch, -⟩ := exists_match_of_decodeRow hop
  exact h r hr hmatch

theorem decodeRow_ne_none (hr : r ∈ t) (h : w &&& r.mask = r.pattern) : decodeRow t w ≠ none := by
  induction t with
  | nil => cases hr
  | cons r₀ rest ih =>
    rw [decodeRow]
    split
    · exact Option.some_ne_none _
    · rcases List.mem_cons.1 hr with rfl | hr
      · contradiction
      · exact ih hr

/-- Decoding finds the row that matches (R112). -/
theorem OpcodeTable.decodeRow_eq (ht : OpcodeTable t) (hr : r ∈ t) (h : w &&& r.mask = r.pattern) :
    decodeRow t w = some r.op := by
  obtain ⟨op, hop⟩ := Option.ne_none_iff_exists'.1 (decodeRow_ne_none hr h)
  obtain ⟨r', hr', hmatch, rfl⟩ := exists_match_of_decodeRow hop
  rw [hop, ht.match_unique hr hr' h hmatch]

end Table

theorem decodeI2c_eq_none {w : Word} (h : ∀ r ∈ i2cTable, w &&& r.mask ≠ r.pattern) : decodeI2c w = none := by
  rw [decodeI2c, decodeRow_eq_none h, Option.map_none]

theorem decodePwm_eq_none {w : Word} (h : ∀ r ∈ pwmTable, w &&& r.mask ≠ r.pattern) (k : Nat) :
    decodePwm k w = none := by
  rw [decodePwm, decodeRow_eq_none h, Option.map_none]

/-- Settles O3: two rows that match one word have its opcode, so they are one row. -/
theorem atMostOneCommandMatchesAWord : Obligations.AtMostOneCommandMatchesAWord := fun _ =>
  ⟨fun _ hr _ hr' h h' => opcodeTable_i2c.match_unique hr hr' h h',
    fun _ hr _ hr' h h' => opcodeTable_pwm.match_unique hr hr' h h',
    fun _ hr h => opcodeTable_i2c.decodeRow_eq hr h, fun _ hr h => opcodeTable_pwm.decodeRow_eq hr h,
    decodeI2c_eq_none, decodePwm_eq_none⟩

end Sys2Proof
end

section
/-! PROOF. An instruction's access decodes to the instruction, an access that decodes is the instruction's encoding, and a
word that is no command's is rejected (30_encoding.md R102 to R113, R117). -/

namespace Sys2Proof

open Sys2Proof.Machine Host

/-! ### From the word of a command to the command -/

/-- An instruction is well formed when its register is mapped (R72, R113). -/
theorem wf_iff_mapped (c : Config) (i : Instr) : i.wf c = true ↔ (instrReg i).mapped c.nPwm := by
  cases i <;> simp [Instr.wf, instrReg, Reg.mapped, wfChannel, wfEntry]

/-- The word of an I2C command decodes to the row of its opcode, and the row's operands are the command's (R103). -/
theorem decodeI2c_eq {op : I2cOp} {pattern mask w : Word} (hr : ⟨op, pattern, mask⟩ ∈ i2cTable)
    (h : w &&& mask = pattern) : decodeI2c w = some (i2cInstr w op) := by
  rw [decodeI2c, opcodeTable_i2c.decodeRow_eq hr h, Option.map_some]

theorem decodePwm_eq {op : PwmOp} {pattern mask w : Word} (hr : ⟨op, pattern, mask⟩ ∈ pwmTable)
    (h : w &&& mask = pattern) (k : Nat) : decodePwm k w = some (pwmInstr k w op) := by
  rw [decodePwm, opcodeTable_pwm.decodeRow_eq hr h, Option.map_some]

theorem decodeI2c_wrbyte (b : Byte) : decodeI2c (instrWord (.wrbyte b)) = some (.wrbyte b) := by
  rw [decodeI2c_eq (op := .wrbyte) (by decide) (Laws.TableRow.wrbyte b), i2cInstr, fieldByte_wrbyte]

theorem decodeI2c_rdbyte (a : Bool) : decodeI2c (instrWord (.rdbyte a)) = some (.rdbyte a) := by
  rw [decodeI2c_eq (op := .rdbyte) (by decide) (Laws.TableRow.rdbyte a), i2cInstr, fieldAck_rdbyte]

theorem decodeI2c_wrframe (len : BitVec 9) (addr : BitVec 7) (h : Bool) :
    decodeI2c (instrWord (.wrframe len addr h)) = some (.wrframe len addr h) := by
  rw [decodeI2c_eq (op := .wrframe) (by decide) (Laws.TableRow.wrframe len addr h), i2cInstr, fieldLen_wrframe,
    fieldAddr_wrframe, fieldHold_wrframe]

theorem decodeI2c_rdframe (len : BitVec 9) (addr : BitVec 7) (h : Bool) :
    decodeI2c (instrWord (.rdframe len addr h)) = some (.rdframe len addr h) := by
  rw [decodeI2c_eq (op := .rdframe) (by decide) (Laws.TableRow.rdframe len addr h), i2cInstr, fieldLen_rdframe,
    fieldAddr_rdframe, fieldHold_rdframe]

theorem decodePwm_pwmInit (k : Nat) (d : BitVec 16) (l : LineDesc) :
    decodePwm k (instrWord (.pwmInit k d l)) = some (.pwmInit k d l) := by
  rw [decodePwm_eq (op := .init) (by decide) (Laws.TableRow.pwmInit k d l), pwmInstr, fieldDuty_pwmInit,
    fieldLine_pwmInit, lineOfBits_lineToBits]

theorem decodePwm_pwmSetduty (k : Nat) (d : BitVec 16) :
    decodePwm k (instrWord (.pwmSetduty k d)) = some (.pwmSetduty k d) := by
  rw [decodePwm_eq (op := .setduty) (by decide) (Laws.TableRow.pwmSetduty k d), pwmInstr, fieldDuty_pwmSetduty]

theorem decodePwm_pwmSetline (k : Nat) (l : LineDesc) :
    decodePwm k (instrWord (.pwmSetline k l)) = some (.pwmSetline k l) := by
  rw [decodePwm_eq (op := .setline) (by decide) (Laws.TableRow.pwmSetline k l), pwmInstr, fieldLine_pwmSetline,
    lineOfBits_lineToBits]

theorem decodeWrite_i2cCmd {w : Word} {i : Instr} (h : decodeI2c w = some i) : decodeWrite w .i2cCmd = .instr i := by
  rw [decodeWrite, h]

theorem decodeWrite_pwmCmd {k : Nat} {w : Word} {i : Instr} (h : decodePwm k w = some i) :
    decodeWrite w (.pwmCmd k) = .instr i := by
  rw [decodeWrite, h]

/-- The word and the direction of an instruction select it among the accesses to its register (R102, R105, R113). -/
theorem decode_instrReg (i : Instr) :
    (if instrDir i = .read then decodeRead (instrReg i) else decodeWrite (instrWord i) (instrReg i)) = .instr i := by
  cases i with
  | start | rstart | stop => rfl
  | wrbyte b => exact decodeWrite_i2cCmd (decodeI2c_wrbyte b)
  | rdbyte a => exact decodeWrite_i2cCmd (decodeI2c_rdbyte a)
  | wrframe len addr h => exact decodeWrite_i2cCmd (decodeI2c_wrframe len addr h)
  | rdframe len addr h => exact decodeWrite_i2cCmd (decodeI2c_rdframe len addr h)
  | pwmInit k d l => exact decodeWrite_pwmCmd (decodePwm_pwmInit k d l)
  | pwmSetduty k d => exact decodeWrite_pwmCmd (decodePwm_pwmSetduty k d)
  | pwmSetline k l => exact decodeWrite_pwmCmd (decodePwm_pwmSetline k l)
  | pwmStart k => exact decodeWrite_pwmCmd (decodePwm_eq (op := .start) (by decide) (Laws.TableRow.pwmStart k) k)
  | pwmPause k => exact decodeWrite_pwmCmd (decodePwm_eq (op := .pause) (by decide) (Laws.TableRow.pwmPause k) k)
  | pwmResume k => exact decodeWrite_pwmCmd (decodePwm_eq (op := .resume) (by decide) (Laws.TableRow.pwmResume k) k)
  | pwmStop k => exact decodeWrite_pwmCmd (decodePwm_eq (op := .stop) (by decide) (Laws.TableRow.pwmStop k) k)
  | rdI2cStatus | rdI2cRxdata | rdI2cBuf i | wrI2cBuf i v => rfl
  | rdPwmStatus k | rdPwmDuty k | rdPwmPeriod k | rdPwmLine k | rdPwmPeriodArg k | wrPwmPeriodArg k v => rfl

/-- Settles O1: the address finds the instruction's register, and the word and the direction the instruction. -/
theorem decodeOfEncodeIsTheInstruction : Obligations.DecodeOfEncodeIsTheInstruction := fun c i hc hi =>
  (decode_mapped hc ((wf_iff_mapped c i).1 hi) (instrDir i) (instrWord i)).trans (decode_instrReg i)

/-! ### From a word that decodes to the command's word -/

/-- A field read from its bits and put back there keeps those bits of the word. -/
theorem setWidth_extractLsb'_shiftLeft (w m : Word) (n len : Nat)
    (hm : ∀ j < 32, m.getLsbD j = (decide (n ≤ j) && decide (j < n + len))) :
    (w.extractLsb' n len).setWidth 32 <<< n = w &&& m := by
  refine BitVec.eq_of_getLsbD_eq fun j hj => ?_
  rw [getLsbD_field _ _ hj, BitVec.getLsbD_extractLsb', BitVec.getLsbD_and, hm j hj]
  by_cases hle : n ≤ j
  · have hback : n + (j - n) = j := by omega
    have hlen : j - n < len ↔ j < n + len := by omega
    simp [hle, hback, hlen, Bool.and_comm]
  · simp [hle]

theorem bitAt_getLsbD (w m : Word) (n : Nat) (hm : ∀ j < 32, m.getLsbD j = decide (j = n)) :
    bitAt n (w.getLsbD n) = w &&& m := by
  refine BitVec.eq_of_getLsbD_eq fun j hj => ?_
  rw [getLsbD_bitAt _ _ hj, BitVec.getLsbD_and, hm j hj]
  by_cases hn : j = n
  · simp [hn]
  · simp [hn]

/-- A matching word is its operand bits and the row's pattern, when the operands and the mask cover the word (R102). -/
theorem operands_or_pattern {w m mask pattern : Word} (h : w &&& mask = pattern) (hm : m ||| mask = BitVec.allOnes 32) :
    w &&& m ||| pattern = w := by
  rw [← h, ← BitVec.and_or_distrib_left, hm, BitVec.and_allOnes]

/-- A word that matches a mask of all bits is the pattern. -/
theorem eq_of_full_match {w pattern : Word} (h : w &&& 0xFFFFFFFF = pattern) : pattern = w :=
  h.symm.trans BitVec.and_allOnes

theorem frameWord_fields_eq {w op : Word} (h : w &&& 0x0000FFEF = op) :
    frameWord op (fieldLen w) (fieldAddr w) (fieldHold w) = w := by
  rw [frameWord, fieldLen, fieldAddr, fieldHold, setWidth_extractLsb'_shiftLeft w 0xFF800000 23 9 (by decide),
    setWidth_extractLsb'_shiftLeft w 0x007F0000 16 7 (by decide), bitAt_getLsbD w 0x10 4 (by decide),
    ← BitVec.and_or_distrib_left, ← BitVec.and_or_distrib_left]
  exact operands_or_pattern h (by decide)

theorem instrWord_i2cInstr {op : I2cOp} {pattern mask w : Word} (hr : ⟨op, pattern, mask⟩ ∈ i2cTable)
    (h : w &&& mask = pattern) : instrWord (i2cInstr w op) = w := by
  simp only [i2cTable, List.mem_cons, List.not_mem_nil, or_false, Row.mk.injEq] at hr
  rcases hr with ⟨rfl, rfl, rfl⟩ | ⟨rfl, rfl, rfl⟩ | ⟨rfl, rfl, rfl⟩ | ⟨rfl, rfl, rfl⟩ | ⟨rfl, rfl, rfl⟩ |
    ⟨rfl, rfl, rfl⟩ | ⟨rfl, rfl, rfl⟩
  · exact eq_of_full_match h
  · exact eq_of_full_match h
  · exact eq_of_full_match h
  · rw [i2cInstr, instrWord, fieldByte, setWidth_extractLsb'_shiftLeft w 0x0000FF00 8 8 (by decide)]
    exact operands_or_pattern h (by decide)
  · rw [i2cInstr, instrWord, fieldAck, bitAt_getLsbD w 0x20 5 (by decide)]
    exact operands_or_pattern h (by decide)
  · exact frameWord_fields_eq h
  · exact frameWord_fields_eq h

theorem instrWord_pwmInstr {op : PwmOp} {pattern mask w : Word} (hr : ⟨op, pattern, mask⟩ ∈ pwmTable)
    (h : w &&& mask = pattern) (k : Nat) : instrWord (pwmInstr k w op) = w := by
  simp only [pwmTable, List.mem_cons, List.not_mem_nil, or_false, Row.mk.injEq] at hr
  rcases hr with ⟨rfl, rfl, rfl⟩ | ⟨rfl, rfl, rfl⟩ | ⟨rfl, rfl, rfl⟩ | ⟨rfl, rfl, rfl⟩ | ⟨rfl, rfl, rfl⟩ |
    ⟨rfl, rfl, rfl⟩ | ⟨rfl, rfl, rfl⟩
  · rw [pwmInstr, instrWord, lineToBits_lineOfBits, fieldDuty, fieldLine,
      setWidth_extractLsb'_shiftLeft w 0xFFFF0000 16 16 (by decide),
      setWidth_extractLsb'_shiftLeft w 0x0000FFF0 4 12 (by decide), ← BitVec.and_or_distrib_left]
    exact operands_or_pattern h (by decide)
  · rw [pwmInstr, instrWord, fieldDuty, setWidth_extractLsb'_shiftLeft w 0xFFFF0000 16 16 (by decide)]
    exact operands_or_pattern h (by decide)
  · rw [pwmInstr, instrWord, lineToBits_lineOfBits, fieldLine,
      setWidth_extractLsb'_shiftLeft w 0x0000FFF0 4 12 (by decide)]
    exact operands_or_pattern h (by decide)
  · exact eq_of_full_match h
  · exact eq_of_full_match h
  · exact eq_of_full_match h
  · exact eq_of_full_match h

/-- A decoded word is written to I2C_CMD and is the command's own. -/
theorem decodeI2c_encodes {w : Word} {i : Instr} (h : decodeI2c w = some i) :
    instrReg i = .i2cCmd ∧ instrDir i = .write ∧ instrWord i = w := by
  obtain ⟨op, hop, rfl⟩ := Option.map_eq_some_iff.1 h
  obtain ⟨r, hr, hmatch, rfl⟩ := exists_match_of_decodeRow hop
  exact ⟨by cases r.op <;> rfl, by cases r.op <;> rfl, instrWord_i2cInstr hr hmatch⟩

theorem decodePwm_encodes {k : Nat} {w : Word} {i : Instr} (h : decodePwm k w = some i) :
    instrReg i = .pwmCmd k ∧ instrDir i = .write ∧ instrWord i = w := by
  obtain ⟨op, hop, rfl⟩ := Option.map_eq_some_iff.1 h
  obtain ⟨r, hr, hmatch, rfl⟩ := exists_match_of_decodeRow hop
  exact ⟨by cases r.op <;> rfl, by cases r.op <;> rfl, instrWord_pwmInstr hr hmatch k⟩

/-! ### From an access that decodes to the instruction's access -/

/-- A read that decodes to an instruction is of the instruction's register. -/
theorem decodeRead_encodes {r : Reg} {i : Instr} (h : decodeRead r = .instr i) :
    instrReg i = r ∧ instrDir i = .read ∧ instrWord i = 0 := by
  cases r <;> cases h <;> exact ⟨rfl, rfl, rfl⟩

/-- A write that decodes to an instruction is of the instruction's register and word. -/
theorem decodeWrite_encodes {w : Word} {r : Reg} {i : Instr} (h : decodeWrite w r = .instr i) :
    instrReg i = r ∧ instrDir i = .write ∧ instrWord i = w := by
  cases r with
  | i2cCmd =>
    rw [decodeWrite] at h
    split at h <;> cases h
    exact decodeI2c_encodes ‹_›
  | pwmCmd k =>
    rw [decodeWrite] at h
    split at h <;> cases h
    exact decodePwm_encodes ‹_›
  | i2cBuf j | pwmPeriodArg k => cases h; exact ⟨rfl, rfl, rfl⟩
  | i2cStatus | i2cRxdata | pwmStatus k | pwmDuty k | pwmPeriod k | pwmLine k => cases h

/-- The register found in a bank stands at its own offset. -/
theorem bankReg_eq_some {n k sub : Nat} {r : Reg} (hk : k < n) (h : bankReg k sub = some r) :
    r.mapped n ∧ regOffset r = 0x800 + 0x20 * k + sub := by
  unfold bankReg at h
  split_ifs at h <;> cases h <;> exact ⟨hk, by simp only [regOffset]; omega⟩

/-- The register found at an aligned offset is mapped and stands there (R72). -/
theorem regAt_eq_some {n off : Nat} {r : Reg} (h4 : off % 4 = 0) (h : regAt n off = some r) :
    r.mapped n ∧ regOffset r = off := by
  unfold regAt at h
  split_ifs at h with h0 h1 h2 h3 hbuf h5 hbank
  · cases h; exact ⟨trivial, h0.symm⟩
  · cases h; exact ⟨trivial, h1.symm⟩
  · cases h; exact ⟨trivial, h2.symm⟩
  · cases h
    have hentry : (off - 0x100) / 4 < 256 := by omega
    exact ⟨hentry, by simp only [regOffset]; omega⟩
  · obtain ⟨hmap, hoff⟩ := bankReg_eq_some hbank h
    exact ⟨hmap, by omega⟩

/-- An access that decodes to an instruction is a 32-bit access to a mapped register, decoded by its direction. -/
theorem decode_eq_instr {c : Config} {a : HostAccess} {i : Instr} (h : decode c a = .instr i) :
    ∃ r : Reg, r.mapped c.nPwm ∧ a.addr = regAddr c r ∧ a.width = .w32 ∧
      (if a.dir = .read then decodeRead r else decodeWrite a.data r) = .instr i := by
  unfold decode at h
  split_ifs at h with hwin hshape
  obtain ⟨hbase, -⟩ := hwin
  obtain ⟨hwidth, halign⟩ := hshape
  split at h
  · cases h
  · obtain ⟨hmap, hoff⟩ := regAt_eq_some halign ‹_›
    refine ⟨_, hmap, by rw [regAddr]; omega, hwidth, ?_⟩
    cases hdir : a.dir <;> simpa [hdir] using h

/-- Settles O2: the register found gives the address back, and the row found the word. -/
theorem encodeOfDecodeIsTheAccess : Obligations.EncodeOfDecodeIsTheAccess := fun c a i h => by
  obtain ⟨r, hmap, haddr, hwidth, hkind⟩ := decode_eq_instr h
  obtain ⟨dir, addr, width, w⟩ := a
  obtain rfl : addr = regAddr c r := haddr
  obtain rfl : width = .w32 := hwidth
  cases dir with
  | read =>
    obtain ⟨rfl, hdir, hword⟩ := decodeRead_encodes hkind
    exact ⟨(wf_iff_mapped c i).2 hmap, by rw [encode, hdir, hword]⟩
  | write =>
    obtain ⟨rfl, hdir, hword⟩ := decodeWrite_encodes hkind
    exact ⟨(wf_iff_mapped c i).2 hmap, by rw [encode, hdir, hword]⟩

/-! ### Reserved words (R111) -/

theorem rejectReservedI2c_eq (s : State) :
    rejectReservedI2c s = raiseReject (.i2c (if s.i2c.busy then .busy else .reserved)) s := by
  unfold rejectReservedI2c
  split <;> rfl

theorem hostAccess_reservedI2c {s : State} {w : Word} (hc : s.cfg.wf = true) (h : decodeI2c w = none) :
    hostAccess ⟨.write, regAddr s.cfg .i2cCmd, .w32, w⟩ s = .next (rejectReservedI2c s) := by
  have hdecode : decode s.cfg ⟨.write, regAddr s.cfg .i2cCmd, .w32, w⟩ = .reservedI2c := by
    rw [decode_mapped hc (r := .i2cCmd) trivial, if_neg (by decide), decodeWrite, h]
  rw [hostAccess, hdecode]

theorem hostAccess_reservedPwm {s : State} {k : Nat} {w : Word} (hc : s.cfg.wf = true) (hk : k < s.cfg.nPwm)
    (h : decodePwm k w = none) :
    hostAccess ⟨.write, regAddr s.cfg (.pwmCmd k), .w32, w⟩ s = .next (rejectReservedPwm k s) := by
  have hdecode : decode s.cfg ⟨.write, regAddr s.cfg (.pwmCmd k), .w32, w⟩ = .reservedPwm k := by
    rw [decode_mapped hc (r := .pwmCmd k) hk, if_neg (by decide), decodeWrite, h]
  rw [hostAccess, hdecode]

/-- Settles O10: no row has the word's opcode, the decoder answers RESERVED, and a rejection writes ERR alone. -/
theorem reservedWordsAreRejected : Obligations.ReservedWordsAreRejected := fun s w k hc hk hlen => by
  refine ⟨fun hop => ⟨opcodeTable_i2c.no_match hop, opcodeTable_pwm.no_match hop⟩, fun hno => ?_, fun hno => ?_⟩
  · rw [hostAccess_reservedI2c hc (decodeI2c_eq_none hno), rejectReservedI2c_eq]
    rfl
  · obtain ⟨c, hchan⟩ : ∃ c, s.chans[k]? = some c := ⟨_, List.getElem?_eq_getElem (hlen.symm ▸ hk)⟩
    refine ⟨c, hchan, ?_⟩
    rw [hostAccess_reservedPwm hc hk (decodePwm_eq_none hno k), rejectReservedPwm, raiseReject_pwm_eq hchan]
    rfl

end Sys2Proof
end

section
/-! PROOF. The engine runs a procedure to its end (40_i2c_conditions.md, 41_i2c_bytes.md): one step per line action, the
samples to the stage's local, and with the last action what the pseudocode puts after it (00_scope.md R17). -/

namespace Sys2Proof.Machine

open Sys2Proof Host

/-! ### The line actions of a procedure, one after the other -/

/-- The line actions `acts` performed in order, with POS's list of actions left alone (`engineRun_procedure`). -/
def performActions : List BusAction → State → State
  | [], s => s
  | a :: rest, s => performActions rest (performAction a s)

/-- The levels the samples among `acts` return, in order. -/
def sampledLevels : List BusAction → State → List Bool
  | [], _ => []
  | .drive w v :: rest, s => sampledLevels rest (performAction (.drive w v) s)
  | .sample :: rest, s => lineReadValue s.cfg.sda s :: sampledLevels rest (performAction .sample s)

/-- The shapes of `acts` when the samples among them return `levels` (R24). -/
def actionShapes (c : Config) : List BusAction → List Bool → List Shape
  | [], _ => []
  | .drive w v :: rest, levels => wShape c w v :: actionShapes c rest levels
  | .sample :: rest, levels => levels.head?.toList.map (rShape c) ++ actionShapes c rest levels.tail

/-- A stage with the samples `levels` taken, in order. -/
def stageSamples (levels : List Bool) (st : Stage) : Stage := levels.foldl (fun st b => stageSample b st) st

theorem portNext_setTodo (l : List BusAction) (s : State) : portNext (setTodo l s) = setTodo l (portNext s) := by
  simp only [portNext, setTodo_portIn]
  split <;> rfl

/-- A line action neither reads nor writes POS's list of actions to come. -/
theorem performAction_setTodo (a : BusAction) (l : List BusAction) (s : State) :
    performAction a (setTodo l s) = setTodo l (performAction a s) := by
  cases a with
  | drive w v =>
    simp only [performAction, lineWrite, portNext_setTodo]
    rfl
  | sample =>
    simp only [performAction, lineReadNext, setTodo_cfg, portNext_setTodo]
    rfl

theorem performActions_setTodo (acts l : List BusAction) (s : State) :
    performActions acts (setTodo l s) = setTodo l (performActions acts s) := by
  induction acts generalizing s with
  | nil => rfl
  | cons a rest ih => rw [performActions, performActions, performAction_setTodo, ih]

@[simp] theorem performActions_buf (acts : List BusAction) (s : State) : (performActions acts s).buf = s.buf := by
  induction acts generalizing s with
  | nil => rfl
  | cons a rest ih => rw [performActions, ih, performAction_buf]

/-- Of the engine's registers, line actions change the local of the stage alone. -/
theorem performActions_i2c (acts : List BusAction) (s : State) : (performActions acts s).i2c =
    { s.i2c with pos := ⟨stageSamples (sampledLevels acts s) s.i2c.pos.stage, s.i2c.pos.todo⟩ } := by
  induction acts generalizing s with
  | nil => rfl
  | cons a rest ih =>
    rw [performActions, ih]
    cases a with
    | drive w v => rw [performAction_drive_i2c]; rfl
    | sample => rw [performAction_sample_i2c]; rfl

theorem shapes_of_trace_cons {s t : State} {a : LineAction} (h : t.trace = a :: s.trace) :
    shapes t = shapes s ++ [a.shape] := by
  rw [shapes, h, List.map_cons, List.reverse_cons, shapes]

theorem shapes_performActions (acts : List BusAction) (s : State) :
    shapes (performActions acts s) = shapes s ++ actionShapes s.cfg acts (sampledLevels acts s) := by
  induction acts generalizing s with
  | nil => rw [performActions, actionShapes, List.append_nil]
  | cons a rest ih =>
    rw [performActions, ih, shapes_of_trace_cons (performAction_trace a s), performAction_cfg, List.append_assoc]
    cases a with
    | drive w v => rfl
    | sample => rfl

/-! ### A procedure run to its end -/

/-- The state in which the last of the pending line actions leaves the engine, before the pseudocode after it. -/
def procedureEnd (s : State) : State := setTodo [] (performActions (pendingActions s) s)

theorem procedureEnd_i2c (s : State) : (procedureEnd s).i2c =
    { s.i2c with pos := ⟨stageSamples (sampledLevels (pendingActions s) s) s.i2c.pos.stage, []⟩ } := by
  rw [procedureEnd, setTodo_i2c, performActions_i2c]

@[simp] theorem procedureEnd_buf (s : State) : (procedureEnd s).buf = s.buf := by
  rw [procedureEnd, setTodo_buf, performActions_buf]

theorem shapes_finishStage_procedureEnd (s : State) : shapes (finishStage (procedureEnd s)) =
    shapes s ++ actionShapes s.cfg (pendingActions s) (sampledLevels (pendingActions s) s) := by
  rw [← shapes_performActions, shapes, finishStage_trace, procedureEnd, setTodo_trace, shapes]

theorem pendingActions_of_pos {s : State} {st : Stage} (h : s.i2c.pos = ⟨st, []⟩) :
    pendingActions s = stageActions s st := by
  rw [pendingActions, h]

theorem pendingActions_setTodo {l : List BusAction} (hl : l ≠ []) (s : State) : pendingActions (setTodo l s) = l := by
  cases l with
  | nil => contradiction
  | cons a rest => rfl

/-- A busy engine performs the pending line actions one by one, changing POS alone before the last, and goes on with what
the pseudocode puts after the last. -/
theorem engineRun_pending {acts : List BusAction} {s : State} (hb : s.i2c.busy = true) (hp : pendingActions s = acts) :
    engineRun acts.length s = finishStage (setTodo [] (performActions acts s)) ∧
      ∀ m < acts.length, ∃ p, (engineRun m s).i2c = { s.i2c with pos := p } := by
  induction acts generalizing s with
  | nil => exact absurd hp (pendingActions_ne_nil s)
  | cons a rest ih =>
    rcases engineStep_cases s with ⟨hidle, -⟩ | ⟨-, a', rest', hp', hstep⟩
    · simp [hb] at hidle
    · obtain ⟨rfl, rfl⟩ := List.cons.inj (hp.symm.trans hp')
      rcases hstep with ⟨rfl, hstep⟩ | ⟨hne, hstep⟩
      · refine ⟨hstep, fun m hm => ⟨s.i2c.pos, ?_⟩⟩
        obtain rfl : m = 0 := Nat.lt_one_iff.1 hm
        rfl
      · have hi := setTodo_performAction_i2c rest a s
        obtain ⟨hend, hduring⟩ := ih (s := setTodo rest (performAction a s)) (by rw [hi]; exact hb)
          (pendingActions_setTodo hne _)
        refine ⟨?_, fun m hm => ?_⟩
        · rw [List.length_cons, engineRun, hstep, hend, performActions_setTodo]
          rfl
        · cases m with
          | zero => exact ⟨s.i2c.pos, rfl⟩
          | succ m =>
            obtain ⟨p, hm⟩ := hduring m (Nat.lt_of_succ_lt_succ hm)
            exact ⟨p, by rw [engineRun, hstep, hm, hi]⟩

theorem engineRun_procedure {s : State} (hb : s.i2c.busy = true) :
    engineRun (pendingActions s).length s = finishStage (procedureEnd s) := by
  obtain ⟨hend, -⟩ := engineRun_pending hb rfl
  exact hend

theorem engineRun_add (m n : Nat) (s : State) : engineRun (m + n) s = engineRun n (engineRun m s) := by
  induction m generalizing s with
  | zero => rw [Nat.zero_add, engineRun]
  | succ m ih => rw [Nat.succ_add, engineRun, engineRun, ih]

/-- However long it runs, the engine leaves everything outside it alone. -/
theorem engineRun_sameOutside (n : Nat) (s : State) : sameOutsideEngine s (engineRun n s) := by
  induction n generalizing s with
  | zero => exact ⟨rfl, rfl, rfl, rfl, rfl, rfl, rfl⟩
  | succ n ih =>
    obtain ⟨hcfg, hchans, htick, hdue, hrdata, hfaults, hagenda⟩ := ih (engineStep s)
    obtain ⟨hcfg', hchans', htick', hdue', hrdata', hfaults', hagenda'⟩ := engineStep_frame s
    exact ⟨hcfg.trans hcfg', hchans.trans hchans', htick.trans htick', hdue.trans hdue', hrdata.trans hrdata',
      hfaults.trans hfaults', hagenda.trans hagenda'⟩

/-! ### The two byte procedures (R150, R152) -/

/-- writeByte takes one sample (R150). -/
theorem sampledLevels_writeByteSeq (v : Byte) (s : State) : ∃ r, sampledLevels (writeByteSeq v) s = [r] := ⟨_, rfl⟩

theorem actionShapes_writeByteSeq (c : Config) (v : Byte) (r : Bool) :
    actionShapes c (writeByteSeq v) [r] = writeByteTrace c v r := rfl

/-- readByte takes eight samples (R152). -/
theorem sampledLevels_readByteSeq (a : Bool) (s : State) :
    ∃ b7 b6 b5 b4 b3 b2 b1 b0, sampledLevels (readByteSeq a) s = [b7, b6, b5, b4, b3, b2, b1, b0] :=
  ⟨_, _, _, _, _, _, _, _, rfl⟩

/-- A shift moves each bit up by one and takes the sample as bit 0 (R152). -/
theorem getLsbD_shiftIn (x : Byte) (b : Bool) {j : Nat} (hj : j < 8) :
    (shiftIn x b).getLsbD j = if j = 0 then b else x.getLsbD (j - 1) := by
  simp only [shiftIn, BitVec.getLsbD_or, BitVec.getLsbD_shiftLeft, BitVec.getLsbD_setWidth, BitVec.getLsbD_ofBool]
  by_cases h : j = 0
  · simp [h]
  · have hpos : ¬ j < 1 := by omega
    simp [h, hj, hpos]

/-- Samples shifted in from 0 stand in the byte with the last at bit 0. -/
theorem getLsbD_foldl_shiftIn (levels : List Bool) {j : Nat} (hj : j < 8) :
    (levels.foldl shiftIn 0).getLsbD j = levels.reverse.getD j false := by
  induction levels using List.reverseRecOn generalizing j with
  | nil => simp
  | append_singleton levels b ih =>
    rw [List.foldl_append, List.foldl_cons, List.foldl_nil, getLsbD_shiftIn _ _ hj, List.reverse_append]
    cases j with
    | zero => rfl
    | succ j => exact ih (by omega)

/-- The eight samples of readByte make the byte whose bits its trace shows, the first sample bit 7 (R152). -/
theorem actionShapes_readByteSeq (c : Config) (a b7 b6 b5 b4 b3 b2 b1 b0 : Bool) :
    actionShapes c (readByteSeq a) [b7, b6, b5, b4, b3, b2, b1, b0] =
      readByteTrace c ([b7, b6, b5, b4, b3, b2, b1, b0].foldl shiftIn 0) a := by
  have bit {j : Nat} := getLsbD_foldl_shiftIn [b7, b6, b5, b4, b3, b2, b1, b0] (j := j)
  simp only [readByteTrace, bit, Nat.reduceLT]
  rfl

theorem stageSamples_frameRecv (levels : List Bool) (j : Nat) (x : Byte) :
    stageSamples levels (.frameRecv j x) = .frameRecv j (levels.foldl shiftIn x) := by
  induction levels generalizing x with
  | nil => rfl
  | cons b rest ih => exact ih (shiftIn x b)

end Sys2Proof.Machine
end

section
/-! PROOF. The frames (42_i2c_frames.md R170 to R176): the procedures a frame runs through, each from its first line action
to the next procedure, and the two loops over the data bytes. -/

namespace Sys2Proof.Machine

open Sys2Proof Host

/-! ### Runs inside a frame -/

/-- `n` engine steps lead from `s` to `u` and perform the line actions `tr`, with BUSY 1 and RESULT 0 before the last. -/
structure FrameRun (s u : State) (n : Nat) (tr : List Shape) : Prop where
  run : engineRun n s = u
  during : ∀ m < n, (engineRun m s).i2c.busy = true ∧ (engineRun m s).i2c.result = false
  trace : shapes u = shapes s ++ tr

section Run
variable {s t u : State} {m n : Nat} {tr tr' : List Shape}

theorem FrameRun.outside (h : FrameRun s u n tr) : sameOutsideEngine s u :=
  h.run ▸ engineRun_sameOutside n s

theorem FrameRun.cfg_eq (h : FrameRun s u n tr) : u.cfg = s.cfg := by
  obtain ⟨hcfg, -⟩ := h.outside
  exact hcfg

theorem FrameRun.trans (h : FrameRun s t m tr) (h' : FrameRun t u n tr') : FrameRun s u (m + n) (tr ++ tr') where
  run := by rw [engineRun_add, h.run, h'.run]
  during i hi := by
    by_cases hlt : i < m
    · exact h.during i hlt
    · obtain ⟨j, rfl⟩ := Nat.exists_eq_add_of_le (Nat.le_of_not_lt hlt)
      rw [engineRun_add, h.run]
      exact h'.during j (by omega)
  trace := by rw [h'.trace, h.trace, List.append_assoc]

end Run

/-- A frame in force stands at the start of the procedure of stage `st`. -/
structure AtStage (s : State) (st : Stage) : Prop where
  busy : s.i2c.busy = true
  result : s.i2c.result = false
  pos : s.i2c.pos = ⟨st, []⟩

section Stage
variable {s u : State} {st : Stage}

/-- A frame goes on at another stage when BUSY and RESULT are kept. -/
theorem AtStage.enter (h : AtStage s st) {st' : Stage} {a : Bool} {x : BitVec 9} {b : Byte}
    (hu : u.i2c = { s.i2c with ack := a, xcnt := x, rxbyte := b, pos := ⟨st', []⟩ }) : AtStage u st' :=
  ⟨by rw [hu]; exact h.busy, by rw [hu]; exact h.result, by rw [hu]⟩

theorem AtStage.pending (h : AtStage s st) : pendingActions s = stageActions s st := pendingActions_of_pos h.pos

/-- A procedure of a frame runs to its end, and its local has the samples. -/
theorem AtStage.run (h : AtStage s st) {levels : List Bool} (hl : sampledLevels (stageActions s st) s = levels) :
    FrameRun s (finishStage (procedureEnd s)) (stageActions s st).length (actionShapes s.cfg (stageActions s st) levels) ∧
      (procedureEnd s).i2c = { s.i2c with pos := ⟨stageSamples levels st, []⟩ } := by
  subst hl
  rw [← h.pending]
  refine ⟨⟨engineRun_procedure h.busy, fun m hm => ?_, shapes_finishStage_procedureEnd s⟩, ?_⟩
  · obtain ⟨-, hduring⟩ := engineRun_pending h.busy rfl
    obtain ⟨p, hp⟩ := hduring m hm
    rw [hp]
    exact ⟨h.busy, h.result⟩
  · rw [procedureEnd_i2c, h.pos]

end Stage

/-! ### What the pseudocode puts after a procedure of a frame (R170 to R175) -/

section Finish
variable {s : State}

theorem finishStage_of_frameStart (h : s.i2c.pos.stage = .frameStart) :
    finishStage s = enterStage (.frameAddr false) s := by
  rw [finishStage, h]

theorem finishStage_of_frameAddr {r : Bool} (h : s.i2c.pos.stage = .frameAddr r) :
    finishStage s = enterStage (if r then .frameAbort else byteStage s 0) (setAck r s) := by
  rw [finishStage, h]

theorem finishStage_of_frameSend {j : Nat} {r : Bool} (h : s.i2c.pos.stage = .frameSend j r) :
    finishStage s = if r then enterStage .frameAbort (setAck r s)
      else enterStage (byteStage s (j + 1)) (setXcnt (j + 1) (setAck r s)) := by
  rw [finishStage, h]

theorem finishStage_of_frameRecv {j : Nat} {x : Byte} (h : s.i2c.pos.stage = .frameRecv j x) :
    finishStage s = enterStage (byteStage s (j + 1)) (setXcnt (j + 1) (setEntry j x (setRxbyte x s))) := by
  rw [finishStage, h]

theorem finishStage_of_frameEnd (h : s.i2c.pos.stage = .frameEnd) :
    finishStage s = endCommand { s with i2c := { s.i2c with result := true } } := by
  rw [finishStage, h]

theorem finishStage_of_frameAbort (h : s.i2c.pos.stage = .frameAbort) : finishStage s = endCommand s := by
  rw [finishStage, h]

/-- Which byte comes next is read from CUR alone. -/
theorem byteStage_congr {t : State} (h : t.i2c.cur = s.i2c.cur) (j : Nat) : byteStage t j = byteStage s j := by
  have hlen : curLen t = curLen s := by rw [curLen, h, curLen]
  have hread : curIsRead t = curIsRead s := by rw [curIsRead, h, curIsRead]
  rw [byteStage, byteStage, hlen, hread]

theorem byteStage_of_send {j : Nat} (hlt : j < curLen s) (hread : curIsRead s = false) :
    byteStage s j = .frameSend j false := by
  rw [byteStage, if_pos hlt, hread]
  rfl

theorem byteStage_of_recv {j : Nat} (hlt : j < curLen s) (hread : curIsRead s = true) :
    byteStage s j = .frameRecv j 0 := by
  rw [byteStage, if_pos hlt, if_pos hread]

theorem byteStage_of_end {j : Nat} (hle : curLen s ≤ j) : byteStage s j = .frameEnd := by
  rw [byteStage, if_neg (Nat.not_lt.2 hle)]

end Finish

/-! ### The procedures of a frame -/

section Procedures
variable {s : State}

/-- start_seq, and the address byte comes next (R172, R175). -/
theorem AtStage.run_start (h : AtStage s .frameStart) :
    ∃ u, FrameRun s u 2 (startTrace s.cfg) ∧ u.buf = s.buf ∧ u.i2c = { s.i2c with pos := ⟨.frameAddr false, []⟩ } := by
  obtain ⟨hrun, hend⟩ := h.run rfl
  rw [finishStage_of_frameStart (by rw [hend]; rfl)] at hrun
  exact ⟨_, hrun, by rw [enterStage_buf, procedureEnd_buf], by rw [enterStage_i2c, hend]⟩

/-- end_frame(HOLD), with which the frame has succeeded (R171). -/
theorem AtStage.run_end (h : AtStage s .frameEnd) :
    ∃ u p, FrameRun s u 3 (endTrace s.cfg (fieldHold s.i2c.cur)) ∧ u.buf = s.buf ∧
      u.i2c = { s.i2c with busy := false, result := true, pos := p } := by
  obtain ⟨hlevels, hlength, hshapes⟩ : sampledLevels (stageActions s .frameEnd) s = [] ∧
      (stageActions s .frameEnd).length = 3 ∧
      actionShapes s.cfg (stageActions s .frameEnd) [] = endTrace s.cfg (fieldHold s.i2c.cur) := by
    simp only [stageActions, endTrace]
    split <;> exact ⟨rfl, rfl, rfl⟩
  obtain ⟨hrun, hend⟩ := h.run hlevels
  rw [finishStage_of_frameEnd (by rw [hend]; rfl), hlength, hshapes] at hrun
  exact ⟨_, _, hrun, by rw [endCommand_buf]; exact procedureEnd_buf s, by rw [endCommand_i2c, hend]⟩

/-- abort_frame: stop_seq, with RESULT left 0 (R170). -/
theorem AtStage.run_abort (h : AtStage s .frameAbort) :
    ∃ u p, FrameRun s u 3 (stopTrace s.cfg) ∧ u.buf = s.buf ∧ u.i2c = { s.i2c with busy := false, pos := p } := by
  obtain ⟨hrun, hend⟩ := h.run rfl
  rw [finishStage_of_frameAbort (by rw [hend]; rfl)] at hrun
  exact ⟨_, _, hrun, by rw [endCommand_buf, procedureEnd_buf], by rw [endCommand_i2c, hend]⟩

/-- The frame stands at the byte it sends after `k` others: the address byte first, then the data bytes (R172, R175). -/
inductive Sends (s : State) : Nat → Byte → Prop
  | addr (h : AtStage s (.frameAddr false)) : Sends s 0 (addrByte (fieldAddr s.i2c.cur) (curIsRead s))
  | data (j : Nat) (h : AtStage s (.frameSend j false)) : Sends s (j + 1) (Memory.read s.buf j)

theorem Sends.atStage {k : Nat} {v : Byte} (h : Sends s k v) : ∃ st, AtStage s st := by
  cases h with
  | addr h => exact ⟨_, h⟩
  | data j h => exact ⟨_, h⟩

/-- A byte sent: acknowledged, and data byte `k` or the frame's end comes next; or not, and abort_frame does. -/
theorem Sends.run {k : Nat} {v : Byte} (h : Sends s k v) (hx : s.i2c.xcnt = BitVec.ofNat 9 (k - 1)) :
    ∃ u r, FrameRun s u 30 (writeByteTrace s.cfg v r) ∧ u.buf = s.buf ∧
      u.i2c = if r then { s.i2c with ack := false, pos := ⟨.frameAbort, []⟩ }
        else { s.i2c with ack := true, xcnt := BitVec.ofNat 9 k, pos := ⟨byteStage s k, []⟩ } := by
  cases h with
  | addr h =>
    obtain ⟨r, hlevels⟩ := sampledLevels_writeByteSeq (addrByte (fieldAddr s.i2c.cur) (curIsRead s)) s
    obtain ⟨hrun, hend⟩ := h.run hlevels
    rw [finishStage_of_frameAddr (r := r) (by rw [hend]; rfl), stageActions, actionShapes_writeByteSeq] at hrun
    refine ⟨_, r, hrun, by simp, ?_⟩
    have hx0 : BitVec.ofNat 9 0 = s.i2c.xcnt := hx.symm
    rw [enterStage_i2c, setAck_i2c, byteStage_congr (s := s) (by rw [hend]), hend, hx0]
    cases r <;> rfl
  | data j h =>
    obtain ⟨r, hlevels⟩ := sampledLevels_writeByteSeq (Memory.read s.buf j) s
    obtain ⟨hrun, hend⟩ := h.run hlevels
    rw [finishStage_of_frameSend (j := j) (r := r) (by rw [hend]; rfl), stageActions, actionShapes_writeByteSeq] at hrun
    refine ⟨_, r, hrun, by split <;> simp, ?_⟩
    cases r
    · simp [byteStage_congr (s := s) (t := procedureEnd s) (by rw [hend]), hend]
    · simp [hend]

/-- A byte received: it is in I2C_BUF[j] and RXBYTE, and data byte `j + 1` or the frame's end comes next (R175). -/
theorem AtStage.run_recv {j : Nat} (h : AtStage s (.frameRecv j 0)) :
    ∃ u x, FrameRun s u 29 (readByteTrace s.cfg x (decide (j + 1 < curLen s))) ∧ u.buf = Memory.write s.buf j x ∧
      u.i2c = { s.i2c with rxbyte := x, xcnt := BitVec.ofNat 9 (j + 1), pos := ⟨byteStage s (j + 1), []⟩ } := by
  obtain ⟨b7, b6, b5, b4, b3, b2, b1, b0, hlevels⟩ := sampledLevels_readByteSeq (decide (j + 1 < curLen s)) s
  obtain ⟨hrun, hend⟩ := h.run hlevels
  rw [stageSamples_frameRecv] at hend
  rw [finishStage_of_frameRecv (j := j) (by rw [hend]), stageActions, actionShapes_readByteSeq] at hrun
  refine ⟨_, _, hrun, by simp, ?_⟩
  simp [byteStage_congr (s := s) (t := procedureEnd s) (by rw [hend]), hend]

/-- The next byte to send, acknowledged; or not, and then stop_seq, with which the frame has failed (R170). -/
theorem Sends.run_or_fail {k : Nat} {v : Byte} (h : Sends s k v) (hx : s.i2c.xcnt = BitVec.ofNat 9 (k - 1)) :
    (∃ u, FrameRun s u 30 (writeByteTrace s.cfg v false) ∧ u.buf = s.buf ∧
      u.i2c = { s.i2c with ack := true, xcnt := BitVec.ofNat 9 k, pos := ⟨byteStage s k, []⟩ }) ∨
    (∃ u p, FrameRun s u 33 (writeByteTrace s.cfg v true ++ stopTrace s.cfg) ∧ u.buf = s.buf ∧
      u.i2c = { s.i2c with busy := false, ack := false, pos := p }) := by
  obtain ⟨st, hst⟩ := h.atStage
  obtain ⟨t, r, hrun, hbuf, hi⟩ := h.run hx
  cases r with
  | false => exact .inl ⟨t, hrun, hbuf, hi⟩
  | true =>
    rw [if_pos rfl] at hi
    obtain ⟨u, p, hstop, hbuf', hi'⟩ := (hst.enter hi : AtStage t .frameAbort).run_abort
    rw [hrun.cfg_eq] at hstop
    exact .inr ⟨u, p, hrun.trans hstop, hbuf'.trans hbuf, by rw [hi', hi]⟩

end Procedures

/-! ### WRFRAME (R172) -/

/-- How the frame ends that sends `bytes` after `k` bytes acknowledged, the address byte among them. -/
inductive SendOutcome (s u : State) (k : Nat) (bytes : List Byte) (n : Nat) : Prop
  /-- every byte acknowledged -/
  | complete (p : Pos)
      (run : FrameRun s u n (ackedBytesTrace s.cfg bytes ++ endTrace s.cfg (fieldHold s.i2c.cur)))
      (steps : n = 30 * bytes.length + 3)
      (regs : u.i2c = { s.i2c with
        busy := false, result := true, ack := true, xcnt := BitVec.ofNat 9 (k + bytes.length - 1), pos := p })
  /-- byte `m` not acknowledged -/
  | failed (p : Pos) (m : Nat) (v : Byte) (byte : bytes[m]? = some v)
      (run : FrameRun s u n
        (ackedBytesTrace s.cfg (bytes.take m) ++ writeByteTrace s.cfg v true ++ stopTrace s.cfg))
      (steps : n = 30 * (m + 1) + 3)
      (regs : u.i2c = { s.i2c with
        busy := false, result := false, ack := false, xcnt := BitVec.ofNat 9 (k + m - 1), pos := p })

/-- One acknowledged byte before the others. -/
theorem SendOutcome.cons {s t u : State} {k n : Nat} {v : Byte} {bytes : List Byte} {st : Stage}
    (run : FrameRun s t 30 (writeByteTrace s.cfg v false))
    (regs : t.i2c = { s.i2c with ack := true, xcnt := BitVec.ofNat 9 k, pos := ⟨st, []⟩ })
    (h : SendOutcome t u (k + 1) bytes n) : SendOutcome s u k (v :: bytes) (30 + n) := by
  have hcur : t.i2c.cur = s.i2c.cur := by rw [regs]
  cases h with
  | complete p run' steps regs' =>
    rw [run.cfg_eq, hcur] at run'
    refine .complete p ?_ (by rw [List.length_cons]; omega) ?_
    · rw [ackedBytesTrace, List.flatMap_cons, List.append_assoc]
      exact run.trans run'
    · rw [regs', regs, List.length_cons, show k + 1 + bytes.length = k + (bytes.length + 1) by omega]
  | failed p m w byte run' steps regs' =>
    rw [run.cfg_eq] at run'
    refine .failed p (m + 1) w byte ?_ (by omega) ?_
    · rw [List.take_succ_cons, ackedBytesTrace, List.flatMap_cons, List.append_assoc, List.append_assoc,
        ← List.append_assoc (List.flatMap _ _)]
      exact run.trans run'
    · rw [regs', regs, show k + 1 + m = k + (m + 1) by omega]

/-- The byte to send next is sent, and if it is acknowledged the frame goes on. -/
theorem Sends.outcome {s : State} {k : Nat} {v : Byte} {bytes : List Byte} (h : Sends s k v)
    (hx : s.i2c.xcnt = BitVec.ofNat 9 (k - 1))
    (hrest : ∀ t, t.buf = s.buf →
      t.i2c = { s.i2c with ack := true, xcnt := BitVec.ofNat 9 k, pos := ⟨byteStage s k, []⟩ } →
      ∃ u n, u.buf = t.buf ∧ SendOutcome t u (k + 1) bytes n) :
    ∃ u n, u.buf = s.buf ∧ SendOutcome s u k (v :: bytes) n := by
  rcases h.run_or_fail hx with ⟨t, hrun, hbuf, hi⟩ | ⟨u, p, hrun, hbuf, hi⟩
  · obtain ⟨u, n, hbuf', hout⟩ := hrest t hbuf hi
    exact ⟨u, 30 + n, hbuf'.trans hbuf, .cons hrun hi hout⟩
  · obtain ⟨st, hst⟩ := h.atStage
    exact ⟨u, 33, hbuf, .failed p 0 v rfl hrun rfl (by simp [hi, hx, hst.result])⟩

/-- The data bytes from byte `k` on, to the end of the frame (R172). -/
theorem sendData_outcome {d k : Nat} {s : State} (hstage : AtStage s (byteStage s k)) (hread : curIsRead s = false)
    (hlen : k + d = curLen s) (hack : s.i2c.ack = true) (hx : s.i2c.xcnt = BitVec.ofNat 9 k) :
    ∃ u n, u.buf = s.buf ∧ SendOutcome s u (k + 1) ((List.range' k d).map (Memory.read s.buf)) n := by
  induction d generalizing k s with
  | zero =>
    rw [byteStage_of_end (by omega)] at hstage
    obtain ⟨u, p, hrun, hbuf, hi⟩ := hstage.run_end
    exact ⟨u, 3, hbuf, .complete p hrun rfl (by simp [hi, hack, hx])⟩
  | succ d ih =>
    rw [byteStage_of_send (by omega) hread] at hstage
    rw [List.range'_succ, List.map_cons]
    refine (Sends.data k hstage).outcome hx fun t hbuf hi => ?_
    have hcur : t.i2c.cur = s.i2c.cur := by rw [hi]
    have hnext : AtStage t (byteStage t (k + 1)) := byteStage_congr hcur (k + 1) ▸ hstage.enter hi
    rw [← hbuf]
    exact ih hnext (by rw [curIsRead, hcur]; exact hread) (by rw [curLen, hcur, ← curLen]; omega) (by rw [hi])
      (by rw [hi])

/-- An accepted frame performs start_seq and stands at its address byte, with ERR, RESULT and XCNT cleared (R172, R175). -/
theorem acceptFrame_run (w : Word) (s : State) :
    ∃ t, FrameRun (acceptFrame w s) t 2 (startTrace s.cfg) ∧ AtStage t (.frameAddr false) ∧ t.buf = s.buf ∧
      t.i2c = { s.i2c with cur := w, busy := true, err := .ok, result := false, xcnt := 0,
                           pos := ⟨.frameAddr false, []⟩ } := by
  have hstart : AtStage (acceptFrame w s) .frameStart := ⟨rfl, rfl, rfl⟩
  obtain ⟨t, hrun, hbuf, hi⟩ := hstart.run_start
  exact ⟨t, hrun, hstart.enter hi, hbuf, hi⟩

/-- From the address byte of a WRFRAME word to the frame's end (R172, R173). -/
theorem wrframe_outcome {t : State} {len : BitVec 9} {addr : BitVec 7} {h : Bool} (hstage : AtStage t (.frameAddr false))
    (hcur : t.i2c.cur = instrWord (.wrframe len addr h)) (hx : t.i2c.xcnt = 0) :
    ∃ u n, u.buf = t.buf ∧ SendOutcome t u 0 (writeFrameBytes t len addr) n := by
  have haddr : Sends t 0 (addrByte addr false) := by
    simpa [curIsRead, hcur] using Sends.addr hstage
  rw [writeFrameBytes, List.range_eq_range']
  refine haddr.outcome hx fun t' hbuf hi => ?_
  have hcur' : t'.i2c.cur = t.i2c.cur := by rw [hi]
  rw [← hbuf]
  refine sendData_outcome (byteStage_congr hcur' 0 ▸ hstage.enter hi) ?_ ?_ (by rw [hi]) (by rw [hi])
  · simp [curIsRead, hcur', hcur]
  · simp [curLen, hcur', hcur]

theorem writeFrameBytes_length (s : State) (len : BitVec 9) (addr : BitVec 7) :
    (writeFrameBytes s len addr).length = len.toNat + 1 := by
  rw [writeFrameBytes, List.length_cons, List.length_map, List.length_range]

/-- Settles O22: start_seq, the address byte, and the data bytes until one is not acknowledged. -/
theorem wrframeSendsTheFrame : Obligations.WrframeSendsTheFrame := fun s len addr h hb hlen => by
  refine ⟨acceptFrame (instrWord (.wrframe len addr h)) s, exec_accepted rfl hb (decide_eq_true hlen), rfl, ?_⟩
  obtain ⟨t, hstart, hstage, hbuf, hi⟩ := acceptFrame_run (instrWord (.wrframe len addr h)) s
  have hcfg : t.cfg = s.cfg := hstart.cfg_eq
  have hcur : t.i2c.cur = instrWord (.wrframe len addr h) := by rw [hi]
  have hbytes : writeFrameBytes t len addr = writeFrameBytes s len addr := by rw [writeFrameBytes, hbuf, writeFrameBytes]
  obtain ⟨u, n, hbuf', hout⟩ := wrframe_outcome hstage hcur (by rw [hi])
  rw [hbytes] at hout
  have hlength := writeFrameBytes_length s len addr
  cases hout with
  | complete p hrun hn hi' =>
    rw [hcfg, hcur, fieldHold_wrframe] at hrun
    have hall := hstart.trans hrun
    have htrace : shapes u = shapes s ++ _ := hall.trace
    refine ⟨2 + n, hall.during, ?_⟩
    rw [hall.run]
    refine ⟨by rw [hi'], by rw [hi', hi], by rw [hi', hi], hbuf'.trans hbuf, hall.outside,
      .inl ⟨by omega, ?_, by rw [hi'], by rw [hi'], ?_⟩⟩
    · simp only [htrace, List.append_assoc]
    · simp [hi', hlength]
  | failed p m v hv hrun hn hi' =>
    rw [hcfg] at hrun
    have hall := hstart.trans hrun
    have htrace : shapes u = shapes s ++ _ := hall.trace
    obtain ⟨hm, -⟩ := List.getElem?_eq_some_iff.1 hv
    refine ⟨2 + n, hall.during, ?_⟩
    rw [hall.run]
    refine ⟨by rw [hi'], by rw [hi', hi], by rw [hi', hi], hbuf'.trans hbuf, hall.outside,
      .inr ⟨m, v, by omega, hv, by omega, ?_, by rw [hi'], by rw [hi'], ?_⟩⟩
    · simp only [htrace, List.append_assoc]
    · rw [hi', BitVec.toNat_ofNat]
      omega

/-! ### RDFRAME (R175, R176) -/

/-- The frame buffer with the bytes `xs` written from entry `j` on (`read_storeBytes`). -/
def storeBytes (m : Memory) (j : Nat) : List Byte → Memory
  | [] => m
  | x :: xs => storeBytes (Memory.write m j x) (j + 1) xs

theorem read_storeBytes {m : Memory} (hm : Memory.wf m = true) (j : Nat) (xs : List Byte) (i : Nat) :
    Memory.read (storeBytes m j xs) i = if j ≤ i then xs[i - j]?.getD (Memory.read m i) else Memory.read m i := by
  induction xs generalizing m j with
  | nil => simp [storeBytes]
  | cons x xs ih =>
    rw [storeBytes, ih (Memory.wf_write hm j x)]
    rcases Nat.lt_trichotomy i j with hlt | rfl | hgt
    · rw [if_neg (by omega), if_neg (by omega), Memory.read_write_other m x hlt.ne]
    · rw [if_neg (by omega), if_pos le_rfl, Memory.read_write_same hm, Nat.sub_self]
      rfl
    · rw [if_pos (by omega), if_pos (by omega), Memory.read_write_other m x hgt.ne',
        show i - j = i - (j + 1) + 1 by omega, List.getElem?_cons_succ]

theorem read_storeBytes_zero {m : Memory} (hm : Memory.wf m = true) (xs : List Byte) (i : Nat) :
    Memory.read (storeBytes m 0 xs) i = if h : i < xs.length then xs[i] else Memory.read m i := by
  rw [read_storeBytes hm, if_pos (Nat.zero_le i), Nat.sub_zero]
  by_cases h : i < xs.length
  · rw [dif_pos h, List.getElem?_eq_getElem h, Option.getD_some]
  · rw [dif_neg h, List.getElem?_eq_none (Nat.le_of_not_lt h), Option.getD_none]

theorem readBytesTrace_cons (c : Config) (x : Byte) (xs : List Byte) :
    readBytesTrace c (x :: xs) = readByteTrace c x (decide (0 < xs.length)) ++ readBytesTrace c xs := by
  cases xs with
  | nil => exact (List.append_nil _).symm
  | cons y rest => rfl

/-- The data bytes from byte `j` on, to the end of the frame (R175). -/
theorem recvData_run {d j : Nat} {s : State} (hstage : AtStage s (byteStage s j)) (hread : curIsRead s = true)
    (hlen : j + d = curLen s) (hx : s.i2c.xcnt = BitVec.ofNat 9 j) :
    ∃ u p xs, xs.length = d ∧ u.buf = storeBytes s.buf j xs ∧
      FrameRun s u (29 * d + 3) (readBytesTrace s.cfg xs ++ endTrace s.cfg (fieldHold s.i2c.cur)) ∧
      u.i2c = { s.i2c with busy := false, result := true, xcnt := BitVec.ofNat 9 (j + d),
                           rxbyte := xs.getLastD s.i2c.rxbyte, pos := p } := by
  induction d generalizing j s with
  | zero =>
    rw [byteStage_of_end (by omega)] at hstage
    obtain ⟨u, p, hrun, hbuf, hi⟩ := hstage.run_end
    exact ⟨u, p, [], rfl, hbuf, hrun, by rw [hi, Nat.add_zero, ← hx]; rfl⟩
  | succ d ih =>
    rw [byteStage_of_recv (by omega) hread] at hstage
    obtain ⟨t, x, hrun, hbuf, hi⟩ := hstage.run_recv
    have hcur : t.i2c.cur = s.i2c.cur := by rw [hi]
    have hnext : AtStage t (byteStage t (j + 1)) := byteStage_congr hcur (j + 1) ▸ hstage.enter hi
    obtain ⟨u, p, xs, hcount, hbuf', hrun', hi'⟩ := ih hnext (by rw [curIsRead, hcur]; exact hread)
      (by rw [curLen, hcur, ← curLen]; omega) (by rw [hi])
    have hmore : decide (j + 1 < curLen s) = decide (0 < xs.length) := decide_eq_decide.2 (by omega)
    rw [hrun.cfg_eq, hcur] at hrun'
    rw [hmore] at hrun
    refine ⟨u, p, x :: xs, by rw [List.length_cons, hcount], by rw [hbuf', hbuf, storeBytes], ?_, ?_⟩
    · rw [readBytesTrace_cons, List.append_assoc, show 29 * (d + 1) + 3 = 29 + (29 * d + 3) by omega]
      exact hrun.trans hrun'
    · rw [hi', hi, List.getLastD_cons, show j + 1 + d = j + (d + 1) by omega]

/-- From the address byte of an RDFRAME word to the frame's end: every byte read, or the address not acknowledged
(R175). -/
theorem rdframe_run {t : State} {len : BitVec 9} {addr : BitVec 7} {h : Bool} (hstage : AtStage t (.frameAddr false))
    (hcur : t.i2c.cur = instrWord (.rdframe len addr h)) (hx : t.i2c.xcnt = 0) :
    (∃ u p xs, xs.length = len.toNat ∧ u.buf = storeBytes t.buf 0 xs ∧
      FrameRun t u (30 + (29 * len.toNat + 3))
        (writeByteTrace t.cfg (addrByte addr true) false ++ (readBytesTrace t.cfg xs ++ endTrace t.cfg h)) ∧
      u.i2c = { t.i2c with busy := false, result := true, ack := true, xcnt := len,
                           rxbyte := xs.getLastD t.i2c.rxbyte, pos := p }) ∨
    ∃ u p, u.buf = t.buf ∧ FrameRun t u 33 (writeByteTrace t.cfg (addrByte addr true) true ++ stopTrace t.cfg) ∧
      u.i2c = { t.i2c with busy := false, ack := false, pos := p } := by
  have haddr : Sends t 0 (addrByte addr true) := by
    simpa [curIsRead, hcur] using Sends.addr hstage
  rcases haddr.run_or_fail hx with ⟨t', hbyte, hbuf, hi⟩ | ⟨u, p, hfail, hbuf, hi⟩
  · have hcur' : t'.i2c.cur = t.i2c.cur := by rw [hi]
    obtain ⟨u, p, xs, hcount, hbuf', hdata, hi'⟩ := recvData_run (d := len.toNat) (s := t') (j := 0)
      (byteStage_congr hcur' 0 ▸ hstage.enter hi) (by simp [curIsRead, hcur', hcur]) (by simp [curLen, hcur', hcur])
      (by rw [hi])
    rw [hbyte.cfg_eq, hcur', hcur, fieldHold_rdframe] at hdata
    exact .inl ⟨u, p, xs, hcount, by rw [hbuf', hbuf], hbyte.trans hdata, by simp [hi', hi]⟩
  · exact .inr ⟨u, p, hbuf, hfail, hi⟩

/-- Settles O23: start_seq, the address byte, and if it is acknowledged the data bytes. -/
theorem rdframeReadsTheFrame : Obligations.RdframeReadsTheFrame := fun s len addr h hwf hb hpos hlen => by
  refine ⟨acceptFrame (instrWord (.rdframe len addr h)) s, exec_accepted rfl hb (decide_eq_true ⟨hpos, hlen⟩), rfl, ?_⟩
  obtain ⟨t, hstart, hstage, hbuf, hi⟩ := acceptFrame_run (instrWord (.rdframe len addr h)) s
  have hcfg : t.cfg = s.cfg := hstart.cfg_eq
  have hrun := rdframe_run hstage (by rw [hi]) (by rw [hi])
  rw [hcfg] at hrun
  obtain ⟨u, p, xs, hcount, hbuf', hrun, hi'⟩ | ⟨u, p, hbuf', hrun, hi'⟩ := hrun
  · have hall := hstart.trans hrun
    have htrace : shapes u = shapes s ++ _ := hall.trace
    have hlast : some (xs.getLastD t.i2c.rxbyte) = xs.getLast? := by
      cases xs with
      | nil => rw [List.length_nil] at hcount; omega
      | cons x xs => rw [List.getLastD_cons, List.getLast?_cons, List.getLastD_eq_getLast?]
    refine ⟨_, hall.during, ?_⟩
    rw [hall.run]
    refine ⟨by rw [hi'], by rw [hi', hi], hall.outside,
      .inl ⟨xs, hcount, by omega, ?_, by rw [hi'], by rw [hi'], by rw [hi'], by rw [hi', ← hlast], fun i => ?_⟩⟩
    · simp only [htrace, List.append_assoc]
    · rw [hbuf', hbuf, read_storeBytes_zero hwf]
  · have hall := hstart.trans hrun
    have htrace : shapes u = shapes s ++ _ := hall.trace
    refine ⟨_, hall.during, ?_⟩
    rw [hall.run]
    refine ⟨by rw [hi'], by rw [hi', hi], hall.outside,
      .inr ⟨by omega, ?_, by rw [hi', hi], by rw [hi'], by rw [hi', hi], by rw [hi', hi], hbuf'.trans hbuf⟩⟩
    simp only [htrace, List.append_assoc]

end Sys2Proof.Machine
end

section
/-! PROOF. START, RSTART and STOP (40_i2c_conditions.md R130 to R134): accepted, they perform one procedure and end; and the
levels that procedure leaves on the two lines. -/

namespace Sys2Proof.Machine

open Sys2Proof Host

/-! ### The three commands and their procedures (R130 to R132) -/

/-- A command that is one condition on the bus: its stage, and the line actions of its procedure. -/
inductive ConditionCommand : Instr → Stage → List BusAction → Prop
  | start : ConditionCommand .start .start startSeq
  | rstart : ConditionCommand .rstart .rstart rstartSeq
  | stop : ConditionCommand .stop .stop stopSeq

section Command
variable {i : Instr} {st : Stage} {acts : List BusAction} {s : State}

theorem ConditionCommand.exec_eq (h : ConditionCommand i st acts) (hb : s.i2c.busy = false) :
    exec i s = .next (acceptI2c (instrWord i) st s) := by
  cases h with
  | start => exact exec_accepted rfl hb rfl
  | rstart => exact exec_accepted rfl hb rfl
  | stop => exact exec_accepted rfl hb rfl

/-- The stage of an accepted condition command performs its procedure. -/
theorem ConditionCommand.pending (h : ConditionCommand i st acts) (w : Word) (s : State) :
    pendingActions (acceptI2c w st s) = acts := by
  rw [pendingActions_of_pos rfl]
  cases h with
  | start => rfl
  | rstart => rfl
  | stop => rfl

/-- A condition command reads no line (R134). -/
theorem ConditionCommand.no_samples (h : ConditionCommand i st acts) (s : State) : sampledLevels acts s = [] := by
  cases h with
  | start => rfl
  | rstart => rfl
  | stop => rfl

theorem ConditionCommand.finishStage_eq (h : ConditionCommand i st acts) (hst : s.i2c.pos.stage = st) :
    finishStage s = endCommand s := by
  rw [finishStage, hst]
  cases h with
  | start => rfl
  | rstart => rfl
  | stop => rfl

/-- An accepted condition command performs its procedure and ends; of the engine's registers, its acceptance, BUSY and POS
are all that changed. -/
theorem ConditionCommand.run (h : ConditionCommand i st acts) (w : Word) (s : State) :
    ∃ u p, engineRun acts.length (acceptI2c w st s) = u ∧ shapes u = shapes s ++ actionShapes s.cfg acts [] ∧
      u.buf = s.buf ∧ u.i2c = { s.i2c with cur := w, busy := false, err := .ok, pos := p } := by
  have hacts := h.pending w s
  have hrun := engineRun_procedure (s := acceptI2c w st s) rfl
  have htrace := shapes_finishStage_procedureEnd (acceptI2c w st s)
  have hregs := procedureEnd_i2c (acceptI2c w st s)
  rw [hacts, h.no_samples] at htrace hregs
  rw [hacts] at hrun
  refine ⟨_, ⟨st, []⟩, hrun, htrace, ?_⟩
  rw [h.finishStage_eq (by rw [hregs]; rfl)]
  exact ⟨by rw [endCommand_buf, procedureEnd_buf, acceptI2c_buf], by rw [endCommand_i2c, hregs]; rfl⟩

end Command

/-- Settles O16: each command is accepted, its procedure runs with BUSY 1 up to its last action, and no sample is taken on
which anything could depend. -/
theorem conditionCommandsPerformTheirTraces : Obligations.ConditionCommandsPerformTheirTraces := by
  rintro s hb ⟨i, n, tr⟩ hp
  obtain ⟨st, acts, hcmd, rfl, rfl⟩ :
      ∃ st acts, ConditionCommand i st acts ∧ acts.length = n ∧ actionShapes s.cfg acts [] = tr := by
    simp only [List.mem_cons, List.not_mem_nil, or_false, Prod.mk.injEq] at hp
    obtain ⟨rfl, rfl, rfl⟩ | ⟨rfl, rfl, rfl⟩ | ⟨rfl, rfl, rfl⟩ := hp
    · exact ⟨_, _, .start, rfl, rfl⟩
    · exact ⟨_, _, .rstart, rfl, rfl⟩
    · exact ⟨_, _, .stop, rfl, rfl⟩
  refine ⟨acceptI2c (instrWord i) st s, hcmd.exec_eq hb, rfl, fun m hm => ?_, ?_⟩
  · obtain ⟨-, hduring⟩ := engineRun_pending (s := acceptI2c (instrWord i) st s) rfl (hcmd.pending _ s)
    obtain ⟨p, hregs⟩ := hduring m hm
    rw [hregs, acceptI2c_i2c]
  · have houtside : sameOutsideEngine s _ := engineRun_sameOutside acts.length (acceptI2c (instrWord i) st s)
    obtain ⟨u, p, rfl, htrace, hbuf, hregs⟩ := hcmd.run (instrWord i) s
    simp only [hregs, true_and]
    exact ⟨htrace, hbuf, houtside⟩

/-! ### The levels a procedure leaves (R133) -/

/-- The level the line actions last write to a wire (`lastWritten_performActions`). -/
def lastDriven (w : Wire) : List BusAction → Option Bool
  | [] => none
  | .drive w' v :: rest => (lastDriven w rest).or (if w' = w then some v else none)
  | .sample :: rest => lastDriven w rest

/-- The two wires of a covered configuration are different lines (R22). -/
theorem wireLine_injective {c : Config} (hc : c.wf = true) : Function.Injective (wireLine c) := by
  have hne : c.sda ≠ c.scl := fun h => by simp [Config.wf, h] at hc
  rintro (_ | _) (_ | _) h
  · rfl
  · exact absurd h hne
  · exact absurd h.symm hne
  · rfl

/-- A line action is the last write of a wire's line if it writes that wire; otherwise the last write before it is. -/
theorem lastWritten_performAction {s : State} (hc : s.cfg.wf = true) (w : Wire) (a : BusAction) :
    lastWritten .engine (wireLine s.cfg w) (performAction a s).trace =
      (lastDriven w [a]).or (lastWritten .engine (wireLine s.cfg w) s.trace) := by
  rw [performAction_trace]
  cases a with
  | drive w' v =>
    by_cases h : w' = w
    · simp [engineAction, writeAction, lastWritten, lastDriven, h]
    · have hline : wireLine s.cfg w' ≠ wireLine s.cfg w := (wireLine_injective hc).ne h
      simp [engineAction, writeAction, lastWritten, lastDriven, h, hline]
  | sample => simp [engineAction, lastWritten, lastDriven]

/-- After line actions, a wire's line was last written by the last of them that writes it. -/
theorem lastWritten_performActions {s : State} (hc : s.cfg.wf = true) (w : Wire) (acts : List BusAction) :
    lastWritten .engine (wireLine s.cfg w) (performActions acts s).trace =
      (lastDriven w acts).or (lastWritten .engine (wireLine s.cfg w) s.trace) := by
  induction acts generalizing s with
  | nil => rfl
  | cons a rest ih =>
    have ih := ih (s := performAction a s) (by rw [performAction_cfg]; exact hc)
    rw [performAction_cfg, lastWritten_performAction hc, ← Option.or_assoc] at ih
    rw [performActions, ih]
    cases a with
    | drive w' v => rfl
    | sample => rw [lastDriven, lastDriven, lastDriven, Option.or_none]

/-- A procedure that leaves both wires at one level has left both lines at it when it ends. -/
theorem levels_after_procedure {s : State} {acts : List BusAction} {v : Bool} (hb : s.i2c.busy = true)
    (hc : s.cfg.wf = true) (hp : pendingActions s = acts) (hv : ∀ w, lastDriven w acts = some v) :
    lastWritten .engine s.cfg.sda (engineRun acts.length s).trace = some v ∧
      lastWritten .engine s.cfg.scl (engineRun acts.length s).trace = some v := by
  have hlevel (w : Wire) : lastWritten .engine (wireLine s.cfg w) (engineRun acts.length s).trace = some v := by
    subst hp
    rw [engineRun_procedure hb, finishStage_trace, procedureEnd, setTodo_trace, lastWritten_performActions hc, hv,
      Option.some_or]
  exact ⟨hlevel .sda, hlevel .scl⟩

theorem lastDriven_startSeq (w : Wire) : lastDriven w startSeq = some false := by cases w <;> rfl

theorem lastDriven_rstartSeq (w : Wire) : lastDriven w rstartSeq = some false := by cases w <;> rfl

theorem lastDriven_stopSeq (w : Wire) : lastDriven w stopSeq = some true := by cases w <;> rfl

/-- Settles O17: each procedure drives both wires last to its level, in a command of its own or inside a frame. -/
theorem levelsAfterEachCondition : Obligations.LevelsAfterEachCondition := by
  refine ⟨?_, ?_⟩
  · rintro s hb hc ⟨i, n, v⟩ hp
    obtain ⟨st, acts, hcmd, rfl, hv⟩ :
        ∃ st acts, ConditionCommand i st acts ∧ acts.length = n ∧ ∀ w, lastDriven w acts = some v := by
      simp only [List.mem_cons, List.not_mem_nil, or_false, Prod.mk.injEq] at hp
      obtain ⟨rfl, rfl, rfl⟩ | ⟨rfl, rfl, rfl⟩ | ⟨rfl, rfl, rfl⟩ := hp
      · exact ⟨_, _, .start, rfl, lastDriven_startSeq⟩
      · exact ⟨_, _, .rstart, rfl, lastDriven_rstartSeq⟩
      · exact ⟨_, _, .stop, rfl, lastDriven_stopSeq⟩
    exact ⟨_, hcmd.exec_eq hb, levels_after_procedure (s := acceptI2c (instrWord i) st s) rfl hc (hcmd.pending _ s) hv⟩
  · rintro s hb hc htodo ⟨acts, v⟩ hp hacts
    have hpending : pendingActions s = acts := by rw [pendingActions, htodo]; exact hacts
    refine levels_after_procedure hb hc hpending ?_
    simp only [List.mem_cons, List.not_mem_nil, or_false, Prod.mk.injEq] at hp
    obtain ⟨rfl, rfl⟩ | ⟨rfl, rfl⟩ | ⟨rfl, rfl⟩ := hp
    · exact lastDriven_startSeq
    · exact lastDriven_rstartSeq
    · exact lastDriven_stopSeq

end Sys2Proof.Machine
end

section
/-! PROOF. The byte procedures as commands of their own (41_i2c_bytes.md R150 to R153): what the PortReads give the samples,
what the line actions count, and the runs of WRBYTE and RDBYTE. -/

namespace Sys2Proof.Machine

open Sys2Proof Host

/-! ### The PortReads of line actions (R20, R85) -/

theorem portNext_portIn (s : State) : (portNext s).portIn = s.portIn.tail := by
  unfold portNext
  split
  · next h => rw [h, List.tail_cons]
  · next h => rw [h, List.tail_nil]

theorem portValue_eq {s : State} {b : Byte} (h : s.portIn[0]? = some b) : portValue s = b := by
  unfold portValue
  split
  · next h' => simpa [h'] using h
  · next h' => simp [h'] at h

/-- A line action, of either kind, makes one PortRead. -/
theorem performAction_portIn (a : BusAction) (s : State) : (performAction a s).portIn = s.portIn.tail := by
  cases a with
  | drive w v => exact portNext_portIn s
  | sample => exact portNext_portIn s

/-- The sample at place `n` of the line actions returns SDA's level in the byte of PortRead `n`. -/
theorem sampledLevels_getElem? {acts : List BusAction} {s : State} {n : Nat} {b : Byte} (hn : acts[n]? = some .sample)
    (hb : s.portIn[n]? = some b) :
    (sampledLevels acts s)[(acts.take n).count .sample]? = some (lineLevel s.cfg.sda b) := by
  induction acts generalizing s n with
  | nil => simp at hn
  | cons a rest ih =>
    cases n with
    | zero =>
      obtain rfl : a = .sample := by simpa using hn
      simp [sampledLevels, lineReadValue, portValue_eq hb]
    | succ n =>
      have hnext : (performAction a s).portIn[n]? = some b := by
        rw [performAction_portIn, List.getElem?_tail]
        exact hb
      have ih := ih (by simpa using hn) hnext
      rw [performAction_cfg] at ih
      cases a with
      | drive w v => simpa [sampledLevels] using ih
      | sample => simpa [sampledLevels] using ih

/-! ### An accepted command of one procedure -/

/-- An accepted command performs the line actions of its stage, changing POS alone after its acceptance, and goes on with
what the pseudocode puts after them; the stage's local has the samples, which are the PortReads' (R17, R36). -/
theorem acceptI2c_run {w : Word} {st : Stage} {s : State} {acts : List BusAction} {levels : List Bool}
    (hlevels : sampledLevels acts (acceptI2c w st s) = levels) (hacts : stageActions (acceptI2c w st s) st = acts) :
    (∀ m < acts.length, ∃ p,
      (engineRun m (acceptI2c w st s)).i2c = { s.i2c with cur := w, busy := true, err := .ok, pos := p }) ∧
    (∀ n b, acts[n]? = some .sample → s.portIn[n]? = some b →
      levels[(acts.take n).count .sample]? = some (lineLevel s.cfg.sda b)) ∧
    ∃ e, engineRun acts.length (acceptI2c w st s) = finishStage e ∧ sameOutsideEngine s (finishStage e) ∧
      shapes (finishStage e) = shapes s ++ actionShapes s.cfg acts levels ∧ e.buf = s.buf ∧
      e.i2c = { s.i2c with cur := w, busy := true, err := .ok, pos := ⟨stageSamples levels st, []⟩ } := by
  subst hlevels
  obtain rfl : pendingActions (acceptI2c w st s) = acts := (pendingActions_of_pos rfl).trans hacts
  obtain ⟨hend, hduring⟩ := engineRun_pending (s := acceptI2c w st s) rfl rfl
  have houtside : sameOutsideEngine s (engineRun (pendingActions (acceptI2c w st s)).length (acceptI2c w st s)) :=
    engineRun_sameOutside _ (acceptI2c w st s)
  exact ⟨hduring, fun n b hn hb => sampledLevels_getElem? (s := acceptI2c w st s) hn hb,
    procedureEnd (acceptI2c w st s), hend, hend ▸ houtside, shapes_finishStage_procedureEnd _, procedureEnd_buf _,
    procedureEnd_i2c _⟩

/-! ### WRBYTE (R150) -/

theorem finishStage_of_sendByte {s : State} {r : Bool} (h : s.i2c.pos.stage = .sendByte r) :
    finishStage s = endCommand (setAck r s) := by
  rw [finishStage, h]

/-- writeByte's one sample is its 28th line action. -/
theorem writeByteSeq_sample (v : Byte) :
    (writeByteSeq v)[27]? = some .sample ∧ ((writeByteSeq v).take 27).count .sample = 0 := ⟨rfl, rfl⟩

/-- Settles O18: the command is one writeByte, and its sample goes to ACK with the last line action. -/
theorem wrbyteShiftsTheByteOut : Obligations.WrbyteShiftsTheByteOut := fun s v hb => by
  obtain ⟨r, hlevels⟩ := sampledLevels_writeByteSeq v (acceptI2c (instrWord (.wrbyte v)) (.sendByte false) s)
  obtain ⟨hduring, hsamples, e, hrun, houtside, htrace, hbuf, hregs⟩ :=
    acceptI2c_run hlevels (congrArg writeByteSeq (fieldByte_wrbyte v))
  rw [finishStage_of_sendByte (r := r) (by rw [hregs]; rfl)] at hrun houtside htrace
  refine ⟨_, r, exec_accepted rfl hb rfl, rfl, fun m hm => ?_, ?_⟩
  · obtain ⟨p, hp⟩ := hduring m hm
    rw [hp]
    exact ⟨rfl, rfl⟩
  · have hsample (b : Byte) (hin : s.portIn[27]? = some b) : r = lineLevel s.cfg.sda b := by
      obtain ⟨hat, hbefore⟩ := writeByteSeq_sample v
      have hlevel := hsamples 27 b hat hin
      rw [hbefore] at hlevel
      exact Option.some.inj hlevel
    have hrun : engineRun 30 _ = _ := hrun
    simp only [hrun, endCommand_i2c, setAck_i2c, hregs, true_and]
    exact ⟨htrace, hbuf, hsample, houtside⟩

/-! ### RDBYTE (R152) -/

theorem finishStage_of_recvByte {s : State} {x : Byte} (h : s.i2c.pos.stage = .recvByte x) :
    finishStage s = endCommand (setRxbyte x s) := by
  rw [finishStage, h]

theorem stageSamples_recvByte (levels : List Bool) (x : Byte) :
    stageSamples levels (.recvByte x) = .recvByte (levels.foldl shiftIn x) := by
  induction levels generalizing x with
  | nil => rfl
  | cons b rest ih => exact ih (shiftIn x b)

/-- Sample `j` of readByte, from 0, is its line action `2 + 3j`. -/
theorem readByteSeq_sample : ∀ (a : Bool), ∀ j < 8,
    (readByteSeq a)[2 + 3 * j]? = some .sample ∧ ((readByteSeq a).take (2 + 3 * j)).count .sample = j := by decide

/-- The last samples shifted in stand at the low bits, the newest at bit 0, whatever the byte held before. -/
theorem getLsbD_foldl_shiftIn_of_lt (x : Byte) (levels : List Bool) {j : Nat} (hj : j < 8) (hlt : j < levels.length) :
    (levels.foldl shiftIn x).getLsbD j = levels.reverse.getD j false := by
  induction levels using List.reverseRecOn generalizing j with
  | nil => simp at hlt
  | append_singleton levels b ih =>
    rw [List.length_append, List.length_singleton] at hlt
    rw [List.foldl_append, List.foldl_cons, List.foldl_nil, getLsbD_shiftIn _ _ hj, List.reverse_append]
    cases j with
    | zero => rfl
    | succ j => exact ih (by omega) (by omega)

/-- Of eight samples shifted in, sample `j`, from 0, is bit `7 - j` of the byte (R153). -/
theorem getLsbD_eight_samples (x : Byte) {levels : List Bool} (h8 : levels.length = 8) {j : Nat} (hj : j < 8) :
    (levels.foldl shiftIn x).getLsbD (7 - j) = levels.getD j false := by
  rw [getLsbD_foldl_shiftIn_of_lt x levels (by omega) (by omega), List.getD_reverse _ (by omega),
    show levels.length - 1 - (7 - j) = j by omega]

/-- Settles O19: the command is one readByte, and its eight samples go to RXBYTE with the last line action. -/
theorem rdbyteShiftsAByteIn : Obligations.RdbyteShiftsAByteIn := fun s a hb => by
  obtain ⟨b7, b6, b5, b4, b3, b2, b1, b0, hlevels⟩ :=
    sampledLevels_readByteSeq a (acceptI2c (instrWord (.rdbyte a)) (.recvByte 0) s)
  obtain ⟨hduring, hsamples, e, hrun, houtside, htrace, hbuf, hregs⟩ :=
    acceptI2c_run hlevels (congrArg readByteSeq (fieldAck_rdbyte a))
  rw [stageSamples_recvByte] at hregs
  rw [finishStage_of_recvByte (by rw [hregs])] at hrun houtside htrace
  rw [actionShapes_readByteSeq] at htrace
  refine ⟨_, [b7, b6, b5, b4, b3, b2, b1, b0].foldl shiftIn 0, exec_accepted rfl hb rfl, rfl, fun m hm => ?_, ?_⟩
  · obtain ⟨p, hp⟩ := hduring m hm
    rw [hp]
    exact ⟨rfl, rfl⟩
  · have hsample (j : Nat) (hj : j < 8) (b : Byte) (hin : s.portIn[2 + 3 * j]? = some b) :
        ([b7, b6, b5, b4, b3, b2, b1, b0].foldl shiftIn 0).getLsbD (7 - j) = lineLevel s.cfg.sda b := by
      obtain ⟨hat, hbefore⟩ := readByteSeq_sample a j hj
      have hlevel := hsamples (2 + 3 * j) b hat hin
      rw [hbefore] at hlevel
      rw [getLsbD_eight_samples 0 rfl hj, List.getD_eq_getElem?_getD, hlevel, Option.getD_some]
    have hrun : engineRun 29 _ = _ := hrun
    simp only [hrun, endCommand_i2c, setRxbyte_i2c, hregs, true_and]
    exact ⟨htrace, hbuf, hsample, houtside⟩

/-! ### Counting properties (R151, R153) -/

/-- Each data bit is one write of SDA, at whichever level. -/
theorem count_sda_flatMap_sendBitSeq (bits : List Bool) :
    (bits.flatMap sendBitSeq).count (.drive .sda true) + (bits.flatMap sendBitSeq).count (.drive .sda false) =
      bits.length := by
  induction bits with
  | nil => rfl
  | cons b bits ih =>
    have hbit : (sendBitSeq b).count (.drive .sda true) + (sendBitSeq b).count (.drive .sda false) = 1 := by
      cases b <;> rfl
    simp only [List.flatMap_cons, List.count_append, List.length_cons]
    omega

/-- The eight data bits write SDA, and so do the first line action and two of the acknowledge's (R151). -/
theorem count_sda_writeByteSeq (v : Byte) :
    (writeByteSeq v).count (.drive .sda true) + (writeByteSeq v).count (.drive .sda false) = 11 := by
  have hbits : _ = 8 := count_sda_flatMap_sendBitSeq (msbFirst v)
  have htrue : (writeByteSeq v).count (.drive .sda true) =
      ((msbFirst v).flatMap sendBitSeq).count (.drive .sda true) + 3 := by simp [writeByteSeq]
  have hfalse : (writeByteSeq v).count (.drive .sda false) =
      ((msbFirst v).flatMap sendBitSeq).count (.drive .sda false) := by simp [writeByteSeq]
  omega

/-- Settles O20: the sequence has the same shape for every byte, and bit `i` is written three line actions after bit
`i + 1`. -/
theorem writeByteCounts : Obligations.WriteByteCounts := fun v => by
  refine ⟨rfl, rfl, count_sda_writeByteSeq v, rfl, rfl, fun i hi => ?_⟩
  interval_cases i <;> exact ⟨rfl, rfl, rfl, rfl⟩

/-- readByte takes each sample between the clock's rise and its fall (R153). -/
theorem readByteSeq_sample_between_edges : ∀ (a : Bool), ∀ n < 29, (readByteSeq a)[n]? = some .sample →
    1 ≤ n ∧ (readByteSeq a)[n - 1]? = some (.drive .scl true) ∧ (readByteSeq a)[n + 1]? = some (.drive .scl false) := by
  decide

/-- Eight bits and the acknowledge clock SCL once each, whichever acknowledge is sent; only the bits are sampled (R153). -/
theorem readByteSeq_counts (a : Bool) :
    (readByteSeq a).count (.drive .scl true) = 9 ∧ (readByteSeq a).count (.drive .scl false) = 9 ∧
      (readByteSeq a).count .sample = 8 ∧ (readByteSeq a).length = 29 := ⟨rfl, rfl, rfl, rfl⟩

/-- Settles O21: the counts are the sequence's own, and eight shifts put the first sample at bit 7. -/
theorem readByteCounts : Obligations.ReadByteCounts := fun a => by
  obtain ⟨hrise, hfall, hsample, hlength⟩ := readByteSeq_counts a
  refine ⟨hrise, hfall, hsample, hlength, fun n hn => ?_, fun x s1 s2 s3 s4 s5 s6 s7 s8 k h1 h8 => ?_⟩
  · obtain ⟨hlt, -⟩ := List.getElem?_eq_some_iff.1 hn
    exact readByteSeq_sample_between_edges a n (hlength ▸ hlt) hn
  · obtain ⟨j, rfl⟩ := Nat.exists_eq_add_of_le' h1
    rw [Nat.add_sub_cancel, show 8 - (j + 1) = 7 - j by omega]
    exact getLsbD_eight_samples x rfl (by omega)

end Sys2Proof.Machine
end

section
/-! PROOF. The length check of a frame (42_i2c_frames.md R174), and the bound within which every accepted I2C command
completes (R183): one procedure, or the procedures of a frame, counted by the runs of R172 and R175. -/

namespace Sys2Proof.Machine

open Sys2Proof Host

/-! ### Frames of illegal length (R174) -/

/-- An I2C command of illegal length is rejected with code 3 on an idle engine (R243). -/
theorem exec_badLength {i : Instr} {s t : State} {lenOk : Bool} (he : exec i s = .next (presentI2c lenOk s t))
    (hb : s.i2c.busy = false) (hl : lenOk = false) : exec i s = .next (raiseReject (.i2c .badLength) s) := by
  rw [he, presentI2c, hb, hl]
  rfl

theorem writeLenOk_eq_false {len : BitVec 9} (h : 256 < len.toNat) : writeLenOk len = false :=
  decide_eq_false (Nat.not_le.2 h)

theorem readLenOk_eq_false {len : BitVec 9} (h : len = 0 ∨ 256 < len.toNat) : readLenOk len = false := by
  refine decide_eq_false fun ⟨hpos, hmax⟩ => ?_
  rcases h with rfl | hlong
  · exact absurd hpos (by decide)
  · exact absurd hmax (Nat.not_le.2 hlong)

/-- Settles O14: the length check fails, and a rejection writes ERR alone. -/
theorem badFrameLengthIsRejected : Obligations.BadFrameLengthIsRejected := fun _ _ _ _ hb =>
  ⟨fun hlong => exec_badLength rfl hb (writeLenOk_eq_false hlong),
    fun hbad => exec_badLength rfl hb (readLenOk_eq_false hbad)⟩

/-! ### A command of one procedure (R130 to R132, R150, R152) -/

theorem ofFrame_stageSamples (levels : List Bool) (st : Stage) : (stageSamples levels st).ofFrame = st.ofFrame := by
  induction levels generalizing st with
  | nil => rfl
  | cons b rest ih => exact (ih (stageSample b st)).trans (ofFrame_stageSample b st)

/-- Outside a frame the end of the procedure ends the command. -/
theorem finishStage_idle {s : State} (h : s.i2c.pos.stage.ofFrame = false) : (finishStage s).i2c.busy = false := by
  rw [finishStage]
  cases hst : s.i2c.pos.stage
  case start | rstart | stop | sendByte | recvByte => rfl
  all_goals
    rw [hst] at h
    contradiction

/-- An accepted command that is no frame has ended when the line actions of its one procedure have been performed. -/
theorem acceptI2c_completes {st : Stage} (hst : st.ofFrame = false) (w : Word) (s : State) :
    (engineRun (stageActions (acceptI2c w st s) st).length (acceptI2c w st s)).i2c.busy = false := by
  rw [← pendingActions_of_pos (s := acceptI2c w st s) rfl, engineRun_procedure rfl]
  refine finishStage_idle ?_
  rw [procedureEnd_i2c]
  exact (ofFrame_stageSamples _ st).trans hst

/-- Of the procedures that are commands of their own, writeByte is the longest. -/
theorem StartsAt.length_le {w : Word} {st : Stage} (h : StartsAt w st) (s : State) :
    (stageActions s st).length ≤ 30 := by
  cases h with
  | start => exact (by decide : startSeq.length ≤ 30)
  | rstart => exact (by decide : rstartSeq.length ≤ 30)
  | stop => exact (by decide : stopSeq.length ≤ 30)
  | wrbyte b => exact (rfl : (writeByteSeq _).length = 30).le
  | rdbyte a =>
    obtain ⟨-, -, -, hlength⟩ := readByteSeq_counts (fieldAck s.i2c.cur)
    exact hlength.trans_le (by decide)

/-! ### Frames (R172, R175) -/

/-- 2 line actions of start_seq, 30 for the address byte and for each data byte, 3 of end_frame. -/
theorem acceptFrame_wrframe_completes {s : State} {len : BitVec 9} {addr : BitVec 7} {h : Bool}
    (hb : s.i2c.busy = false) (hl : writeLenOk len = true) :
    ∃ n ≤ 7715, (engineRun n (acceptFrame (instrWord (.wrframe len addr h)) s)).i2c.busy = false := by
  have hlen : len.toNat ≤ 256 := of_decide_eq_true hl
  obtain ⟨t, hexec, -, n, -, hidle, -, -, -, -, hout⟩ := wrframeSendsTheFrame s len addr h hb hlen
  obtain rfl : t = acceptFrame _ s := Outcome.next.inj (hexec.symm.trans (exec_accepted rfl hb hl))
  refine ⟨n, ?_, hidle⟩
  rcases hout with ⟨hn, -⟩ | ⟨m, v, hm, -, hn, -⟩
  · omega
  · omega

/-- 2 line actions of start_seq, 30 for the address byte, 29 for each data byte, 3 of end_frame. It rests on the run and not
on O23, which asks for a frame buffer in canonical form. -/
theorem acceptFrame_rdframe_completes (s : State) {len : BitVec 9} (addr : BitVec 7) (h : Bool)
    (hl : readLenOk len = true) :
    ∃ n ≤ 7459, (engineRun n (acceptFrame (instrWord (.rdframe len addr h)) s)).i2c.busy = false := by
  obtain ⟨-, hlen⟩ : 1 ≤ len.toNat ∧ len.toNat ≤ 256 := of_decide_eq_true hl
  obtain ⟨t, hstart, hstage, -, hi⟩ := acceptFrame_run (instrWord (.rdframe len addr h)) s
  rcases rdframe_run hstage (by rw [hi]) (by rw [hi]) with ⟨u, p, xs, -, -, hrun, hi'⟩ | ⟨u, p, -, hrun, hi'⟩
  · exact ⟨2 + (30 + (29 * len.toNat + 3)), by omega, by rw [(hstart.trans hrun).run, hi']⟩
  · exact ⟨2 + 33, by omega, by rw [(hstart.trans hrun).run, hi']⟩

/-! ### Every command (R183) -/

/-- What makes an idle engine busy is an accepted command, and the longest is a WRFRAME of 256 bytes. -/
theorem accepted_completes {i : Instr} {s t : State} (hb : s.i2c.busy = false) (h : exec i s = .next t)
    (ht : t.i2c.busy = true) : ∃ n ≤ 7715, (engineRun n t).i2c.busy = false := by
  cases execEffect_i2c (exec_effect h) with
  | kept e hi hm => simp [hi, hb] at ht
  | started w st _ hw hst =>
    subst hst
    obtain ⟨-, hnot⟩ := stageInv_of_startsAt hw s
    exact ⟨_, (hw.length_le _).trans (by decide), acceptI2c_completes hnot w s⟩
  | frameStarted w _ hw hst =>
    subst hst
    cases hw with
    | wrframe len addr hold hl => exact acceptFrame_wrframe_completes hb hl
    | rdframe len addr hold hl =>
      obtain ⟨n, hn, hidle⟩ := acceptFrame_rdframe_completes s addr hold hl
      exact ⟨n, hn.trans (by decide), hidle⟩
  | stored j b _ hj hst => simp [hst, hb] at ht

/-- Settles O24: WRBYTE and RDBYTE are one procedure of 30 and of 29 line actions, an RDFRAME has its own bound, and every
other command the common one. -/
theorem everyAcceptedCommandCompletes : Obligations.EveryAcceptedCommandCompletes := fun s t i hb h ht => by
  cases i with
  | wrbyte b =>
    obtain rfl := Outcome.next.inj (h.symm.trans (exec_accepted rfl hb rfl))
    exact ⟨30, acceptI2c_completes (st := .sendByte false) rfl _ s, by decide, nofun, fun _ _ => rfl, nofun⟩
  | rdbyte a =>
    obtain rfl := Outcome.next.inj (h.symm.trans (exec_accepted rfl hb rfl))
    exact ⟨29, acceptI2c_completes (st := .recvByte 0) rfl _ s, by decide, nofun, nofun, fun _ _ => rfl⟩
  | rdframe len addr hold =>
    cases hl : readLenOk len with
    | false =>
      obtain rfl := Outcome.next.inj (h.symm.trans (exec_badLength rfl hb hl))
      simp [hb] at ht
    | true =>
      obtain rfl := Outcome.next.inj (h.symm.trans (exec_accepted rfl hb hl))
      obtain ⟨n, hn, hidle⟩ := acceptFrame_rdframe_completes s addr hold hl
      exact ⟨n, hidle, hn.trans (by decide), fun _ _ _ _ => hn, nofun, nofun⟩
  | _ =>
    obtain ⟨n, hn, hidle⟩ := accepted_completes hb h ht
    exact ⟨n, hidle, hn, nofun, nofun, nofun⟩

end Sys2Proof.Machine
end

section
/-! PROOF. The registers of a PWM channel (43_pwm_channel.md): what INIT, SETDUTY, SETLINE and the accesses to the bank do
(R190, R193, R195 to R199), the channel invariant of R200, and who may change a snapshot (R192, R211). -/

namespace Sys2Proof.Machine

open Sys2Proof Host

/-! ### The accepted commands (R190, R193, R195) -/

theorem onChannel_present {s : State} {k : Nat} {c : Channel} (hk : s.chans[k]? = some c) (r : Reg)
    (f : Channel → State) : onChannel k r s f = .next (f c) := by
  rw [onChannel, hk]

/-- A duty of at most 0x4000 passes the range check (R107, R194). -/
theorem dutyInRange_of_toNat_le {d : BitVec 16} (hd : d.toNat ≤ 0x4000) : dutyInRange d = true := by
  obtain ⟨-, hunsigned⟩ := dutyRangeIsZeroToOne d
  exact hunsigned.2 hd

/-- Settles O29: the three checks pass, whatever the state of the worker. -/
theorem initConstructsTheChannel : Obligations.InitConstructsTheChannel := fun s k c d l hk hl hd hp => by
  refine (onChannel_present hk _ _).trans ?_
  simp only [hl, dutyInRange_of_toNat_le hd, hp, Bool.not_true, Bool.false_eq_true, if_false]
  rfl

/-- Settles O30: construction and the operand's own check pass. -/
theorem mutatorsChangeOneRegister : Obligations.MutatorsChangeOneRegister := fun s k c d l hk hv => by
  refine ⟨fun hd => (onChannel_present hk _ _).trans ?_, fun hl => (onChannel_present hk _ _).trans ?_⟩
  · simp only [hv, dutyInRange_of_toNat_le hd, Bool.not_true, Bool.false_eq_true, if_false]
    rfl
  · simp only [hv, hl, Bool.not_true, Bool.false_eq_true, if_false]
    rfl

/-! ### The accesses to the bank (R196 to R199) -/

/-- The encoding of a descriptor as a number: REG above the polarity flag, the flag above BIT (R106). -/
theorem toNat_lineToBits (l : LineDesc) :
    (lineToBits l).toNat = l.reg.toNat * 2 ^ 4 + l.inv.toNat * 2 ^ 3 + l.bit.toNat := by
  have hreg := congrArg BitVec.toNat (lineToBits_reg l)
  have hbit := congrArg BitVec.toNat (lineToBits_bit l)
  have hinv := congrArg Bool.toNat (lineToBits_inv l)
  rw [BitVec.extractLsb'_toNat, Nat.shiftRight_eq_div_pow] at hreg hbit
  rw [BitVec.getLsbD, Nat.toNat_testBit] at hinv
  have := (lineToBits l).isLt
  omega

/-- Settles O33: each access is of the one register, and a register narrower than a word is read with zeros above it. -/
theorem pwmRegisterAccesses : Obligations.PwmRegisterAccesses := fun s k c v hk => by
  refine ⟨onChannel_present hk _ _, onChannel_present hk _ _, onChannel_present hk _ _, ?_, ?_⟩
  · rw [BitVec.ofNat_toNat]
    exact onChannel_present hk _ _
  · rw [← toNat_lineToBits, BitVec.ofNat_toNat]
    exact onChannel_present hk _ _

/-! ### The channel invariant (R200) -/

/-- Settles O54: PERIOD_DEFAULT is at least 1 and an unconstructed channel asks nothing of its LINE; the commands check what
they store, and nothing else writes these registers. -/
theorem channelInvariantHoldsAtEveryStep : Obligations.ChannelInvariantHoldsAtEveryStep :=
  ⟨fun _ => channelsInv_resetWith, fun _ _ => step_channelsInv⟩

/-! ### Snapshots (R192, R211) -/

/-- What START copies for the worker: S_LINE, S_P and S_ON (R40, R211). -/
def Channel.snapshot (c : Channel) : LineDesc × Word × Word := (c.sLine, c.sP, c.sOn)

theorem Channel.snapshot_eq_iff {c c' : Channel} :
    c'.snapshot = c.snapshot ↔ c'.sLine = c.sLine ∧ c'.sP = c.sP ∧ c'.sOn = c.sOn := by
  simp only [snapshot, Prod.mk.injEq]

/-- The snapshot of channel `k`, where there is one. -/
def snapshotAt (k : Nat) (s : State) : Option (LineDesc × Word × Word) := s.chans[k]?.map Channel.snapshot

theorem snapshotAt_congr {s t : State} (h : t.chans = s.chans) (k : Nat) : snapshotAt k t = snapshotAt k s := by
  rw [snapshotAt, h, snapshotAt]

/-- Replacing a channel keeps the snapshot of channel `k`, if it is another channel or its replacement has the same. -/
theorem snapshotAt_of_set {s t : State} {j k : Nat} {d d' : Channel} (hj : s.chans[j]? = some d)
    (ht : t.chans = s.chans.set j d') (hd : j = k → d'.snapshot = d.snapshot) : snapshotAt k t = snapshotAt k s := by
  rw [snapshotAt, ht, snapshotAt]
  by_cases hjk : j = k
  · obtain ⟨hlt, -⟩ := List.getElem?_eq_some_iff.1 hj
    subst hjk
    rw [List.getElem?_set_self hlt, hj, Option.map_some, Option.map_some, hd rfl]
  · rw [List.getElem?_set_ne hjk]

/-- A rejection writes ERR alone (R240). -/
theorem snapshotAt_raiseReject_pwm (j : Nat) (e : PwmErr) (k : Nat) (s : State) :
    snapshotAt k (raiseReject (.pwm j e) s) = snapshotAt k s := by
  cases hj : s.chans[j]? with
  | some d =>
    rw [raiseReject_pwm_eq hj]
    exact snapshotAt_of_set hj rfl fun _ => rfl
  | none => exact snapshotAt_congr (List.modify_eq_self (by simpa using hj)) k

/-- No instruction but START of the channel changes its snapshot. -/
theorem execEffect_snapshotAt {i : Instr} {s t : State} (h : ExecEffect s i t) {k : Nat} (hi : i ≠ .pwmStart k) :
    snapshotAt k t = snapshotAt k s := by
  cases h with
  | pwmRejected j d hj e => exact snapshotAt_of_set hj rfl fun _ => rfl
  | channel j d d' hj hd hkept =>
    refine snapshotAt_of_set hj rfl fun hjk => ?_
    subst hjk
    obtain ⟨hline, hp, hon, -⟩ := hkept.resolve_left hi
    exact Channel.snapshot_eq_iff.2 ⟨hline, hp, hon⟩
  | _ => exact snapshotAt_congr rfl k

theorem hostAccess_snapshotAt {a : HostAccess} {s t : State} (h : hostAccess a s = .next t) {k : Nat}
    (ha : decode s.cfg a ≠ .instr (.pwmStart k)) : snapshotAt k t = snapshotAt k s := by
  rcases hostAccess_next h with ⟨i, hdec, he⟩ | ⟨e, rfl⟩ | ⟨j, rfl⟩ | rfl | rfl | ⟨f, rfl⟩
  · refine execEffect_snapshotAt he ?_
    rintro rfl
    exact ha hdec
  · exact snapshotAt_congr rfl k
  · exact snapshotAt_raiseReject_pwm j .reserved k s
  · rfl
  · exact snapshotAt_congr rfl k
  · exact snapshotAt_congr rfl k

/-- A tick step moves OUT, CNT and the worker's state, and reads the snapshot only (R220). -/
theorem snapshotAt_tickStep (j k : Nat) (s : State) : snapshotAt k (tickStep j s) = snapshotAt k s := by
  rcases tickStep_cases j s with h | ⟨d, hj, -, ⟨-, -, h⟩ | ⟨-, -, -, h⟩ | ⟨-, -, -, h⟩ | ⟨-, -, h⟩⟩ <;> rw [h]
  · exact snapshotAt_of_set hj (lineWrite_chans ..) fun _ => rfl
  · exact snapshotAt_of_set hj (lineWrite_chans ..) fun _ => rfl
  · exact snapshotAt_of_set hj (lineWrite_chans ..) fun _ => rfl
  · exact snapshotAt_of_set hj rfl fun _ => rfl

theorem snapshotAt_workerStep (j k : Nat) (s : State) : snapshotAt k (workerStep j s) = snapshotAt k s := by
  rcases workerStep_cases j s with ⟨-, h⟩ | ⟨-, h⟩ <;> rw [h]
  exact snapshotAt_tickStep j k _

theorem snapshotAt_timeTick (k : Nat) (s : State) : snapshotAt k (timeTick s) = snapshotAt k s := by
  unfold timeTick
  split <;> rfl

/-- Of all the agents' steps only START of channel `k` and a reset change its snapshot (R192, R211). -/
theorem step_snapshotAt {s t : State} (h : step s = .next t) {k : Nat} (hr : nextEvent s ≠ .reset)
    (hstart : ∀ a, nextEvent s = .host a → decode s.cfg a ≠ .instr (.pwmStart k)) :
    snapshotAt k t = snapshotAt k s := by
  refine Eq.trans ?_ (snapshotAt_congr (takeEvent_chans s) k)
  rcases step_cases h with ⟨a, he, ha⟩ | ⟨-, rfl⟩ | ⟨-, rfl⟩ | ⟨j, -, rfl⟩ | ⟨he, -⟩
  · exact hostAccess_snapshotAt ha (by simpa using hstart a he)
  · obtain ⟨-, hchans, -⟩ := engineStep_frame (takeEvent s)
    exact snapshotAt_congr hchans k
  · exact snapshotAt_timeTick k _
  · exact snapshotAt_workerStep j k _
  · exact absurd he hr

/-- Settles O35: the channel's snapshot, read before and after the step. -/
theorem onlyStartTakesASnapshot : Obligations.OnlyStartTakesASnapshot := fun s t k c c' h hk hk' hr hstart => by
  have hkept := step_snapshotAt h hr hstart
  simp only [snapshotAt, hk, hk', Option.map_some, Option.some.injEq] at hkept
  exact Channel.snapshot_eq_iff.1 hkept

end Sys2Proof.Machine
end

section
/-! PROOF. The tick step of R220, one equation per branch, what it leaves of everything outside its channel, the
channels without a worker (R227), and when a tick step is due (R219, R221). -/

namespace Sys2Proof.Machine

open Sys2Proof Host

/-! ### The branches of the tick step (R220) -/

theorem Channel.active_iff (c : Channel) : c.active = true ↔ c.state = .running ∨ c.state = .paused := by
  simp [Channel.active]

theorem Channel.active_eq_false_iff (c : Channel) : c.active = false ↔ c.state = .idle ∨ c.state = .stopped := by
  rw [Channel.active]
  cases c.state <;> decide

section Branches
variable {s : State} {k : Nat} {c : Channel}

theorem tickStep_eq (hk : s.chans[k]? = some c) : tickStep k s = tickChannel k c s := by
  rw [tickStep, hk]

theorem tickStep_inactive (hk : s.chans[k]? = some c) (ha : c.active = false) : tickStep k s = s := by
  simp [tickStep_eq hk, tickChannel, ha]

/-- "Skip toggling": a paused worker at the boundary stays as it is. -/
theorem tickStep_frozen (hk : s.chans[k]? = some c) (hs : c.state = .paused) (hp : c.stopPend = false)
    (h0 : c.cnt = 0) : tickStep k s = s := by
  simp [tickStep_eq hk, tickChannel, hs, hp, h0]

/-- A pending stop is carried out at either boundary. -/
theorem tickStep_stop (hk : s.chans[k]? = some c) (ha : c.active = true) (hp : c.stopPend = true)
    (h : c.cnt = 0 ∨ c.cnt = c.sOn) : tickStep k s = stopNow k c s := by
  rw [tickStep_eq hk, tickChannel, ha, hp]
  by_cases h0 : c.cnt = 0
  · simp [h0]
  · simp [h.resolve_left h0]

/-- The start of an iteration. -/
theorem tickStep_first (hk : s.chans[k]? = some c) (hs : c.state = .running) (hp : c.stopPend = false)
    (h0 : c.cnt = 0) : tickStep k s = beginPhase k c (decide (0 < c.sOn.toNat)) s := by
  simp [tickStep_eq hk, tickChannel, hs, hp, h0]

/-- The end of the on-phase. -/
theorem tickStep_edge (hk : s.chans[k]? = some c) (ha : c.active = true) (hp : c.stopPend = false)
    (h0 : c.cnt ≠ 0) (h1 : c.cnt = c.sOn) : tickStep k s = beginPhase k c false s := by
  rw [tickStep_eq hk, tickChannel, ha, hp, if_neg h0, if_pos h1]
  rfl

/-- Inside a phase. -/
theorem tickStep_count (hk : s.chans[k]? = some c) (ha : c.active = true) (h0 : c.cnt ≠ 0) (h1 : c.cnt ≠ c.sOn) :
    tickStep k s = countTick k c s := by
  rw [tickStep_eq hk, tickChannel, ha, if_neg h0, if_neg h1]
  rfl

end Branches

/-! ### What a branch writes to its channel and to its line -/

theorem setChannel_chans_self {s : State} {k : Nat} {c : Channel} (hk : s.chans[k]? = some c) (c' : Channel) :
    (setChannel k c' s).chans[k]? = some c' := by
  obtain ⟨hlt, -⟩ := List.getElem?_eq_some_iff.1 hk
  exact List.getElem?_set_self hlt

theorem stopNow_chans_self {s : State} {k : Nat} {c : Channel} (hk : s.chans[k]? = some c) :
    (stopNow k c s).chans[k]? = some { c with out := false, state := .stopped, stopPend := false, cnt := 0 } := by
  rw [stopNow, lineWrite_chans]
  exact setChannel_chans_self hk _

theorem beginPhase_chans_self {s : State} {k : Nat} {c : Channel} (hk : s.chans[k]? = some c) (v : Bool) :
    (beginPhase k c v s).chans[k]? = some { c with out := v, cnt := nextCnt c } := by
  rw [beginPhase, lineWrite_chans]
  exact setChannel_chans_self hk _

theorem countTick_chans_self {s : State} {k : Nat} {c : Channel} (hk : s.chans[k]? = some c) :
    (countTick k c s).chans[k]? = some { c with cnt := nextCnt c } := setChannel_chans_self hk _

@[simp] theorem stopNow_trace (k : Nat) (c : Channel) (s : State) :
    (stopNow k c s).trace = writeAction (.worker k) c.sLine false s :: s.trace := lineWrite_trace ..

@[simp] theorem beginPhase_trace (k : Nat) (c : Channel) (v : Bool) (s : State) :
    (beginPhase k c v s).trace = writeAction (.worker k) c.sLine v s :: s.trace := lineWrite_trace ..

@[simp] theorem countTick_trace (k : Nat) (c : Channel) (s : State) : (countTick k c s).trace = s.trace := rfl

@[simp] theorem lastWritten_writeAction (who : Agent) (l : LineDesc) (v : Bool) (s : State) (tr : List LineAction) :
    lastWritten who l (writeAction who l v s :: tr) = some v := by
  simp [lastWritten, writeAction]

/-! ### What a tick step leaves (R220) -/

/-- A tick step does nothing, or writes its channel, or does so with one LineWrite of the channel's S_LINE. -/
theorem tickStep_writes (k : Nat) (s : State) :
    tickStep k s = s ∨ ∃ c c', s.chans[k]? = some c ∧
      (tickStep k s = setChannel k c' s ∨ ∃ v, tickStep k s = lineWrite (.worker k) c.sLine v (setChannel k c' s)) := by
  rcases tickStep_cases k s with h | ⟨c, hk, -, ⟨-, -, h⟩ | ⟨-, -, -, h⟩ | ⟨-, -, -, h⟩ | ⟨-, -, h⟩⟩
  · exact .inl h
  · exact .inr ⟨c, _, hk, .inr ⟨_, h⟩⟩
  · exact .inr ⟨c, _, hk, .inr ⟨_, h⟩⟩
  · exact .inr ⟨c, _, hk, .inr ⟨_, h⟩⟩
  · exact .inr ⟨c, _, hk, .inl h⟩

theorem tickStep_chans_other {j k : Nat} (hj : j ≠ k) (s : State) : (tickStep k s).chans[j]? = s.chans[j]? := by
  rcases tickStep_writes k s with h | ⟨c, c', -, h | ⟨v, h⟩⟩ <;> rw [h]
  · exact List.getElem?_set_ne hj.symm
  · rw [lineWrite_chans]
    exact List.getElem?_set_ne hj.symm

/-- A tick step reaches nothing but the channels, the trace and the inputs. -/
theorem tickStep_frame (k : Nat) (s : State) :
    (tickStep k s).cfg = s.cfg ∧ (tickStep k s).i2c = s.i2c ∧ (tickStep k s).buf = s.buf ∧
    (tickStep k s).tickNo = s.tickNo ∧ (tickStep k s).due = s.due ∧ (tickStep k s).rdata = s.rdata ∧
    (tickStep k s).faults = s.faults ∧ (tickStep k s).agenda = s.agenda := by
  rcases tickStep_writes k s with h | ⟨c, c', -, h | ⟨v, h⟩⟩ <;> rw [h] <;> simp

/-- Settles O42: the step writes its channel, and at most its channel's line. -/
theorem tickStepTouchesItsChannelOnly : Obligations.TickStepTouchesItsChannelOnly := fun s k => by
  refine ⟨?_, fun j hj => tickStep_chans_other hj s, tickStep_frame k s⟩
  rcases tickStep_trace k s with h | ⟨c, v, hk, h⟩
  · exact .inl h
  · exact .inr ⟨c, _, hk, h, rfl, rfl, rfl⟩

/-- Settles O41: the writes of 1 ask for an on-phase, and the writes of 0 for a stop, an empty on-phase or its end, which an
on-phase of the whole period has none of. -/
theorem dutyZeroNeverHighDutyOneNeverLow : Obligations.DutyZeroNeverHighDutyOneNeverLow := fun s k c hk hw a htrace => by
  obtain ⟨-, hlive⟩ := hw
  rcases tickStep_cases k s with h | ⟨d, hd, ha, h⟩
  · simp [h] at htrace
  obtain rfl : d = c := Option.some.inj (hd.symm.trans hk)
  obtain ⟨hp, -, hlt, -⟩ := hlive ha
  rcases h with ⟨hpend, -, h⟩ | ⟨-, -, -, h⟩ | ⟨-, -, h1, h⟩ | ⟨-, -, h⟩ <;> rw [h] at htrace
  · obtain rfl : writeAction (.worker k) d.sLine false s = a := by simpa using htrace
    exact ⟨fun _ => rfl, fun hno => absurd hpend (by simp [hno])⟩
  · obtain rfl : writeAction (.worker k) d.sLine (decide (0 < d.sOn.toNat)) s = a := by simpa using htrace
    refine ⟨fun hon => decide_eq_false (by omega), fun _ hon => decide_eq_true ?_⟩
    rw [hon]
    exact hp
  · obtain rfl : writeAction (.worker k) d.sLine false s = a := by simpa using htrace
    exact ⟨fun _ => rfl, fun _ hon => absurd (h1.trans hon) fun h => by simp [h] at hlt⟩
  · simp at htrace

/-! ### Who starts a stopped channel (R227) -/

/-- Channel `k` exists and is Stopped. -/
def stoppedAt (k : Nat) (s : State) : Prop := ∃ c, s.chans[k]? = some c ∧ c.state = .stopped

theorem stoppedAt_congr {s t : State} (h : t.chans = s.chans) {k : Nat} (hs : stoppedAt k s) : stoppedAt k t := by
  rwa [stoppedAt, h]

/-- Replacing a channel keeps channel `k` Stopped, if it is another one or its replacement stays Stopped. -/
theorem stoppedAt_of_set {s t : State} {j k : Nat} {d d' : Channel} (hj : s.chans[j]? = some d)
    (ht : t.chans = s.chans.set j d') (hd : j = k → d.state = .stopped → d'.state = .stopped) (hs : stoppedAt k s) :
    stoppedAt k t := by
  obtain ⟨c, hk, hc⟩ := hs
  by_cases hjk : j = k
  · subst hjk
    obtain rfl : d = c := Option.some.inj (hj.symm.trans hk)
    exact ⟨d', by rw [ht]; exact setChannel_chans_self hj d', hd rfl hc⟩
  · exact ⟨c, by rw [ht, List.getElem?_set_ne hjk, hk], hc⟩

theorem stoppedAt_raiseReject_pwm {s : State} {k : Nat} (j : Nat) (e : PwmErr) (hs : stoppedAt k s) :
    stoppedAt k (raiseReject (.pwm j e) s) := by
  cases hj : s.chans[j]? with
  | some d =>
    rw [raiseReject_pwm_eq hj]
    exact stoppedAt_of_set hj rfl (fun _ => id) hs
  | none => exact stoppedAt_congr (List.modify_eq_self (by simpa using hj)) hs

theorem execEffect_stoppedAt {i : Instr} {s t : State} (h : ExecEffect s i t) {k : Nat} (hi : i ≠ .pwmStart k)
    (hs : stoppedAt k s) : stoppedAt k t := by
  cases h with
  | pwmRejected j d hj e => exact stoppedAt_of_set hj rfl (fun _ => id) hs
  | channel j d d' hj hd hkept =>
    refine stoppedAt_of_set hj rfl (fun hjk => ?_) hs
    subst hjk
    obtain ⟨-, -, -, hstopped⟩ := hkept.resolve_left hi
    exact hstopped
  | _ => exact stoppedAt_congr rfl hs

theorem hostAccess_stoppedAt {a : HostAccess} {s t : State} (h : hostAccess a s = .next t) {k : Nat}
    (ha : decode s.cfg a ≠ .instr (.pwmStart k)) (hs : stoppedAt k s) : stoppedAt k t := by
  rcases hostAccess_next h with ⟨i, hdec, he⟩ | ⟨e, rfl⟩ | ⟨j, rfl⟩ | rfl | rfl | ⟨f, rfl⟩
  · exact execEffect_stoppedAt he (fun hi => ha (hi ▸ hdec)) hs
  · exact stoppedAt_congr rfl hs
  · exact stoppedAt_raiseReject_pwm j .reserved hs
  · exact hs
  · exact stoppedAt_congr rfl hs
  · exact stoppedAt_congr rfl hs

/-- A tick step of a stopped channel does nothing, and one of another channel does not reach it. -/
theorem tickStep_stoppedAt (j : Nat) {k : Nat} {s : State} (hs : stoppedAt k s) : stoppedAt k (tickStep j s) := by
  obtain ⟨c, hk, hc⟩ := hs
  by_cases hjk : j = k
  · subst hjk
    rw [tickStep_inactive hk (c.active_eq_false_iff.2 (.inr hc))]
    exact ⟨c, hk, hc⟩
  · exact ⟨c, by rw [tickStep_chans_other (Ne.symm hjk), hk], hc⟩

theorem workerStep_stoppedAt (j : Nat) {k : Nat} {s : State} (hs : stoppedAt k s) : stoppedAt k (workerStep j s) := by
  rcases workerStep_cases j s with ⟨-, h⟩ | ⟨-, h⟩ <;> rw [h]
  · exact tickStep_stoppedAt j hs
  · exact hs

@[simp] theorem timeTick_chans (s : State) : (timeTick s).chans = s.chans := by
  unfold timeTick; split <;> rfl

/-- Of all the agents' steps only START of channel `k` and a reset take it out of Stopped. -/
theorem step_stoppedAt {s t : State} (h : step s = .next t) {k : Nat} (hr : nextEvent s ≠ .reset)
    (hstart : ∀ a, nextEvent s = .host a → decode s.cfg a ≠ .instr (.pwmStart k)) (hs : stoppedAt k s) :
    stoppedAt k t := by
  have hs := stoppedAt_congr (takeEvent_chans s) hs
  rcases step_cases h with ⟨a, he, ha⟩ | ⟨-, rfl⟩ | ⟨-, rfl⟩ | ⟨j, -, rfl⟩ | ⟨he, -⟩
  · exact hostAccess_stoppedAt ha (by simpa using hstart a he) hs
  · obtain ⟨-, hchans, -⟩ := engineStep_frame (takeEvent s)
    exact stoppedAt_congr hchans hs
  · exact stoppedAt_congr (timeTick_chans _) hs
  · exact workerStep_stoppedAt j hs
  · exact absurd he hr

/-- Settles O46: without a live worker there is no tick step, and the other agents' steps keep Stopped. -/
theorem stoppedIsTerminal : Obligations.StoppedIsTerminal := by
  refine ⟨fun s k c hk hc => tickStep_inactive hk (c.active_eq_false_iff.2 hc), fun s t k c c' h hk hk' hc hc' => ?_⟩
  by_contra hno
  simp only [not_or, not_exists, not_and] at hno
  obtain ⟨hr, hstart⟩ := hno
  obtain ⟨d, hd, hstopped⟩ := step_stoppedAt h hr hstart ⟨c, hk, hc⟩
  obtain rfl : d = c' := Option.some.inj (hd.symm.trans hk')
  exact hc' hstopped

/-! ### Tick scheduling (R219, R221) -/

theorem workerStep_not_due {k : Nat} {s : State} (h : k ∉ s.due) : workerStep k s = s := by
  rcases workerStep_cases k s with ⟨hk, -⟩ | ⟨-, hs⟩
  · exact absurd hk h
  · exact hs

/-- Settles O47: a tick lists every channel once, and a worker's turn takes its own mark away. -/
theorem oneTickStepPerTick : Obligations.OneTickStepPerTick := fun s => by
  refine ⟨fun hd => ⟨List.range s.cfg.nPwm, ?_, List.nodup_range, fun k => List.mem_range⟩, fun hd => ?_,
    fun k => ⟨fun hk => ?_, workerStep_not_due⟩, fun ⟨hnodup, _⟩ k => ?_⟩
  · rw [timeTick, hd]
  · obtain ⟨k, rest, hd⟩ := List.exists_cons_of_ne_nil hd
    rw [timeTick, hd]
  · rcases workerStep_cases k s with ⟨-, h⟩ | ⟨hno, -⟩
    · exact h
    · exact absurd hk hno
  · have hgone : k ∉ (workerStep k s).due := by
      rw [workerStep_due]
      exact hnodup.not_mem_erase
    exact ⟨hgone, workerStep_not_due hgone⟩

end Sys2Proof.Machine
end

section
/-! PROOF. The PWM worker's commands (44_pwm_worker.md R210 to R217), the status word (R215), the on-time arithmetic (R216)
and the exclusive ownership of lines (R218). -/

namespace Sys2Proof.Machine

open Sys2Proof Host

/-! ### The status word (R38, R215) -/

/-- PWM_STATUS bit by bit, as R38 places its fields; STATE and ERR have no bits beyond their own. -/
theorem getLsbD_pwmStatus (c : Channel) {j : Nat} (hj : j < 32) : (pwmStatus c).getLsbD j =
    ((stateCode c.state).getLsbD j || decide (j = 2) && c.stopPend || decide (j = 3) && c.cfgValid ||
      decide (j = 4) && c.out || decide (j = 5) && (c.state == .running) || decide (j = 6) && (c.state == .paused) ||
      decide (8 ≤ j) && (pwmErrCode c.err).getLsbD (j - 8)) := by
  simp only [pwmStatus, BitVec.getLsbD_or, getLsbD_bitAt _ _ hj, getLsbD_field _ _ hj, BitVec.getLsbD_setWidth, hj,
    decide_true, Bool.true_and]

/-- Each field of PWM_STATUS stands at its bits and the reserved bits are 0 (R38). -/
theorem pwmStatus_fields (c : Channel) :
    (pwmStatus c).extractLsb' 0 2 = stateCode c.state ∧ (pwmStatus c).getLsbD 2 = c.stopPend ∧
    (pwmStatus c).getLsbD 3 = c.cfgValid ∧ (pwmStatus c).getLsbD 4 = c.out ∧
    (pwmStatus c).getLsbD 5 = (c.state == .running) ∧ (pwmStatus c).getLsbD 6 = (c.state == .paused) ∧
    (pwmStatus c).getLsbD 7 = false ∧ (pwmStatus c).extractLsb' 8 3 = pwmErrCode c.err ∧
    (pwmStatus c).extractLsb' 11 21 = 0 := by
  refine ⟨?_, ?_, ?_, ?_, ?_, ?_, ?_, ?_, ?_⟩
  case refine_1 | refine_8 | refine_9 =>
    ext j hj
    rw [BitVec.getElem_extractLsb', getLsbD_pwmStatus c (by omega)]
    grind
  all_goals
    rw [getLsbD_pwmStatus c (by decide)]
    simp

/-- Settles O34: the word read is that of R38, field by field. -/
theorem pwmStatusRead : Obligations.PwmStatusRead := fun s k c hk => by
  obtain ⟨hstate, hstop, hvalid, hout, hrunning, hpaused, h7, herr, h11⟩ := pwmStatus_fields c
  refine ⟨pwmStatus c, onChannel_present hk _ _, ?_, hstop, hvalid, hout, by rw [hrunning, beq_iff_eq],
    by rw [hpaused, beq_iff_eq], h7, ?_, h11⟩
  · rw [hstate]
    cases c.state <;> rfl
  · rw [herr]
    cases c.err <;> rfl

/-! ### The commands (R210 to R214) -/

section Commands
variable {s : State} {k : Nat} {c : Channel}

theorem exec_pwmStart_accepted (hk : s.chans[k]? = some c) (hv : c.cfgValid = true) (ha : c.active = false)
    (ho : ownedElsewhere k c.line s = false) : exec (.pwmStart k) s = .next (setChannel k
      { c with sLine := c.line, sP := c.period, sOn := onTicks c.period c.duty, cnt := 0, state := .running,
               err := .ok } s) := by
  refine (onChannel_present hk _ _).trans ?_
  simp only [hv, ha, ho, Bool.not_true, Bool.false_eq_true, if_false]

theorem exec_pwmStart_active (hk : s.chans[k]? = some c) (hv : c.cfgValid = true) (ha : c.active = true) :
    exec (.pwmStart k) s = .next (setChannel k { c with err := .state } s) := by
  refine (onChannel_present hk _ _).trans ?_
  simp only [hv, ha, Bool.not_true, Bool.false_eq_true, if_false, if_true, raiseReject_pwm_eq hk]

theorem exec_pwmPause (hk : s.chans[k]? = some c) : exec (.pwmPause k) s = .next (setChannel k
    (if c.state ≠ .running ∨ c.stopPend = true then { c with err := .state }
      else { c with state := .paused, err := .ok }) s) := by
  refine (onChannel_present hk _ _).trans ?_
  rw [raiseReject_pwm_eq hk, ← apply_ite (setChannel k · s)]

theorem exec_pwmResume (hk : s.chans[k]? = some c) : exec (.pwmResume k) s = .next (setChannel k
    (if c.state ≠ .paused ∨ c.stopPend = true then { c with err := .state }
      else { c with state := .running, err := .ok }) s) := by
  refine (onChannel_present hk _ _).trans ?_
  rw [raiseReject_pwm_eq hk, ← apply_ite (setChannel k · s)]

theorem exec_pwmStop (hk : s.chans[k]? = some c) : exec (.pwmStop k) s = .next (setChannel k
    (if c.active = false ∨ c.stopPend = true then { c with err := .state }
      else { c with stopPend := true, err := .ok }) s) := by
  refine (onChannel_present hk _ _).trans ?_
  simp only [raiseReject_pwm_eq hk, ← apply_ite (setChannel k · s), Bool.not_eq_true']

end Commands

/-- Settles O36: the three checks of START pass. -/
theorem startSnapshotsAndRuns : Obligations.StartSnapshotsAndRuns := fun _ _ c hk hv hs ho =>
  exec_pwmStart_accepted hk hv (c.active_eq_false_iff.2 hs) ho

/-- Settles O37: each command's own check decides its column of the table. -/
theorem commandStateTable : Obligations.CommandStateTable := fun s k c hk => by
  refine ⟨fun hv ho _ => ⟨fun hs => ?_, fun hs => exec_pwmStart_active hk hv (c.active_iff.2 hs)⟩,
    fun hv _ _ hs => exec_pwmStart_active hk hv (c.active_iff.2 hs), fun hs hp => ?_, fun h => ?_, fun hs hp => ?_,
    fun h => ?_, fun hs hp => ?_, fun h => ?_⟩
  · exact ⟨_, _, exec_pwmStart_accepted hk hv (c.active_eq_false_iff.2 hs) ho, setChannel_chans_self hk _, rfl⟩
  · rw [exec_pwmPause hk, if_neg (by simp [hs, hp]), ← hp]
    rfl
  · rw [exec_pwmPause hk, if_pos h]
    rfl
  · rw [exec_pwmResume hk, if_neg (by simp [hs, hp]), ← hp]
    rfl
  · rw [exec_pwmResume hk, if_pos h]
    rfl
  · rw [exec_pwmStop hk, if_neg (by simp [c.active_iff.2 hs, hp])]
    rfl
  · rw [exec_pwmStop hk, if_pos (by rwa [c.active_eq_false_iff, or_assoc])]
    rfl

/-! ### On- and off-time (R216) -/

/-- The on-phase fits its register: it is no longer than the period. -/
theorem onTicks_toNat (p : Word) {d : BitVec 16} (hd : d.toNat ≤ 16384) :
    (onTicks p d).toNat = p.toNat * d.toNat / 16384 := by
  have hle : p.toNat * d.toNat / 16384 ≤ p.toNat :=
    Nat.div_le_of_le_mul (by rw [Nat.mul_comm]; exact Nat.mul_le_mul_right _ hd)
  exact Nat.mod_eq_of_lt (hle.trans_lt p.isLt)

/-- The on-phase is the whole period exactly at duty 1. -/
theorem onTicks_eq_period_iff {p : Word} {d : BitVec 16} (hp : 1 ≤ p.toNat) (hd : d.toNat ≤ 16384) :
    (onTicks p d).toNat = p.toNat ↔ d.toNat = 16384 := by
  constructor
  · intro h
    have hmul : p.toNat * 16384 ≤ p.toNat * d.toNat :=
      (Nat.le_div_iff_mul_le (by decide)).1 (by rw [← onTicks_toNat p hd, h])
    exact hd.antisymm (Nat.le_of_mul_le_mul_left hmul hp)
  · intro h
    rw [onTicks_toNat p hd, h, Nat.mul_div_cancel _ (by decide)]

/-- Settles O39: a duty is at most 16384, so the quotient is at most the period. -/
theorem onTicksIsTheFloor : Obligations.OnTicksIsTheFloor := by
  refine ⟨fun p d hp hd => ⟨?_, onTicks_toNat p hd, ?_, onTicks_le p hd, ?_, ?_, onTicks_eq_period_iff hp hd⟩, by decide⟩
  · calc p.toNat * d.toNat ≤ p.toNat * 16384 := Nat.mul_le_mul_left _ hd
      _ < 2 ^ 32 * 16384 := Nat.mul_lt_mul_of_pos_right p.isLt (by decide)
      _ = 2 ^ 46 := by decide
  · exact BitVec.toNat_sub_of_le (onTicks_le p hd)
  · rw [onTicks_toNat p hd]
    exact Nat.div_eq_zero_iff_lt (by decide)
  · rintro rfl
    rw [onTicks_toNat p hd]
    exact Nat.zero_div _

/-! ### Exclusive line ownership (R218) -/

theorem samePhysical_iff (a b : LineDesc) : a.samePhysical b = true ↔ a.reg = b.reg ∧ a.bit = b.bit := by
  simp [LineDesc.samePhysical]

/-- The search finds a live worker of another channel on the physical line, if there is one; `j` numbers the list. -/
theorem drivenByOther_iff (k : Nat) (l : LineDesc) (j : Nat) (cs : List Channel) :
    drivenByOther k l j cs = true ↔
      ∃ n c, cs[n]? = some c ∧ j + n ≠ k ∧ c.active = true ∧ c.sLine.samePhysical l = true := by
  constructor
  · intro h
    induction cs generalizing j with
    | nil => cases h
    | cons d rest ih =>
      rcases Bool.or_eq_true_iff.1 h with hd | hrest
      · simp only [Bool.and_eq_true, decide_eq_true_eq] at hd
        obtain ⟨⟨hne, ha⟩, hl⟩ := hd
        exact ⟨0, d, rfl, hne, ha, by simpa using hl⟩
      · obtain ⟨n, c, hn, hne, ha, hl⟩ := ih _ hrest
        exact ⟨n + 1, c, hn, by omega, ha, hl⟩
  · rintro ⟨n, c, hn, hne, ha, hl⟩
    by_contra hno
    simp [drivenByOther_eq_false (Bool.not_eq_true _ ▸ hno) hn hne ha] at hl

/-- Settles O38: the search over the other channels, and the two lines of the I2C engine. -/
theorem ownedElsewhereMeansAnotherOwner : Obligations.OwnedElsewhereMeansAnotherOwner := fun s k l => by
  rw [ownedElsewhere, Bool.or_eq_true, Bool.or_eq_true, drivenByOther_iff, samePhysical_iff, samePhysical_iff, or_assoc]
  refine or_congr_left (exists_congr fun j => exists_congr fun c => ?_)
  rw [Nat.zero_add, Channel.active_iff, samePhysical_iff]
  tauto

/-- Settles O56: START alone puts a worker on a line, and only on a free one. -/
theorem stepKeepsLineOwnershipExclusive : Obligations.StepKeepsLineOwnershipExclusive := fun _ _ => step_ownershipInv

end Sys2Proof.Machine
end

section
/-! PROOF. The worker over many tick steps (44_pwm_worker.md R222 to R226): one step of a worker that moves on is the
comparator's, and runs of it give the duty cycle, the latency of a stop and of a pause, and the frozen level. -/

namespace Sys2Proof.Machine

open Sys2Proof Host

/-! ### Runs of tick steps -/

theorem tickRun_succ (k n : Nat) (s : State) : tickRun k (n + 1) s = tickStep k (tickRun k n s) := by
  induction n generalizing s with
  | zero => rfl
  | succ n ih => exact ih (tickStep k s)

theorem tickRun_add (k n m : Nat) (s : State) : tickRun k (n + m) s = tickRun k m (tickRun k n s) := by
  induction m with
  | zero => rfl
  | succ m ih => rw [← Nat.add_assoc, tickRun_succ, ih, tickRun_succ]

/-- Where a tick step changes nothing, no run of them does. -/
theorem tickRun_fixed {k : Nat} {s : State} (h : tickStep k s = s) (n : Nat) : tickRun k n s = s := by
  induction n with
  | zero => rfl
  | succ n ih => rw [tickRun_succ, ih, h]

/-! ### One step of a worker that moves on (R220, R222) -/

/-- The worker is alive, its next tick step neither stops it nor finds it frozen, and inside an iteration OUT is the
comparator's output. -/
structure Channel.Moving (c : Channel) : Prop where
  active : c.active = true
  notFrozen : c.cnt = 0 → c.state = .running
  notStopping : c.stopPend = true → c.cnt ≠ 0 ∧ c.cnt ≠ c.sOn
  out : c.cnt ≠ 0 → c.out = decide (c.cnt.toNat ≤ c.sOn.toNat)

/-- The channel one tick step on: OUT is the comparator's output at CNT, and CNT advances. -/
def Channel.ticked (c : Channel) : Channel := { c with out := decide (c.cnt.toNat < c.sOn.toNat), cnt := nextCnt c }

theorem Channel.Moving.noStop_of_boundary {c : Channel} (h : c.Moving) (hb : c.cnt = 0 ∨ c.cnt = c.sOn) :
    c.stopPend = false := by
  rw [← Bool.not_eq_true]
  intro hp
  obtain ⟨h0, h1⟩ := h.notStopping hp
  exact hb.elim h0 h1

/-- A moving worker's tick step writes the comparator's output, or counts on where OUT is that output already. -/
theorem Channel.Moving.tickStep_cases {s : State} {k : Nat} {c : Channel} (h : c.Moving) (hk : s.chans[k]? = some c) :
    tickStep k s = beginPhase k c c.ticked.out s ∨
      (c.cnt ≠ 0 ∧ c.ticked.out = c.out ∧ tickStep k s = countTick k c s) := by
  by_cases h0 : c.cnt = 0
  · rw [tickStep_first hk (h.notFrozen h0) (h.noStop_of_boundary (.inl h0)) h0, ticked, h0]
    exact .inl rfl
  by_cases h1 : c.cnt = c.sOn
  · rw [tickStep_edge hk h.active (h.noStop_of_boundary (.inr h1)) h0 h1, ticked, h1]
    exact .inl (by simp)
  · have hne : c.cnt.toNat ≠ c.sOn.toNat := fun e => h1 (BitVec.eq_of_toNat_eq e)
    refine .inr ⟨h0, ?_, tickStep_count hk h.active h0 h1⟩
    rw [h.out h0]
    exact decide_eq_decide.2 (by omega)

theorem Channel.Moving.tickStep_chans {s : State} {k : Nat} {c : Channel} (h : c.Moving) (hk : s.chans[k]? = some c) :
    (tickStep k s).chans[k]? = some c.ticked := by
  rcases h.tickStep_cases hk with hs | ⟨-, hout, hs⟩ <;> rw [hs]
  · exact beginPhase_chans_self hk _
  · rw [countTick_chans_self hk, ← hout]
    rfl

/-- The level last written to the line follows OUT. -/
theorem Channel.Moving.tickStep_lastWritten {s : State} {k : Nat} {c : Channel} (h : c.Moving)
    (hk : s.chans[k]? = some c) (hl : c.cnt ≠ 0 → lastWritten (.worker k) c.sLine s.trace = some c.out) :
    lastWritten (.worker k) c.sLine (tickStep k s).trace = some c.ticked.out := by
  rcases h.tickStep_cases hk with hs | ⟨h0, hout, hs⟩ <;> rw [hs]
  · rw [beginPhase_trace, lastWritten_writeAction]
  · rw [countTick_trace, hl h0, hout]

/-- A count that fits below the period is the number itself. -/
theorem toNat_ofNat_mod_period {n : Nat} {p : Word} (hp : 1 ≤ p.toNat) :
    (BitVec.ofNat 32 (n % p.toNat)).toNat = n % p.toNat :=
  Nat.mod_eq_of_lt ((Nat.mod_lt n hp).trans p.isLt)

theorem toNat_ne_zero_of_ne {w : Word} (h : w ≠ 0) : w.toNat ≠ 0 := fun e => h (BitVec.eq_of_toNat_eq e)

/-- Inside an iteration the next count is one more. -/
theorem succ_mod_of_ne_zero {n p : Nat} (hp : 1 ≤ p) (h : (n + 1) % p ≠ 0) : (n + 1) % p = n % p + 1 := by
  rw [← Nat.mod_add_mod] at h ⊢
  obtain hin | hend : n % p + 1 < p ∨ n % p + 1 = p := Nat.lt_or_eq_of_le (Nat.mod_lt n hp)
  · exact Nat.mod_eq_of_lt hin
  · exact absurd (by rw [hend, Nat.mod_self]) h

/-! ### The comparator (R222) -/

/-- The channel after tick steps 0 to `n` of a running worker that starts at CNT = 0. -/
def Channel.compared (c : Channel) (n : Nat) : Channel :=
  { c with out := decide (n % c.sP.toNat < c.sOn.toNat), cnt := BitVec.ofNat 32 ((n + 1) % c.sP.toNat) }

theorem Channel.compared_zero_out (c : Channel) : (c.compared 0).out = decide (0 < c.sOn.toNat) := by
  rw [compared, Nat.zero_mod]

theorem Channel.compared_cnt {c : Channel} (hP : 1 ≤ c.sP.toNat) (n : Nat) :
    (c.compared n).cnt.toNat = (n + 1) % c.sP.toNat := toNat_ofNat_mod_period hP

theorem Channel.compared_moving {c : Channel} (hs : c.state = .running) (hp : c.stopPend = false)
    (hP : 1 ≤ c.sP.toNat) (n : Nat) : (c.compared n).Moving where
  active := by simp [compared, hs]
  notFrozen _ := hs
  notStopping h := absurd h (by simp [compared, hp])
  out h := by
    have h0 := toNat_ne_zero_of_ne h
    rw [compared_cnt hP] at h0 ⊢
    rw [succ_mod_of_ne_zero hP h0]
    rfl

theorem Channel.compared_ticked {c : Channel} (hP : 1 ≤ c.sP.toNat) (n : Nat) :
    (c.compared n).ticked = c.compared (n + 1) := by
  have hnext : nextCnt (c.compared n) = BitVec.ofNat 32 ((n + 1 + 1) % c.sP.toNat) := by
    rw [nextCnt, compared_cnt hP]
    exact congrArg (BitVec.ofNat 32) (Nat.mod_add_mod _ _ _)
  rw [ticked, hnext, compared_cnt hP]
  rfl

/-- Tick step `n` of a running worker leaves the comparator's channel and writes, or has written, its output. -/
theorem tickRun_compared {s : State} {k : Nat} {c : Channel} (hk : s.chans[k]? = some c) (hs : c.state = .running)
    (hp : c.stopPend = false) (h0 : c.cnt = 0) (hP : 1 ≤ c.sP.toNat) (n : Nat) :
    (tickRun k (n + 1) s).chans[k]? = some (c.compared n) ∧
      lastWritten (.worker k) c.sLine (tickRun k (n + 1) s).trace = some (c.compared n).out := by
  induction n with
  | zero =>
    have hm : c.Moving := ⟨by simp [hs], fun _ => hs, fun h => by simp [hp] at h, fun h => absurd h0 h⟩
    have hfirst : c.ticked = c.compared 0 := by
      rw [Channel.ticked, nextCnt, Channel.compared, h0, Nat.zero_mod]
      rfl
    rw [← hfirst]
    exact ⟨hm.tickStep_chans hk, hm.tickStep_lastWritten hk fun h => absurd h0 h⟩
  | succ n ih =>
    obtain ⟨hchan, hline⟩ := ih
    have hm := Channel.compared_moving hs hp hP n
    rw [tickRun_succ, ← Channel.compared_ticked hP]
    exact ⟨hm.tickStep_chans hchan, hm.tickStep_lastWritten hchan fun _ => hline⟩

/-- Settles O40: the count after step `n` is what step `n + 1` finds. -/
theorem workerIsADutyCycleComparator : Obligations.WorkerIsADutyCycleComparator :=
  fun s k c hk hs hp h0 hP _ n => by
  obtain ⟨hafter, hline⟩ := tickRun_compared hk hs hp h0 hP n
  have hbefore : ∃ c', (tickRun k n s).chans[k]? = some c' ∧ c'.cnt.toNat = n % c.sP.toNat := by
    cases n with
    | zero => exact ⟨c, hk, by simp [h0]⟩
    | succ n => exact ⟨_, (tickRun_compared hk hs hp h0 hP n).1, Channel.compared_cnt hP n⟩
  obtain ⟨c', hk', hcnt⟩ := hbefore
  exact ⟨c', c.compared n, hk', hcnt, hafter, rfl, hline, hs, rfl, rfl, rfl⟩

/-- Settles O45: the resumed worker is Running at CNT = 0, where its tick step begins an iteration. -/
theorem resumeBeginsANewIteration : Obligations.ResumeBeginsANewIteration := fun s k c hk hs hp h0 hP => by
  have hres : exec (.pwmResume k) s = .next (setChannel k { c with state := .running, err := .ok } s) := by
    rw [exec_pwmResume hk, if_neg (by simp [hs, hp])]
  obtain ⟨hchan, hline⟩ :=
    tickRun_compared (setChannel_chans_self hk { c with state := .running, err := .ok }) rfl hp h0 hP 0
  rw [Channel.compared_zero_out] at hline
  exact ⟨_, _, hres, hchan, rfl, Channel.compared_zero_out _, Channel.compared_cnt hP 0, hline⟩

/-! ### Inside one iteration (R224, R226) -/

/-- The channel `m` tick steps on, inside an iteration: CNT has advanced by `m` and OUT is the comparator's output. -/
def Channel.counted (c : Channel) (m : Nat) : Channel :=
  { c with out := decide (c.cnt.toNat + m ≤ c.sOn.toNat), cnt := BitVec.ofNat 32 ((c.cnt.toNat + m) % c.sP.toNat) }

section Iteration
variable {s : State} {k : Nat} {c : Channel}

/-- Before the end of the iteration the count is the plain sum. -/
theorem Channel.counted_cnt_of_lt {m : Nat} (h : c.cnt.toNat + m < c.sP.toNat) :
    (c.counted m).cnt.toNat = c.cnt.toNat + m :=
  (toNat_ofNat_mod_period (by omega)).trans (Nat.mod_eq_of_lt h)

theorem Channel.counted_cnt_ne_zero (h0 : c.cnt ≠ 0) {m : Nat} (h : c.cnt.toNat + m < c.sP.toNat) :
    (c.counted m).cnt ≠ 0 := fun e => by
  have hcnt := (counted_cnt_of_lt h).symm.trans (congrArg BitVec.toNat e)
  exact toNat_ne_zero_of_ne h0 (Nat.eq_zero_of_add_eq_zero_right hcnt)

/-- At the end of the iteration the count is 0. -/
theorem Channel.counted_end {m : Nat} (h : c.cnt.toNat + m = c.sP.toNat) : (c.counted m).cnt = 0 := by
  rw [counted, h, Nat.mod_self]
  rfl

/-- From inside an iteration a live worker moves on up to its end, while no pending stop meets the end of the on-phase. -/
theorem tickRun_counted (hk : s.chans[k]? = some c) (hw : workerInv s.cfg c) (ha : c.active = true) (h0 : c.cnt ≠ 0)
    {m : Nat} (hm : c.cnt.toNat + m ≤ c.sP.toNat)
    (hstop : c.stopPend = true → ∀ i < m, c.cnt.toNat + i ≠ c.sOn.toNat) :
    (tickRun k m s).chans[k]? = some (c.counted m) := by
  obtain ⟨-, hlive⟩ := hw
  obtain ⟨hP, -, hlt, -, hout⟩ := hlive ha
  have hne := toNat_ne_zero_of_ne h0
  induction m with
  | zero =>
    rw [Channel.counted, Nat.add_zero, Nat.mod_eq_of_lt hlt, ← hout hne, BitVec.ofNat_toNat, BitVec.setWidth_eq]
    exact hk
  | succ m ih =>
    have hcnt : (c.counted m).cnt.toNat = c.cnt.toNat + m := Channel.counted_cnt_of_lt (by omega)
    have hinside : (c.counted m).cnt ≠ 0 := Channel.counted_cnt_ne_zero h0 (by omega)
    have hmoving : (c.counted m).Moving := by
      refine ⟨ha, fun e => absurd e hinside, fun hp => ⟨hinside, fun e => hstop hp m (by omega) ?_⟩, fun _ => ?_⟩
      · exact hcnt.symm.trans (congrArg BitVec.toNat e)
      · rw [hcnt]
        rfl
    have hnext : nextCnt (c.counted m) = BitVec.ofNat 32 ((c.cnt.toNat + (m + 1)) % c.sP.toNat) := by
      rw [nextCnt, hcnt]
      rfl
    rw [tickRun_succ, hmoving.tickStep_chans (ih (by omega) fun hp i hi => hstop hp i (by omega)), Channel.ticked, hnext,
      hcnt]
    rfl

end Iteration

/-- Settles O44: the worker runs to the end of its iteration, where it stands frozen; the level it has then is the
comparator's at the last count. -/
theorem pauseFreezesAtTheBoundary : Obligations.PauseFreezesAtTheBoundary := fun s k c hk hw hs hp => by
  intro n
  have ha : c.active = true := c.active_iff.2 (.inr hs)
  obtain ⟨hP, hon, hlt, -⟩ := hw.2 ha
  have hend : ∃ c', (tickRun k n s).chans[k]? = some c' ∧ c'.cnt = 0 ∧ c'.state = .paused ∧ c'.stopPend = false ∧
      (c.cnt.toNat ≠ 0 → c'.out = decide (c.sOn = c.sP)) := by
    by_cases h0 : c.cnt = 0
    · have hn : n = 0 := by simp [n, h0]
      rw [hn]
      exact ⟨c, hk, h0, hs, hp, fun h => absurd (by simp [h0]) h⟩
    · have hne := toNat_ne_zero_of_ne h0
      have hn : c.cnt.toNat + n = c.sP.toNat := by
        have : n = c.sP.toNat - c.cnt.toNat := Nat.mod_eq_of_lt (by omega)
        omega
      refine ⟨c.counted n, tickRun_counted hk hw ha h0 hn.le fun h => by simp [hp] at h, Channel.counted_end hn, hs, hp,
        fun _ => ?_⟩
      rw [Channel.counted, hn]
      exact decide_eq_decide.2 ⟨fun h => BitVec.eq_of_toNat_eq (hon.antisymm h), fun h => by rw [h]⟩
  obtain ⟨c', hk', h0', hs', hp', hout⟩ := hend
  refine ⟨fun m => ?_, c', hk', h0', hs', hout⟩
  rw [tickRun_add, tickRun_fixed (tickStep_frozen hk' hs' hp' h0')]

/-- The next boundary of an iteration: the end of the on-phase, if that is still to come and is not the iteration's own
end, else the end of the iteration. -/
theorem exists_next_boundary {cnt on p : Nat} (hlt : cnt < p) :
    ∃ n, (∀ i < n, cnt + i ≠ on) ∧ cnt + n ≤ p ∧ (cnt + n = p ∨ (cnt + n = on ∧ on < p)) := by
  by_cases h : cnt ≤ on ∧ on < p
  · exact ⟨on - cnt, fun i hi => by omega, by omega, .inr (by omega)⟩
  · exact ⟨p - cnt, fun i hi => by omega, by omega, .inl (by omega)⟩

/-- A pending stop that meets a boundary is carried out: the line is written low and the worker ends. -/
theorem tickRun_stopped {s : State} {k n : Nat} {c : Channel} (hk : (tickRun k n s).chans[k]? = some c)
    (ha : c.active = true) (hp : c.stopPend = true) (h : c.cnt = 0 ∨ c.cnt = c.sOn) :
    ∃ c', (tickRun k (n + 1) s).chans[k]? = some c' ∧ c'.state = .stopped ∧ c'.stopPend = false ∧ c'.out = false ∧
      c'.cnt = 0 ∧ lastWritten (.worker k) c.sLine (tickRun k (n + 1) s).trace = some false := by
  rw [tickRun_succ, tickStep_stop hk ha hp h, stopNow_trace, lastWritten_writeAction]
  exact ⟨_, stopNow_chans_self hk, rfl, rfl, rfl, rfl, rfl⟩

/-- Settles O43: the worker counts on until it meets a boundary, and there it stops. -/
theorem stopTakesAtMostOnePeriod : Obligations.StopTakesAtMostOnePeriod := fun s k c hk hw hp => by
  obtain ⟨hpend, hlive⟩ := hw
  have ha := hpend hp
  obtain ⟨hP, -, hlt, -⟩ := hlive ha
  by_cases h0 : c.cnt = 0
  · exact ⟨0, hP, nofun, ⟨c, hk, hp, .inl h0⟩, fun _ => rfl, tickRun_stopped hk ha hp (.inl h0)⟩
  have hne := toNat_ne_zero_of_ne h0
  obtain ⟨n, hbefore, hle, hend⟩ := exists_next_boundary (on := c.sOn.toNat) hlt
  have hrun {m : Nat} (hm : m ≤ n) : (tickRun k m s).chans[k]? = some (c.counted m) :=
    tickRun_counted hk ⟨hpend, hlive⟩ ha h0 (by omega) fun _ i hi => hbefore i (by omega)
  have hboundary : (c.counted n).cnt = 0 ∨ ((c.counted n).cnt = c.sOn ∧ 0 < c.sOn.toNat ∧ c.sOn.toNat < c.sP.toNat) := by
    rcases hend with hend | ⟨hend, hin⟩
    · exact .inl (Channel.counted_end hend)
    · refine .inr ⟨BitVec.eq_of_toNat_eq ?_, by omega, hin⟩
      rw [Channel.counted_cnt_of_lt (by omega), hend]
  refine ⟨n, by omega, fun m hm => ?_, ⟨_, hrun le_rfl, hp, hboundary⟩, fun h => absurd h h0,
    tickRun_stopped (c := c.counted n) (hrun le_rfl) ha hp (hboundary.imp_right And.left)⟩
  have hcnt : (c.counted m).cnt.toNat = c.cnt.toNat + m := Channel.counted_cnt_of_lt (by omega)
  exact ⟨_, hrun hm.le, hp, hcnt, Channel.counted_cnt_ne_zero h0 (by omega),
    fun e => hbefore m hm (hcnt.symm.trans (congrArg BitVec.toNat e))⟩

end Sys2Proof.Machine
end

section
/-! PROOF. The rejections (60_exceptions.md): a busy engine turns every I2C command away (R241, R243), no rejection disturbs
the command in flight (R79, R241), and the PWM commands check in the order of R243. -/

namespace Sys2Proof.Machine

open Sys2Proof Host

/-! ### A busy engine (R241, R243) -/

/-- A busy engine rejects an I2C command with code 2 before its length is looked at (R243). -/
theorem exec_busy {i : Instr} {s t : State} {lenOk : Bool} (he : exec i s = .next (presentI2c lenOk s t))
    (hb : s.i2c.busy = true) : exec i s = .next (raiseReject (.i2c .busy) s) := by
  rw [he, presentI2c, if_pos hb]

theorem rejectReservedI2c_busy {s : State} (hb : s.i2c.busy = true) :
    rejectReservedI2c s = raiseReject (.i2c .busy) s := by
  rw [rejectReservedI2c, if_pos hb]

/-- Settles O13: the seven commands share the check of BUSY, which comes first. -/
theorem busyEngineRejectsEveryCommand : Obligations.BusyEngineRejectsEveryCommand := by
  intro s b a h len addr hb
  simp only [List.forall_mem_cons, List.not_mem_nil, false_implies, implies_true, and_true]
  exact ⟨exec_busy rfl hb, exec_busy rfl hb, exec_busy rfl hb, exec_busy rfl hb, exec_busy rfl hb, exec_busy rfl hb,
    exec_busy rfl hb⟩

/-! ### The command in flight (R79, R241)

A rejection writes ERR, and a read's answer the value returned. No part of the engine's step reads or writes either, so
the step commutes with both. -/

/-- A rejected I2C access that answers `v`; one that answers nothing is `raiseReject_eq_rejectAnswering`. -/
def rejectAnswering (e : I2cErr) (v : Word) (s : State) : State := answer v (raiseReject (.i2c e) s)

theorem raiseReject_eq_rejectAnswering (e : I2cErr) (s : State) :
    raiseReject (.i2c e) s = rejectAnswering e s.rdata s := rfl

section InFlight
variable (e : I2cErr) (v : Word) (s : State)

theorem portNext_rejectAnswering : portNext (rejectAnswering e v s) = rejectAnswering e v (portNext s) := by
  cases hp : s.portIn with
  | nil => simp only [portNext, rejectAnswering, answer_portIn, raiseReject_i2c_portIn, hp]; rfl
  | cons b rest => simp only [portNext, rejectAnswering, answer_portIn, raiseReject_i2c_portIn, hp]; rfl

theorem performAction_rejectAnswering (a : BusAction) :
    performAction a (rejectAnswering e v s) = rejectAnswering e v (performAction a s) := by
  cases a with
  | drive w l =>
    simp only [performAction, lineWrite, portNext_rejectAnswering]
    rfl
  | sample =>
    simp only [performAction, lineReadNext, portNext_rejectAnswering]
    rfl

theorem pendingActions_rejectAnswering : pendingActions (rejectAnswering e v s) = pendingActions s := by
  have hstage : stageActions (rejectAnswering e v s) s.i2c.pos.stage = stageActions s s.i2c.pos.stage :=
    stageActions_congr rfl rfl _
  have hpos : (rejectAnswering e v s).i2c.pos = s.i2c.pos := rfl
  rw [pendingActions, pendingActions, hpos, hstage]

/-- What the pseudocode puts after a procedure goes by the stage and CUR. -/
theorem finishStage_rejectAnswering :
    finishStage (rejectAnswering e v s) = rejectAnswering e v (finishStage s) := by
  have hstage : (rejectAnswering e v s).i2c.pos.stage = s.i2c.pos.stage := rfl
  have hbyte : ∀ j, byteStage (rejectAnswering e v s) j = byteStage s j := byteStage_congr rfl
  simp only [finishStage, hstage, hbyte]
  cases s.i2c.pos.stage with
  | frameSend j r => cases r <;> rfl
  | _ => rfl

/-- The engine's step commutes with a rejection. -/
theorem engineStep_rejectAnswering :
    engineStep (rejectAnswering e v s) = rejectAnswering e v (engineStep s) := by
  have hbusy : (rejectAnswering e v s).i2c.busy = s.i2c.busy := rfl
  have htodo : ∀ l t, setTodo l (rejectAnswering e v t) = rejectAnswering e v (setTodo l t) := fun _ _ => rfl
  simp only [engineStep, hbusy, pendingActions_rejectAnswering, performAction_rejectAnswering, htodo,
    finishStage_rejectAnswering]
  split
  · split <;> rfl
  · rfl

theorem engineStep_raiseReject : engineStep (raiseReject (.i2c e) s) = raiseReject (.i2c e) (engineStep s) := by
  obtain ⟨-, -, -, -, hrdata, -⟩ := engineStep_frame s
  rw [raiseReject_eq_rejectAnswering, engineStep_rejectAnswering, raiseReject_eq_rejectAnswering, hrdata]

end InFlight

/-- Settles O15: each access only raises its rejection, and the engine's step commutes with that. -/
theorem rejectionLeavesTheEngineOnItsWay : Obligations.RejectionLeavesTheEngineOnItsWay := by
  intro s b a h len addr i v hb hi u
  refine ⟨fun x hx => ?_, ?_, ?_, ?_⟩
  · exact ⟨_, busyEngineRejectsEveryCommand s b a h len addr hb x hx, engineStep_raiseReject .busy s⟩
  · rw [rejectReservedI2c_busy hb]
    exact engineStep_raiseReject .busy s
  · rw [exec_wrI2cBuf hi, if_pos hb]
    exact ⟨_, rfl, engineStep_raiseReject .bufBusy s⟩
  · rw [exec_rdI2cBuf hi, if_pos hb]
    exact ⟨_, rfl, engineStep_rejectAnswering .bufBusy 0 s⟩

/-! ### The checks of the PWM commands (R190, R193, R195, R210) -/

/-- A duty above 0x4000 fails the range check (R107, R194). -/
theorem dutyInRange_eq_false_of_lt {d : BitVec 16} (hd : 0x4000 < d.toNat) : dutyInRange d = false := by
  obtain ⟨-, hunsigned⟩ := dutyRangeIsZeroToOne d
  exact Bool.eq_false_iff.2 fun h => absurd (hunsigned.1 h) (Nat.not_le.2 hd)

section Checks
variable {s : State} {k : Nat} {c : Channel}

/-- INIT checks line, duty, period (R190). -/
theorem exec_pwmInit (hk : s.chans[k]? = some c) (d : BitVec 16) (l : LineDesc) :
    exec (.pwmInit k d l) s = .next (setChannel k
      (if s.cfg.supportsOutput l = false then { c with err := .line }
        else if dutyInRange d = false then { c with err := .duty }
        else if c.periodArg = 0 then { c with err := .period }
        else { c with line := l, duty := d, period := c.periodArg, cfgValid := true, err := .ok }) s) := by
  refine (onChannel_present hk _ _).trans ?_
  simp only [raiseReject_pwm_eq hk, ← apply_ite (setChannel k · s), Bool.not_eq_true']

/-- SETDUTY checks construction, duty (R193). -/
theorem exec_pwmSetduty (hk : s.chans[k]? = some c) (d : BitVec 16) :
    exec (.pwmSetduty k d) s = .next (setChannel k
      (if c.cfgValid = false then { c with err := .notConstructed }
        else if dutyInRange d = false then { c with err := .duty }
        else { c with duty := d, err := .ok }) s) := by
  refine (onChannel_present hk _ _).trans ?_
  simp only [raiseReject_pwm_eq hk, ← apply_ite (setChannel k · s), Bool.not_eq_true']

/-- SETLINE checks construction, line (R195). -/
theorem exec_pwmSetline (hk : s.chans[k]? = some c) (l : LineDesc) :
    exec (.pwmSetline k l) s = .next (setChannel k
      (if c.cfgValid = false then { c with err := .notConstructed }
        else if s.cfg.supportsOutput l = false then { c with err := .line }
        else { c with line := l, err := .ok }) s) := by
  refine (onChannel_present hk _ _).trans ?_
  simp only [raiseReject_pwm_eq hk, ← apply_ite (setChannel k · s), Bool.not_eq_true']

/-- START checks construction, state, ownership (R210). -/
theorem exec_pwmStart (hk : s.chans[k]? = some c) : exec (.pwmStart k) s = .next (setChannel k
    (if c.cfgValid = false then { c with err := .notConstructed }
      else if c.active = true then { c with err := .state }
      else if ownedElsewhere k c.line s = true then { c with err := .owned }
      else { c with sLine := c.line, sP := c.period, sOn := onTicks c.period c.duty, cnt := 0, state := .running,
                    err := .ok }) s) := by
  refine (onChannel_present hk _ _).trans ?_
  simp only [raiseReject_pwm_eq hk, ← apply_ite (setChannel k · s), Bool.not_eq_true']

end Checks

/-- Settles O31: each clause names the first check that fails. -/
theorem pwmRejectionsInOrder : Obligations.PwmRejectionsInOrder := by
  intro s k c d l hk rejected
  refine ⟨fun hl => ?_, fun hl hd => ?_, fun hl hd hp => ?_, fun hv => ⟨?_, ?_, ?_⟩, fun hv hd => ?_, fun hv hl => ?_,
    fun hv hs => exec_pwmStart_active hk hv (c.active_iff.2 hs), fun hv hs ho => ?_⟩
  · rw [exec_pwmInit hk, if_pos hl]; rfl
  · rw [exec_pwmInit hk, if_neg (ne_false_of_eq_true hl), if_pos (dutyInRange_eq_false_of_lt hd)]; rfl
  · rw [exec_pwmInit hk, if_neg (ne_false_of_eq_true hl), if_neg (ne_false_of_eq_true (dutyInRange_of_toNat_le hd)),
      if_pos hp]
    rfl
  · rw [exec_pwmSetduty hk, if_pos hv]; rfl
  · rw [exec_pwmSetline hk, if_pos hv]; rfl
  · rw [exec_pwmStart hk, if_pos hv]; rfl
  · rw [exec_pwmSetduty hk, if_neg (ne_false_of_eq_true hv), if_pos (dutyInRange_eq_false_of_lt hd)]; rfl
  · rw [exec_pwmSetline hk, if_neg (ne_false_of_eq_true hv), if_pos hl]; rfl
  · have hidle : ¬ c.active = true := Bool.eq_false_iff.1 (c.active_eq_false_iff.2 hs)
    rw [exec_pwmStart hk, if_neg (ne_false_of_eq_true hv), if_neg hidle, if_pos ho]; rfl

end Sys2Proof.Machine
end

section
/-! PROOF. A reset during operation abandons the work in flight (70_reset_and_hazards.md R270, R272). -/

namespace Sys2Proof.Machine

open Sys2Proof Host

/-- With the reset at the head of the agenda, the step is the reset (R87, R270). -/
theorem step_resetBlock {s : State} {rest : List Event} (hc : s.cfg.wf = true) (ha : s.agenda = .reset :: rest) :
    step s = .next (resetBlock { s with agenda := rest }) := by
  simp only [step, machineStep, nextEvent, takeEvent, runEvent, hc, ha, if_true]

/-- An idle engine takes no step, however often it is its turn (R257). -/
theorem engineRun_idle {s : State} (hb : s.i2c.busy = false) (n : Nat) : engineRun n s = s := by
  induction n with
  | zero => rfl
  | succ n ih => rw [engineRun, engineStep_idle hb, ih]

/-- A block none of whose channels has a worker takes no tick step. -/
theorem tickStep_noWorker {s : State} (hidle : ∀ c ∈ s.chans, c.active = false) (k : Nat) : tickStep k s = s := by
  rcases tickStep_cases k s with h | ⟨c, hk, ha, -⟩
  · exact h
  · exact absurd ha (Bool.eq_false_iff.1 (hidle c (List.mem_of_getElem? hk)))

/-- A reset leaves every channel as `Channel.reset` has it. -/
theorem mem_resetBlock_chans {s : State} {c : Channel} (h : c ∈ (resetBlock s).chans) : c = Channel.reset s.cfg.tickHz :=
  mem_resetWith_chans h

/-- After a reset the engine performs no line action of the command it had in hand (R272). -/
theorem engineRun_resetBlock (n : Nat) (s : State) : engineRun n (resetBlock s) = resetBlock s :=
  engineRun_idle rfl n

/-- After a reset no worker is left to drive its line (R272). -/
theorem tickStep_resetBlock (k : Nat) (s : State) : tickStep k (resetBlock s) = resetBlock s :=
  tickStep_noWorker (fun c hc => by rw [mem_resetBlock_chans hc]; rfl) k

/-- Settles O51: the next state is the reset block, whose engine is idle and whose channels have no worker. -/
theorem resetAbandonsWorkInFlight : Obligations.ResetAbandonsWorkInFlight := fun s rest hc ha => by
  refine ⟨resetBlock { s with agenda := rest }, step_resetBlock hc ha, rfl, resetValues_resetWith s.cfg hc, rfl, rfl, rfl,
    rfl, fun n => ?_, fun k => tickStep_resetBlock k _, fun ch hch => ?_⟩
  · rw [engineRun_resetBlock, resetBlock_trace]
  · rw [mem_resetBlock_chans hch]
    exact ⟨rfl, rfl, rfl⟩

end Sys2Proof.Machine
end
